-- ==== Sys2Proof/Word.lean ====
section
/-! DEFINITION. The word types of the block: bytes, the 32-bit words of a command, the 16-bit operand fields,
the bus index (spec 30 R70, R77). A memory address, a buffer pointer and the command's `PTR` have `ADDR_W` bits, a width the
spec leaves open (00 R6, 20 R50), so they are numbers; that they stay below `2 ^ ADDR_W` wherever they are held is part of
`State.memoryInv` (log entry 16). -/

namespace Sys2Proof

/-- One byte of memory, of the staging buffer or of the wire (20 R53: every access is one byte wide). -/
abbrev Byte := BitVec 8

/-- A 16-bit operand field: `ADDR`, `REG`, `LEN` (30 R70). -/
abbrev Half := BitVec 16

/-- A 32-bit word of `CMD96` (30 R70) or of the register view (10 R37). -/
abbrev Word := BitVec 32

/-- The 7-bit target address of `ADDRESS[b]` (10 R17). -/
abbrev Addr7 := BitVec 7

/-- A bus index as the 4-bit `BUS` field can name one (30 R77); which of the sixteen exist is `Config.nbus`. -/
abbrev BusId := Fin 16

end Sys2Proof
end

