-- ==== Sys2Proof/Config.lean ====
section
/-! DEFINITION. The implementation parameters of 00 R6 and 93 section 2, as plain data (`State` carries one
`Config`, which no step writes), the fixed limits, and the free values of the points the spec leaves open. -/

namespace Sys2Proof

/-- `NACK_STOP`, 00 R6: what the wire engine does with the bus after a NACK. -/
inductive NackStop where
  | stop | hold | either
  deriving DecidableEq, Repr

/-- The registers of a bus's block by role (10 R37); `INTEN` has a read, a set and a clear view. -/
inductive Reg where
  | tStartRx | tStartTx | tStop
  | evStopped | evError | evLastRx | evLastTx
  | shorts | inten | intenSet | intenClr | errSrc
  | enable | pselScl | pselSda | freq
  | rxPtr | rxCnt | txPtr | txCnt | txAmt | address
  deriving DecidableEq, Repr

/-- `REGMAP`, 10 R37: register offsets from `DESC[b].base` and bit positions. No rule depends on it. -/
structure RegMap where
  offsets    : List (Reg × Nat)
  ltxSrxBit  : Nat
  ltxStopBit : Nat
  lrxStopBit : Nat
  stoppedBit : Nat
  errorBit   : Nat
  lastTxBit  : Nat
  anackBit   : Nat
  dnackBit   : Nat
  enableCode : Nat
  deriving DecidableEq, Repr

/-- The default register map of 10 R37 (the spec marks it general knowledge). -/
def RegMap.standard : RegMap where
  offsets :=
    [(.tStartRx, 0x000), (.tStartTx, 0x008), (.tStop, 0x014), (.evStopped, 0x104), (.evError, 0x124), (.evLastRx, 0x15C),
     (.evLastTx, 0x160), (.shorts, 0x200), (.inten, 0x300), (.intenSet, 0x304), (.intenClr, 0x308)] ++
    [(.errSrc, 0x4C4), (.enable, 0x500), (.pselScl, 0x508), (.pselSda, 0x50C), (.freq, 0x524), (.rxPtr, 0x534),
     (.rxCnt, 0x538), (.txPtr, 0x544), (.txCnt, 0x548), (.txAmt, 0x54C), (.address, 0x588)]
  ltxSrxBit := 7
  ltxStopBit := 9
  lrxStopBit := 12
  stoppedBit := 1
  errorBit := 9
  lastTxBit := 24
  anackBit := 1
  dnackBit := 2
  enableCode := 6

/-- The BusDescriptor, 00 R7, "immutable, one per physical bus", with the opaque `peripheral_id(b)` of 40 R90. -/
structure Desc where
  base         : Nat
  sclPin       : Nat
  sdaPin       : Nat
  speed        : Nat
  sharesPins   : Bool
  peripheralId : Nat
  deriving DecidableEq, Repr

/-- The parameters. `dma` lists the address ranges, ends included, on which `DmaAddressable` holds (20 R51: any
predicate on a finite address space is such a list). `txAmtZeroed` is the switch 70 R223 asks for. -/
structure Config where
  nbus        : Nat
  desc        : Vector Desc 16
  addrW       : Nat
  dma         : List (Nat × Nat)
  nackStop    : NackStop
  txAmtZeroed : Bool
  regMap      : RegMap
  deriving DecidableEq, Repr

/-- `NBUS` is at least 1 and at most 16 (93 section 2). -/
def Config.wf (c : Config) : Bool := 1 ≤ c.nbus && c.nbus ≤ 16

/-- `STAGING_CAP`, 00 R6. -/
def Config.stagingCap : Nat := 256

/-- `LEN_MAX`, 00 R6: the largest payload of `WRITE`, `READ`, `READ_REG`. -/
def Config.lenMax : Nat := 255

/-- `LEN_MAX_WREG`, 00 R6: the largest payload of `WRITE_REG`. -/
def Config.lenMaxWreg : Nat := 252

/-- The descriptor of a bus slot that a configuration does not use. -/
def Desc.unused : Desc := ⟨0, 0, 0, 0, false, 0⟩

/-- DESIGN CHOICE (log entry 2): the configuration `TC` of 95_test_vectors.md, carried by `State.reset`; the
bases, the speeds and the peripheral ids, for which `TC` gives no number, are names of this model. -/
def Config.tc : Config where
  nbus := 2
  desc := (Vector.replicate 16 Desc.unused).set 0 ⟨0x40003000, 26, 27, 0, false, 3⟩ |>.set 1 ⟨0x40004000, 30, 31, 1, true, 4⟩
  addrW := 32
  dma := [(0x20000000, 0x2000FFFF)]
  nackStop := .either
  txAmtZeroed := true
  regMap := RegMap.standard

/-- FREE VALUE (log entry 8): the `n`-th two-way choice the spec leaves to the wire engine, `TXAMT` after a NACK
(43 R153, R155; 93 U10) and the stop after a NACK under `NACK_STOP = either` (43 R160; 93 U12). It has no body:
nothing constrains it. -/
opaque Config.freeBit : Nat → Bool

end Sys2Proof
end

