-- ==== Sys2Proof/Syntax.lean ====
section
/-! DEFINITION. The seven operations of the command interface (30 R71), the command record and its 96-bit
packing as plain data (30 R70), and the textual form of an operation (30 R80). -/

namespace Sys2Proof

/-- The command record `(OP, BUS, FLAGS, ADDR, REG, LEN, PTR)` of 30 R70; also the shape of the operand
latches `SEQ[b].cmd` of 10 R11. -/
structure Cmd where
  op    : BitVec 4
  bus   : BusId
  flags : Byte
  addr  : Half
  reg   : Half
  len   : Half
  ptr   : Nat
  deriving DecidableEq, Repr

/-- One command as it is presented: three words, presented together (30 R70). `w2` is the `PTR` field, "32 (`ADDR_W`)" wide:
32 bits by default, otherwise as many as an address has (log entry 16). -/
structure Cmd96 where
  w0 : Word
  w1 : Word
  w2 : Nat
  deriving DecidableEq, Repr

/-- The operations of the opcode table, one constructor per row, each with the fields it uses (30 R71: a field
an operation does not use is ignored). -/
inductive Instr where
  | init     (bus : BusId)
  | acquire  (bus : BusId)
  | release  (bus : BusId)
  | write    (bus : BusId) (flags : Byte) (addr : Half) (len : Half) (ptr : Nat)
  | writeReg (bus : BusId) (flags : Byte) (addr : Half) (reg : Half) (len : Half) (ptr : Nat)
  | read     (bus : BusId) (flags : Byte) (addr : Half) (len : Half) (ptr : Nat)
  | readReg  (bus : BusId) (flags : Byte) (addr : Half) (reg : Half) (len : Half) (ptr : Nat)
  deriving DecidableEq, Repr

/-- The `BUS` operand, which every operation takes (30 R77). -/
def Instr.bus : Instr → BusId
  | .init b | .acquire b | .release b => b
  | .write b _ _ _ _ | .writeReg b _ _ _ _ _ | .read b _ _ _ _ | .readReg b _ _ _ _ _ => b

/-- The `PTR` operand; the lifecycle operations have none. -/
def Instr.ptr : Instr → Nat
  | .init _ | .acquire _ | .release _ => 0
  | .write _ _ _ _ p | .writeReg _ _ _ _ _ p | .read _ _ _ _ p | .readReg _ _ _ _ _ p => p

/-- A number written in hexadecimal, as the spec's examples write addresses. -/
def hexText (n : Nat) : String := "0x" ++ String.ofList (Nat.toDigits 16 n)

/-- The textual form of a command (30 R80): a call with named operands, bus first. -/
def Instr.text : Instr → String
  | .init b => "init(bus=" ++ toString b.val ++ ")"
  | .acquire b => "acquire(bus=" ++ toString b.val ++ ")"
  | .release b => "release(bus=" ++ toString b.val ++ ")"
  | .write b f a n p => "write(bus=" ++ toString b.val ++ ", addr=" ++ hexText a.toNat ++ ", data=@" ++ hexText p
      ++ ", len=" ++ toString n.toNat ++ ", flags=" ++ toString f.toNat ++ ")"
  | .writeReg b f a r n p => "write_register(bus=" ++ toString b.val ++ ", addr=" ++ hexText a.toNat ++ ", reg="
      ++ hexText r.toNat ++ ", data=@" ++ hexText p ++ ", len=" ++ toString n.toNat ++ ", flags="
      ++ toString f.toNat ++ ")"
  | .read b f a n p => "read(bus=" ++ toString b.val ++ ", addr=" ++ hexText a.toNat ++ ", data=@" ++ hexText p
      ++ ", len=" ++ toString n.toNat ++ ", flags=" ++ toString f.toNat ++ ")"
  | .readReg b f a r n p => "read_register(bus=" ++ toString b.val ++ ", addr=" ++ hexText a.toNat ++ ", reg="
      ++ hexText r.toNat ++ ", data=@" ++ hexText p ++ ", len=" ++ toString n.toNat ++ ", flags="
      ++ toString f.toNat ++ ")"

end Sys2Proof
end

