-- ==== Sys2Proof/WellFormed.lean ====
section
/-! DEFINITION. Which terms of `Instr` are commands: the reserved encodings of 30 R79 as checks on an operation's
fields. Operand values the spec gives a meaning (a contract violation, an unsupported flag) are NOT ill-formed. -/

namespace Sys2Proof

/-- Why a command has no meaning (30 R79), and the one form error of a word sequence. -/
inductive Reject where
  /-- `OP` in {0x3, 0x8 .. 0xF}. -/
  | reservedOpcode
  /-- `FLAGS[7:4] != 0` on a transfer operation. -/
  | reservedFlags
  /-- `ADDR[15:7] != 0` on a transfer operation. -/
  | reservedAddress
  /-- Not exactly three 32-bit words (30 R70: every command has the same length). -/
  | wrongLength
  deriving DecidableEq, Repr

/-- The field check of a transfer operation: flags first, then the address (30 R79). -/
def transferReject (flags : Byte) (addr : Half) : Option Reject :=
  if flags.extractLsb' 4 4 ≠ 0 then some .reservedFlags
  else if addr.extractLsb' 7 9 ≠ 0 then some .reservedAddress
  else none

/-- The reserved-encoding check of an operation; the lifecycle operations use no checked field (30 R71, R79). -/
def Instr.reject? : Instr → Option Reject
  | .init _ | .acquire _ | .release _ => none
  | .write _ f a _ _ | .writeReg _ f a _ _ _ | .read _ f a _ _ | .readReg _ f a _ _ _ => transferReject f a

/-- The operation is encodable as a non-reserved command. -/
def Instr.wf (i : Instr) : Bool := i.reject?.isNone

end Sys2Proof
end

