-- ==== Sys2Proof/Decode.lean ====
section
/-! DEFINITION. Decoding a presented command (30 R70, R71, R79, R81), total on any three words and on any word
sequence, rejecting by name; after it the encoder, written from the same packing. -/

namespace Sys2Proof

/-- The fields of the three words (30 R70, the table of word and bits). -/
def unpack (c : Cmd96) : Cmd where
  op    := c.w0.extractLsb' 28 4
  bus   := ⟨(c.w0.extractLsb' 24 4).toNat, (c.w0.extractLsb' 24 4).isLt⟩
  flags := c.w0.extractLsb' 16 8
  addr  := c.w0.extractLsb' 0 16
  reg   := c.w1.extractLsb' 16 16
  len   := c.w1.extractLsb' 0 16
  ptr   := c.w2

/-- Accepts an operation whose fields are not reserved. -/
def checked (i : Instr) : Except Reject Instr :=
  match i.reject? with
  | some e => .error e
  | none => .ok i

/-- The operation of a command record, told from `OP` alone (30 R71, R81). -/
def decodeCmd (c : Cmd) : Except Reject Instr :=
  match c.op.toNat with
  | 0 => checked (.init c.bus)
  | 1 => checked (.acquire c.bus)
  | 2 => checked (.release c.bus)
  | 4 => checked (.write c.bus c.flags c.addr c.len c.ptr)
  | 5 => checked (.writeReg c.bus c.flags c.addr c.reg c.len c.ptr)
  | 6 => checked (.read c.bus c.flags c.addr c.len c.ptr)
  | 7 => checked (.readReg c.bus c.flags c.addr c.reg c.len c.ptr)
  | _ => .error .reservedOpcode

/-- What the command interface carries of a command: `PTR` has `ADDR_W` bits (10 R11; log entry 16). -/
def Cmd96.onWires (addrW : Nat) (c : Cmd96) : Cmd96 := { c with w2 := c.w2 % 2 ^ addrW }

/-- The operation of a presented command. -/
def decode (c : Cmd96) : Except Reject Instr := decodeCmd (unpack c)

/-- Decoding of any sequence of words: exactly three words are a command. -/
def decodeWords : List Word → Except Reject Instr
  | [w0, w1, w2] => decode ⟨w0, w1, w2.toNat⟩
  | _ => .error .wrongLength

/-- The opcode numbers of 30 R71. -/
def Instr.opcode : Instr → BitVec 4
  | .init _ => 0
  | .acquire _ => 1
  | .release _ => 2
  | .write _ _ _ _ _ => 4
  | .writeReg _ _ _ _ _ _ => 5
  | .read _ _ _ _ _ => 6
  | .readReg _ _ _ _ _ _ => 7

/-- The record `c` with the fields that an operation uses (30 R71) taken from it. -/
def Instr.over (i : Instr) (c : Cmd) : Cmd :=
  match i with
  | .init b | .acquire b | .release b => { c with op := i.opcode, bus := b }
  | .write b f a n p | .read b f a n p => { c with op := i.opcode, bus := b, flags := f, addr := a, len := n, ptr := p }
  | .writeReg b f a r n p | .readReg b f a r n p => ⟨i.opcode, b, f, a, r, n, p⟩

/-- The command record of an operation; a field it does not use is 0 (log entry 6). -/
def Instr.fields (i : Instr) : Cmd := i.over ⟨0, 0, 0, 0, 0, 0, 0⟩

/-- Packing of a record into words, R81: `w0 = OP << 28 | BUS << 24 | FLAGS << 16 | ADDR`,
`w1 = REG << 16 | LEN`, `w2 = PTR`. -/
def pack (c : Cmd) : Cmd96 where
  w0 := c.op.setWidth 32 <<< 28 ||| (BitVec.ofNat 4 c.bus.val).setWidth 32 <<< 24 ||| c.flags.setWidth 32 <<< 16 ||| c.addr.setWidth 32
  w1 := c.reg.setWidth 32 <<< 16 ||| c.len.setWidth 32
  w2 := c.ptr

/-- The words of an operation. -/
def encode (i : Instr) : Cmd96 := pack i.fields

/-- The command whose 96 bits are `w`, bit 0 the least significant bit of `w0`, `w1` and `w2` counting on;
bits at and above `nbits` are 0, and `w2` has the 32 bits that the table gives it. -/
def cmdOfBits (nbits w : Nat) : Cmd96 :=
  let v := w % 2 ^ nbits
  ⟨BitVec.ofNat 32 v, BitVec.ofNat 32 (v / 2 ^ 32), v / 2 ^ 64 % 2 ^ 32⟩

/-- The instruction the decoder reads from the table's numbering of a command's bits. -/
def decodeTableWord (nbits w : Nat) : Option Instr :=
  match decode (cmdOfBits nbits w) with
  | .ok i => some i
  | .error _ => none

end Sys2Proof
end

