-- ==== Sys2Proof/Machine/State.lean ====
section
/-! DEFINITION. The state of the block (spec 10 R10: per bus the control registers, gate, pin lock, interrupt path,
sequencer, register-address buffer, wire engine and wire log; globally the staging buffer, its lock, memory and the
fault latch), the inputs of the world outside it, the reasons a step can stop, and the state after reset (70 R210). -/

namespace Sys2Proof.Machine

/-- The sequencer's control state (10 R13), the block's program counter. -/
inductive Phase where
  | uninit | idle | check | pinLock | stageLock | stageCopy | program | start | unmask | wait | poll | ack | classify
  | unstage | faulted
  deriving DecidableEq, Repr

/-- The success flag a transfer waits for (42 R130). -/
inductive Succ where
  | stopped | lastTx
  deriving DecidableEq, Repr

/-- The transfer outcomes (30 R78). -/
inductive Result where
  | ok | unsupported | addrNack | dataNack
  deriving DecidableEq, Repr

/-- The source `TXPTR` designates (10 R18, 20 R55). -/
inductive TxSource where
  | mem (a : Nat) | staging | regBuf
  deriving DecidableEq, Repr

/-- `EV[b]`, the latched event flags (10 R23). -/
structure Events where
  stopped : Bool
  lastTx  : Bool
  lastRx  : Bool
  error   : Bool
  deriving DecidableEq, Repr

/-- `INTEN[b]`, the interrupt-enable mask (10 R22). -/
structure IntEn where
  stopped : Bool
  lastTx  : Bool
  error   : Bool
  deriving DecidableEq, Repr

/-- `SHORTS[b]`, the event short-circuits (10 R21). -/
structure Shorts where
  lrxStop : Bool
  ltxSrx  : Bool
  ltxStop : Bool
  deriving DecidableEq, Repr

/-- `ERRSRC[b]`, the error-source register (10 R24). -/
structure ErrSrc where
  anack : Bool
  dnack : Bool
  deriving DecidableEq, Repr

/-- `GATE[b]` (10 R26): locked, no completion signal is pending; unlocked, signalled and not yet consumed. -/
inductive Gate where
  | locked | unlocked
  deriving DecidableEq, Repr

/-- `PINLOCK[b]` (10 R27): free, or held by a session, from `ACQUIRE` to `RELEASE` (20 R67). -/
inductive PinLock where
  | free | held
  deriving DecidableEq, Repr

/-- `SLOCK` (10 R31). -/
inductive SLock where
  | free | held (b : BusId)
  deriving DecidableEq, Repr

/-- The wire engine's phase (10 R33). -/
inductive WirePhase where
  | idle | held | txAddr | tx | txLast | rxAddr | rx
  deriving DecidableEq, Repr

/-- `WIRE[b]`, the wire engine's record (10 R33). -/
structure Wire where
  phase : WirePhase
  idx   : Nat
  held  : Bool
  deriving DecidableEq, Repr

/-- Transfer direction of an address phase (43 R152). -/
inductive Dir where
  | write | read
  deriving DecidableEq, Repr

/-- The slave's answer to an address or to a transmitted byte (43 R164); no answer yet is the stall. -/
inductive Answer where
  | ack | nack
  deriving DecidableEq, Repr

/-- The wire symbols of 43 R165: `S`, `Sr`, `A(a, dir)`, `D(d)`, `ack` and `nack`, `P`. -/
inductive WireSym where
  | start | restart | addr (a : Addr7) (d : Dir) | data (d : Byte) | answer (a : Answer) | stop
  deriving DecidableEq, Repr

/-- The sequencer record `SEQ[b]` (10 R11, R13). -/
structure Seq where
  phase  : Phase
  cmd    : Cmd
  staged : Bool
  succ   : Succ
  txn    : Byte
  res    : Result
  deriving DecidableEq, Repr

/-- `REGBUF[b][0 .. 1]` (10 R32). -/
structure RegBuf where
  b0 : Byte
  b1 : Byte
  deriving DecidableEq, Repr

/-- What belongs to one bus (10 R10). Three fields are not state of the block. `acks` and `rxData` are the answers its
slave will give to the draws of 43 R152, R153, R155 and of R157, oldest first; an empty list is a slave that stalls (R164).
`callers` are the requester threads blocked on this bus, from the presentation of their command to its return (00 R5). -/
structure Bus where
  enable  : Bool
  pselScl : Nat
  pselSda : Nat
  freq    : Nat
  address : Addr7
  txPtr   : TxSource
  txCnt   : Byte
  txAmt   : Byte
  rxPtr   : Nat
  rxCnt   : Byte
  shorts  : Shorts
  inten   : IntEn
  ev      : Events
  errSrc  : ErrSrc
  gate    : Gate
  pinLock : PinLock
  irqEn   : Bool
  seq     : Seq
  result  : Byte
  regBuf  : RegBuf
  wire    : Wire
  wlog    : List WireSym
  acks    : List Answer
  rxData  : List Byte
  callers : List Nat
  deriving DecidableEq, Repr

/-- The contract checks of 41 R101, in the table's order. -/
inductive ContractCheck where
  | badBus | nullBuffer | zeroLength | overLength | rangeWraps | rxNotAddressable | busy
  deriving DecidableEq, Repr

/-- What the `FAULT` latch records: the violated check and the `BUS` of the command (60 R184). -/
structure FaultInfo where
  check : ContractCheck
  bus   : BusId
  deriving DecidableEq, Repr

/-- The pin modes of the external pin contract (00 R8). -/
inductive PinMode where
  | inputOpenDrainPullUp | output | input | outputOpenDrain
  deriving DecidableEq, Repr

/-- The calls the block makes on external collaborators (00 R8, R9), recorded and given no further meaning. -/
inductive ExtCall where
  | pinConfigure (pin : Nat) (mode : PinMode)
  | registerIsr (peripheral : Nat) (context : BusId)
  deriving DecidableEq, Repr

/-- One turn of one agent (00 R5): requester thread `k` presents its next command, the sequencer, wire engine or handler of
a bus steps, the other protocol role of a bus acts (40 R94) or writes the pin lock (93 U9), thread `k` stores a byte in its own memory (10 R38). -/
inductive Turn where
  | requester (k : Nat)
  | seq (b : BusId)
  | wire (b : BusId)
  | isr (b : BusId)
  | otherConfigure (b : BusId) (scl sda freq : Nat)
  | otherPinLock (b : BusId) (l : PinLock)
  | store (k : Nat) (a : Nat) (v : Byte)
  deriving DecidableEq, Repr

/-- `MEM` (10 R36): address and byte, addresses rising, no entry equal to what an unlisted address reads as. -/
abbrev Memory := List Host.Cell

/-- The whole state. `cfg` is the configuration, which no step writes; `requests` (for each requester thread the commands it
has yet to present, oldest first) and `sched` (whose turn is next, oldest first) are inputs; `draws` counts the free values
used. -/
structure State where
  cfg      : Config
  buses    : Vector Bus 16
  staging  : List Byte
  slock    : SLock
  mem      : Memory
  fault    : Option FaultInfo
  requests : List (List Cmd96)
  sched    : List Turn
  extCalls : List ExtCall
  draws    : Nat
  deriving DecidableEq, Repr

/-- Why a step stops with a fault: an index or address that does not exist. All are safe (the model stops), and the
first two are raised only in states that no run from `INIT` reaches (20 R69). -/
inductive Fault where
  /-- Raised by the staging copy or by the wire engine: an index at or above `STAGING_CAP` (10 R30). Safe. -/
  | stagingIndex
  /-- Raised by the wire engine: an index above 1 into the two bytes of `REGBUF[b]` (10 R32). Safe. -/
  | regBufIndex
  /-- Raised by a requester's store to an address that `ADDR_W` bits cannot name (20 R50). Safe. -/
  | noSuchAddress
  deriving DecidableEq, Repr

/-- Why a step has no meaning. All but the first are the cases the spec itself calls unspecified, with the treatment
"refuse" (93 section 1); all are safe. -/
inductive Refusal where
  /-- An instruction of the table that has no meaning in this model. Raised by no arm. Safe. -/
  | notModelled (mnemonic : String)
  /-- Raised by the requester's turn and by every transfer meaning on a reserved encoding (30 R79, U8). Safe. -/
  | reservedEncoding (e : Reject)
  /-- Raised by `INIT` on a bus that is not in `P_UNINIT` (40 R90, U1). Safe. -/
  | secondInit
  /-- Raised by `RELEASE` while the bus is held (40 R92, U2). Safe. -/
  | releaseWhileHeld
  /-- Raised by a start task while a transfer runs (43 R168, U3). Safe. -/
  | startWhileRunning
  /-- Raised by a start task with a count of 0, or by a wire step at or past its count (43 R168, U4). Safe. -/
  | zeroCount
  /-- Raised at the last transmitted byte with both `LTX_SRX` and `LTX_STOP` set (43 R168, U5). Safe. -/
  | bothShorts
  /-- Raised at the last received byte with `LRX_STOP` clear (43 R157, R168, U6). Safe. -/
  | receiveWithoutStop
  /-- Raised by the turn of the other protocol role that writes `PINLOCK[b]`, a lock it does not own (10 R38, U9). Safe. -/
  | notOwner
  /-- Raised by the register view on an access no rule gives: a write to a read-only register, a code of no meaning,
  an offset that names no register (10 R37, R38, U9). Safe. -/
  | registerAccess
  deriving DecidableEq, Repr

/-- The answer of a meaning and of a step. -/
abbrev Res := Host.Outcome State Fault Refusal

/-- A bus before `INIT`. Only `phase`, `staged`, `irqEn` and `wlog` are the spec's (70 R210); every other value is
DESIGN CHOICE (log entry 1), since R210 says "unspecified". -/
def Bus.reset : Bus where
  enable := false
  pselScl := 0
  pselSda := 0
  freq := 0
  address := 0
  txPtr := .mem 0
  txCnt := 0
  txAmt := 0
  rxPtr := 0
  rxCnt := 0
  shorts := ⟨false, false, false⟩
  inten := ⟨false, false, false⟩
  ev := ⟨false, false, false, false⟩
  errSrc := ⟨false, false⟩
  gate := .locked
  pinLock := .free
  irqEn := false
  seq := ⟨.uninit, ⟨0, 0, 0, 0, 0, 0, 0⟩, false, .stopped, 0, .ok⟩
  result := 0
  regBuf := ⟨0, 0⟩
  wire := ⟨.idle, 0, false⟩
  wlog := []
  acks := []
  rxData := []
  callers := []

/-- The state after power-on reset, before any `INIT` (70 R210): `SLOCK` free, `FAULT` clear, no interrupt path;
memory lists nothing, there is no requester and no turn is scheduled. -/
def State.reset : State where
  cfg := Config.tc
  buses := Vector.replicate 16 Bus.reset
  staging := List.replicate Config.stagingCap 0
  slock := .free
  mem := []
  fault := none
  requests := []
  sched := []
  extCalls := []
  draws := 0

end Sys2Proof.Machine
end

