-- ==== Sys2Proof/Machine/Ops.lean ====
section
/-! DEFINITION. The named operations over memory, the staging buffer, the buses, the locks and the gate (spec 10, 20),
acceptance of a command (30 R70), taking a contract violation (60 R184) and returning a result (00 section 6). -/

namespace Sys2Proof.Machine

/-- What a byte of `MEM` that the list does not hold reads as. DESIGN CHOICE (log entry 3). -/
def Memory.unlisted : Byte := 0

/-- One byte of `MEM`. -/
def Memory.read : Memory → Nat → Byte
  | [], _ => Memory.unlisted
  | c :: m, a => if a = c.1 then c.2 else Memory.read m a

/-- Stores one byte, keeping the canonical form. -/
def Memory.write : Memory → Nat → Byte → Memory
  | [], a, v => if v = Memory.unlisted then [] else [(a, v)]
  | c :: m, a, v =>
    if a < c.1 then (if v = Memory.unlisted then c :: m else (a, v) :: c :: m)
    else if a = c.1 then (if v = Memory.unlisted then m else (a, v) :: m)
    else c :: Memory.write m a v

/-- The canonical form: addresses strictly rising, no entry equal to what an unlisted address reads as. -/
def Memory.wf : Memory → Bool
  | [] => true
  | c :: m => c.2 != Memory.unlisted && m.all (fun d => decide (c.1 < d.1)) && Memory.wf m

/-- `PTR + i`, computed in `ADDR_W` bits (20 R69). -/
def Config.byteAddr (c : Config) (p : Nat) (i : Nat) : Nat := (p + i) % 2 ^ c.addrW

/-- `DmaAddressable(a)` (20 R51). -/
def Config.dmaAddressable (c : Config) (a : Nat) : Bool := c.dma.any (fun r => r.1 ≤ a && a ≤ r.2)

/-- A range `[p, p+n)` is directly addressable when every byte of it is (20 R51). -/
def Config.directlyAddressable (c : Config) (p : Nat) (n : Nat) : Bool :=
  (List.range n).all (fun i => Config.dmaAddressable c (Config.byteAddr c p i))

/-- `MemRead(p, n)`, lowest address first (00 section 6, 20 R53). -/
def State.memBytes (s : State) (p : Nat) (n : Nat) : List Byte :=
  (List.range n).map (fun i => Memory.read s.mem (Config.byteAddr s.cfg p i))

/-- The state of bus `b`. -/
def State.bus (s : State) (b : BusId) : Bus := s.buses[b.val]

/-- Writes the state of bus `b`. -/
def State.setBus (s : State) (b : BusId) (x : Bus) : State := { s with buses := s.buses.set b.val x b.isLt }

/-- Changes the state of bus `b`. -/
def State.updBus (s : State) (b : BusId) (f : Bus → Bus) : State := s.setBus b (f (s.bus b))

/-- Bus `b` is one of the `NBUS` instances (30 R77). -/
def State.hasBus (s : State) (b : BusId) : Bool := b.val < s.cfg.nbus

/-- `DESC[b]` (00 R7). -/
def State.desc (s : State) (b : BusId) : Desc := s.cfg.desc[b.val]

/-- `SEQ[b].phase <- p` (00 section 6). -/
def Bus.toPhase (x : Bus) (p : Phase) : Bus := { x with seq := { x.seq with phase := p } }

/-- `SEQ[b].phase <- p`, on the state. -/
def State.toPhase (s : State) (b : BusId) (p : Phase) : State := s.updBus b (fun x => x.toPhase p)

/-- Result codes (30 R78). -/
def Result.code : Result → Byte
  | .ok => 0
  | .unsupported => 1
  | .addrNack => 2
  | .dataNack => 3

/-- `return r` on a bus: `RESULT[b] <- r`, sequencer to `P_IDLE`, requester unblocked (00 section 6). -/
def Bus.ret (x : Bus) (r : Result) : Bus := { x.toPhase .idle with result := r.code, callers := [] }

/-- `return r`. -/
def State.ret (s : State) (b : BusId) (r : Result) : State := s.updBus b (fun x => x.ret r)

/-- `raise ContractViolation((check, b))`, 60 R184: the sticky latch is set, the sequencer of an existing bus stops for
good; nothing else is written. The block's one exception entry; it has no return (70 R210: never cleared). -/
def State.raise (s : State) (c : ContractCheck) (b : BusId) : State :=
  let t := { s with fault := some ⟨c, b⟩ }
  if s.hasBus b then t.toPhase b .faulted else t

/-- The sequencer latches the operands that the operation uses, all at once (30 R70, 10 R11, 20 R68). The fields it does not
use were latched with the presented record (`Bus.called`). -/
def Bus.latch (x : Bus) (i : Instr) : Bus := { x with seq := { x.seq with cmd := i.over x.seq.cmd } }

/-- Requester `k` has presented a command: it is blocked on the bus (00 R5), and a sequencer that accepts the command latches
the whole record (30 R70). -/
def Bus.called (x : Bus) (k : Nat) (accepted : Bool) (c : Cmd) : Bus :=
  { x with callers := k :: x.callers, seq := { x.seq with cmd := if accepted then c else x.seq.cmd } }

/-- `wait(GATE[b])` consumes the signal (20 R65). -/
def Bus.lockGate (x : Bus) : Bus := { x with gate := .locked }

/-- `signal(GATE[b])` (20 R65): whatever the previous value, one permit. -/
def Bus.signalGate (x : Bus) : Bus := { x with gate := .unlocked }

/-- `lock(SLOCK)` by the sequencer of bus `b`, on a free lock (20 R66, 41 R104). -/
def State.takeSLock (s : State) (b : BusId) : State :=
  { s.updBus b (fun x => { x with seq := { x.seq with staged := true } }) with slock := .held b }

/-- `unlock(SLOCK)` by the holder (20 R66, 41 R112). -/
def State.dropSLock (s : State) (b : BusId) : State :=
  { s.updBus b (fun x => { x with seq := { x.seq with staged := false } }) with slock := .free }

/-- Writes a frame to `STAGING[0 ..]`, leaving the bytes after it (41 R105, R106); no frame longer than `STAGING_CAP`. -/
def State.fillStaging (s : State) (frame : List Byte) : Except Fault State :=
  if frame.length ≤ Config.stagingCap then .ok { s with staging := frame ++ s.staging.drop frame.length }
  else .error .stagingIndex

/-- Appends symbols to `WLOG[b]` (`emit`, 43 R165). -/
def Bus.emit (x : Bus) (syms : List WireSym) : Bus := { x with wlog := x.wlog ++ syms }

/-- The three registers that `INIT` and `ACQUIRE` write from the descriptor (10 R15, R16). -/
def Bus.programPins (x : Bus) (d : Desc) : Bus := { x with pselScl := d.sclPin, pselSda := d.sdaPin, freq := d.speed }

end Sys2Proof.Machine
end

