-- ==== Sys2Proof/Machine/Operands.lean ====
section
/-! DEFINITION. The operand forms: register-address bytes (30 R74), the target address, the payload frame of a staged
write (41 R105, R106), and the byte a transmit source supplies (20 R55). -/

namespace Sys2Proof.Machine

/-- `FLAGS.REG16` (30 R72). -/
def flagReg16 (f : Byte) : Bool := f.getLsbD 1

/-- `FLAGS.NOSTOP` (30 R72). -/
def flagNoStop (f : Byte) : Bool := f.getLsbD 2

/-- `ADDR[6:0]`, the value put in `ADDRESS[b]` (30 R73). -/
def targetAddr (a : Half) : Addr7 := a.extractLsb' 0 7

/-- `REG[15:8]`. -/
def regHigh (r : Half) : Byte := r.extractLsb' 8 8

/-- `REG[7:0]`. -/
def regLow (r : Half) : Byte := r.extractLsb' 0 8

/-- The register bytes in wire order: high byte first in the 2-byte form, the low byte alone otherwise (20 R52, 30 R74). -/
def regBytes (f : Byte) (r : Half) : List Byte := if flagReg16 f then [regHigh r, regLow r] else [regLow r]

/-- `r`, the number of register bytes (30 R74). -/
def regCount (f : Byte) : Nat := if flagReg16 f then 2 else 1

/-- `REGBUF[b]` as `READ_REG` fills it: the 1-byte form leaves byte 1 alone (41 R108). -/
def RegBuf.fill (x : RegBuf) (f : Byte) (r : Half) : RegBuf :=
  if flagReg16 f then ⟨regHigh r, regLow r⟩ else ⟨regLow r, x.b1⟩

/-- `REGBUF[b][i]`, two bytes (10 R32). -/
def RegBuf.byte (x : RegBuf) : Nat → Except Fault Byte
  | 0 => .ok x.b0
  | 1 => .ok x.b1
  | _ => .error .regBufIndex

/-- `STAGING[i]` (10 R30). -/
def State.stagingByte (s : State) (i : Nat) : Except Fault Byte :=
  match s.staging[i]? with
  | some v => .ok v
  | none => .error .stagingIndex

/-- `TxByte(b, i)` for a source: the caller's buffer, the staging buffer or the register buffer (20 R55). -/
def State.txByte (s : State) (b : BusId) (i : Nat) : Except Fault Byte :=
  match (s.bus b).txPtr with
  | .mem p => .ok (Memory.read s.mem (Config.byteAddr s.cfg p i))
  | .staging => s.stagingByte i
  | .regBuf => (s.bus b).regBuf.byte i

/-- The staging decision of `WRITE`: exactly when the source is not directly addressable (41 R104). -/
def writeStages (c : Config) (p : Nat) (n : Half) : Bool := !Config.directlyAddressable c p n.toNat

end Sys2Proof.Machine
end

