-- ==== Sys2Proof/Machine/Flags.lean ====
section
/-! DEFINITION. The conditions the sequencer and the interrupt path compute: contract checks (41 R101), flag checks
(41 R102), the interrupt condition (10 R29), the poll condition (42 R133), the classification of an outcome (42 R135). -/

namespace Sys2Proof.Machine

/-- The reject mask of `WRITE` and `WRITE_REG`: `NOSTART | ADDR10` (41 R102). -/
def writeRejects : Byte := 0x09

/-- The reject mask of `READ` and `READ_REG`: `NOSTART | ADDR10 | NOSTOP` (41 R102). -/
def readRejects : Byte := 0x0D

/-- A set bit in the operation's reject mask (41 R102). -/
def rejected (mask f : Byte) : Bool := f &&& mask ≠ 0

/-- The contract checks on a transfer's operands, first failing row of the table first (41 R101); `rx` says that the
buffer is a destination. -/
def operandViolation (c : Config) (lenMax : Nat) (rx : Bool) (len : Half) (ptr : Nat) : Option ContractCheck :=
  if ptr = 0 then some .nullBuffer
  else if len = 0 then some .zeroLength
  else if lenMax < len.toNat then some .overLength
  else if 2 ^ c.addrW < ptr + len.toNat then some .rangeWraps
  else if rx && !Config.directlyAddressable c ptr len.toNat then some .rxNotAddressable
  else none

/-- The contract checks of an operation that its operands decide (41 R101); the lifecycle operations have none. -/
def violation (c : Config) : Instr → Option ContractCheck
  | .init _ | .acquire _ | .release _ => none
  | .write _ _ _ n p => operandViolation c Config.lenMax false n p
  | .writeReg _ _ _ _ n p => operandViolation c Config.lenMaxWreg false n p
  | .read _ _ _ n p => operandViolation c Config.lenMax true n p
  | .readReg _ _ _ _ n p => operandViolation c Config.lenMax true n p

/-- What the latch names for a command presented to a sequencer that cannot accept it: the first failing row of the
table, whose last row is `busy` (41 R101, R113, 70 R212). -/
def busyViolation (c : Config) (i : Instr) : ContractCheck := (violation c i).getD .busy

/-- `IRQ(b)`, a function of state, level-sensitive (10 R29). -/
def Bus.irq (x : Bus) : Bool :=
  (x.ev.stopped && x.inten.stopped) || (x.ev.lastTx && x.inten.lastTx) || (x.ev.error && x.inten.error)

/-- The poll condition of finish step 3 (42 R133). -/
def Bus.pollDone (x : Bus) : Bool := x.ev.error || x.txAmt == x.seq.txn

/-- Finish step 5: an address NACK before a data NACK before success (42 R135). -/
def ErrSrc.classify (e : ErrSrc) : Result :=
  if e.anack then .addrNack else if e.dnack then .dataNack else .ok

/-- Finish step 1 sets the success flag's bit and `ERROR`, in one register write (42 R131). -/
def IntEn.unmask (m : IntEn) : Succ → IntEn
  | .stopped => { m with stopped := true, error := true }
  | .lastTx => { m with lastTx := true, error := true }

/-- All three sources masked (60 R187). -/
def IntEn.none : IntEn := ⟨false, false, false⟩

/-- No event latched. -/
def Events.none : Events := ⟨false, false, false, false⟩

/-- No error latched. -/
def ErrSrc.none : ErrSrc := ⟨false, false⟩

/-- No short armed. -/
def Shorts.none : Shorts := ⟨false, false, false⟩

/-- `{LTX_STOP}`, `{LRX_STOP}`, `{LTX_SRX, LRX_STOP}`: the rows of the dispatch table (30 R82). -/
def Shorts.ltxStopOnly : Shorts := ⟨false, false, true⟩

/-- `{LRX_STOP}` (30 R82). -/
def Shorts.lrxStopOnly : Shorts := ⟨true, false, false⟩

/-- `{LTX_SRX, LRX_STOP}` (30 R82). -/
def Shorts.writeThenRead : Shorts := ⟨true, true, false⟩

end Sys2Proof.Machine
end

