-- ==== Sys2Proof/Machine/Lifecycle.lean ====
section
/-! DEFINITION. The lifecycle operations `INIT`, `ACQUIRE`, `RELEASE` (spec 40). Each meaning is the step the sequencer
of the operation's bus takes in the phase it is in: acceptance, or the rest of the operation after a blocking phase. -/

namespace Sys2Proof.Machine

/-- The first check of every operation: a command on a bus that does not exist is `bad_bus` (41 R101, 30 R77);
a reserved encoding has no meaning (30 R79). -/
def entry (i : Instr) (s : State) (run : Res) : Res :=
  match i.reject? with
  | some e => .refused (.reservedEncoding e)
  | none => if s.hasBus i.bus then run else .next (s.raise .badBus i.bus)

/-- A command presented to a sequencer that cannot accept it (41 R113, 70 R212). -/
def busyStep (i : Instr) (s : State) : Res := .next (s.raise (busyViolation s.cfg i) i.bus)

/-- The registers of a bus after `INIT` (40 R90), before its return; `acks` and `rxData` are the slave's, not the block's. -/
def Bus.initialised (x : Bus) (d : Desc) : Bus :=
  Bus.programPins
    { x with
      enable := false, shorts := Shorts.none, inten := IntEn.none, ev := Events.none, errSrc := ErrSrc.none,
      gate := .locked, pinLock := if d.sharesPins then .free else x.pinLock,
      irqEn := true, wire := ⟨.idle, 0, false⟩, wlog := [] } d

/-- The external calls of `INIT`, in order (40 R90; 00 R8, R9). -/
def initCalls (b : BusId) (d : Desc) : List ExtCall :=
  [.pinConfigure d.sclPin .inputOpenDrainPullUp, .pinConfigure d.sdaPin .inputOpenDrainPullUp,
   .registerIsr d.peripheralId b]

/-- `INIT` (40 R90): one atomic step, accepted in `P_UNINIT` only; a second `init` is refused (93 U1). -/
def execInit (b : BusId) (s : State) : Res :=
  entry (.init b) s <|
    match (s.bus b).seq.phase with
    | .uninit =>
      let t := s.updBus b (fun x => (x.initialised (s.desc b)).ret .ok)
      .next { t with extCalls := s.extCalls ++ initCalls b (s.desc b) }
    | .idle | .check | .pinLock | .stageLock | .stageCopy | .program | .start | .unmask | .wait | .poll | .ack | .classify
    | .unstage | .faulted => .refused .secondInit

/-- The registers of a bus after `ACQUIRE`: pin-select and frequency rewritten, then enabled (40 R91). -/
def Bus.acquired (x : Bus) (d : Desc) : Bus := { x.programPins d with enable := true }

/-- `ACQUIRE` (40 R91): on a bus that shares pins it first takes the pin lock, blocking in `P_PINLOCK` while it is held
(20 R67). -/
def execAcquire (b : BusId) (s : State) : Res :=
  entry (.acquire b) s <|
    match (s.bus b).seq.phase with
    | .uninit => busyStep (.acquire b) s
    | .idle =>
      if (s.desc b).sharesPins then .next (s.updBus b (fun x => (x.latch (.acquire b)).toPhase .pinLock))
      else .next (s.updBus b (fun x => ((x.latch (.acquire b)).acquired (s.desc b)).ret .ok))
    | .pinLock =>
      if (s.bus b).pinLock = .free then
        .next (s.updBus b (fun x => ({ x with pinLock := .held }.acquired (s.desc b)).ret .ok))
      else .next s
    | .check | .stageLock | .stageCopy | .program | .start | .unmask | .wait | .poll | .ack | .classify | .unstage
    | .faulted => .next s

/-- The registers of a bus after `RELEASE`: disabled, the pin lock released if held (40 R92). -/
def Bus.released (x : Bus) (d : Desc) : Bus :=
  { x with enable := false, pinLock := if d.sharesPins && x.pinLock == .held then .free else x.pinLock }

/-- `RELEASE` (40 R92): one atomic step; refused while the bus is held (93 U2). -/
def execRelease (b : BusId) (s : State) : Res :=
  entry (.release b) s <|
    match (s.bus b).seq.phase with
    | .uninit => busyStep (.release b) s
    | .idle =>
      if (s.bus b).wire.held then .refused .releaseWhileHeld
      else .next (s.updBus b (fun x => ((x.latch (.release b)).released (s.desc b)).ret .ok))
    | .check | .pinLock | .stageLock | .stageCopy | .program | .start | .unmask | .wait | .poll | .ack | .classify
    | .unstage | .faulted => .next s

end Sys2Proof.Machine
end

