-- ==== Sys2Proof/Machine/Finish.lean ====
section
/-! DEFINITION. `FINISH`, the second half of every transfer (spec 42), one atomic step per phase, and the release of the
staging lock after it (41 R112). A turn in a phase whose condition does not hold changes nothing: the thread is blocked. -/

namespace Sys2Proof.Machine

/-- Step 1, `P_UNMASK` (42 R131). -/
def Bus.unmask (x : Bus) : Bus := { x.toPhase .wait with inten := x.inten.unmask x.seq.succ }

/-- Step 2, `P_WAIT`, on an unlocked gate (42 R132), which it locks again. -/
def Bus.wake (x : Bus) : Bus := x.lockGate.toPhase (if x.seq.succ = .lastTx then .poll else .ack)

/-- Step 4, `P_ACK` (42 R134). -/
def Bus.ackStopped (x : Bus) : Bus := { x.toPhase .classify with ev := { x.ev with stopped := false } }

/-- The clears and the result of step 5, `P_CLASSIFY` (42 R135). -/
def Bus.classified (x : Bus) : Bus :=
  { x with errSrc := ErrSrc.none, ev := { x.ev with error := false }, seq := { x.seq with res := x.errSrc.classify } }

/-- Step 5, then the return, or `P_UNSTAGE` when this command holds `SLOCK` (41 R100, R112). -/
def Bus.finishClassify (x : Bus) : Bus :=
  if x.seq.staged then x.classified.toPhase .unstage else x.classified.ret x.errSrc.classify

/-- `P_UNSTAGE`: the staging lock is released and the result returned (41 R112). -/
def unstageStep (b : BusId) (s : State) : Res := .next ((s.dropSLock b).ret b (s.bus b).seq.res)

/-- `P_WAIT` has a step: the gate is signalled and the bus is enabled. On a disabled bus, where a stale `EV.LASTTX` may have
had the handler signal the gate, a transfer stays blocked for ever (40 R93, 60 R199, 93 U15; log entry 19). -/
def Bus.waitDone (x : Bus) : Bool := x.enable && x.gate == .unlocked

/-- The five steps of `FINISH`; the sequencer has no step here in any other phase. -/
def finishStep (b : BusId) (s : State) : Res :=
  let x := s.bus b
  match x.seq.phase with
  | .unmask => .next (s.updBus b Bus.unmask)
  | .wait => if x.waitDone then .next (s.updBus b Bus.wake) else .next s
  | .poll => if x.pollDone then .next (s.toPhase b .ack) else .next s
  | .ack => .next (s.updBus b Bus.ackStopped)
  | .classify => .next (s.updBus b Bus.finishClassify)
  | .uninit | .idle | .check | .pinLock | .stageLock | .stageCopy | .program | .start | .unstage | .faulted => .next s

end Sys2Proof.Machine
end

