-- ==== Sys2Proof/Machine/Wire.lean ====
section
/-! DEFINITION. The wire engine (spec 43): the tasks, the five kinds of step, the NACK rule, and the bit-level facts of
43 R166, R167 as functions of the wire log's symbols. -/

namespace Sys2Proof.Machine

/-- Nothing runs on the wire: `W_IDLE` or `W_HELD`. -/
def Wire.atRest (w : Wire) : Bool := w.phase == .idle || w.phase == .held

/-- Task `T_STARTTX` (43 R151), with no effect while disabled (R150); `TXAMT` is zeroed unless the configuration
switch of 70 R223 is off; the cases of R168 are refused. -/
def startTx (c : Config) (x : Bus) : Except Refusal Bus :=
  if !x.enable then .ok x
  else if !x.wire.atRest then .error .startWhileRunning
  else if x.txCnt = 0 then .error .zeroCount
  else .ok { x with txAmt := if c.txAmtZeroed then 0 else x.txAmt, wire := { x.wire with phase := .txAddr, idx := 0 } }

/-- Task `T_STARTRX` (43 R156), with no effect while disabled (R150). -/
def startRx (x : Bus) : Except Refusal Bus :=
  if !x.enable then .ok x
  else if !x.wire.atRest then .error .startWhileRunning
  else if x.rxCnt = 0 then .error .zeroCount
  else .ok { x with wire := { x.wire with phase := .rxAddr, idx := 0 } }

/-- Task `T_STOP`, the procedure `STOP(b)` (43 R159). -/
def Bus.stop (x : Bus) : Bus :=
  { x.emit [.stop] with ev := { x.ev with stopped := true }, wire := ⟨.idle, 0, false⟩ }

/-- The transfer ends and the bus stays held (43 R160, R163). -/
def Bus.hold (x : Bus) : Bus := { x with wire := { x.wire with phase := .held, idx := 0 } }

/-- The two error kinds (43 R160). -/
inductive NackKind where
  | anack | dnack
  deriving DecidableEq, Repr

/-- `ERRSRC[b].<kind> <- 1 ; EV[b].ERROR <- 1`. -/
def Bus.markError (x : Bus) (k : NackKind) : Bus :=
  { x with
    errSrc := match k with
      | .anack => { x.errSrc with anack := true }
      | .dnack => { x.errSrc with dnack := true }
    ev := { x.ev with error := true } }

/-- `NACK(b, kind)` (43 R160): the error is latched, and by `NACK_STOP` the bus is stopped or stays held; under
`either` a free value decides (93 U12, log entry 8). -/
def State.nack (s : State) (b : BusId) (k : NackKind) : State :=
  let t := s.updBus b (fun x => x.markError k)
  match s.cfg.nackStop with
  | .stop => t.updBus b Bus.stop
  | .hold => t.updBus b Bus.hold
  | .either =>
    { t.updBus b (fun x => if Config.freeBit s.draws then x.stop else x.hold) with draws := s.draws + 1 }

/-- A data NACK of byte `i`: `TXAMT` is `i` or `i + 1`, a free value (43 R153, R155; 93 U10), then R160. -/
def State.dataNack (s : State) (b : BusId) (i : Nat) : State :=
  let amt : Byte := BitVec.ofNat 8 (if Config.freeBit s.draws then i else i + 1)
  State.nack { s.updBus b (fun x => { x with txAmt := amt }) with draws := s.draws + 1 } b .dnack

/-- The direction of the address phase in progress (43 R152). -/
def Wire.dir (w : Wire) : Dir := if w.phase = .txAddr then .write else .read

/-- The symbols of an address phase before the answer: a start, repeated when one is outstanding, and the address. -/
def Bus.addressSyms (x : Bus) : List WireSym :=
  [if x.wire.held then .restart else .start, .addr x.address x.wire.dir]

/-- Step *address phase* (43 R152); with no answer of the slave it is not enabled (R164). -/
def addressStep (b : BusId) (s : State) : Res :=
  let x := s.bus b
  match x.acks with
  | [] => .next s
  | a :: rest =>
    let y := { x.emit (x.addressSyms ++ [.answer a]) with acks := rest, wire := { x.wire with held := true } }
    match a with
    | .ack => .next (s.setBus b { y with wire := { y.wire with phase := if x.wire.phase = .txAddr then .tx else .rx } })
    | .nack => .next ((s.setBus b y).nack b .anack)

/-- A byte and the slave's answer are put in the log, and the answer is used up. -/
def Bus.sendByte (x : Bus) (d : Byte) (a : Answer) (rest : List Answer) : Bus :=
  { x.emit [.data d, .answer a] with acks := rest }

/-- Step *transmit byte*, not the last (43 R153). -/
def txByteStep (b : BusId) (s : State) : Res :=
  let x := s.bus b
  match x.acks with
  | [] => .next s
  | a :: rest =>
    match s.txByte b x.wire.idx with
    | .error e => .fault e
    | .ok d =>
      let y := x.sendByte d a rest
      match a with
      | .ack => .next (s.setBus b { y with txAmt := BitVec.ofNat 8 (x.wire.idx + 1), wire := { x.wire with idx := x.wire.idx + 1 } })
      | .nack => .next ((s.setBus b y).dataNack b x.wire.idx)

/-- Step *last transmit byte begins* (43 R154): nothing is put on the wire. -/
def lastBegins (b : BusId) (s : State) : Res :=
  .next (s.updBus b (fun x => { x with ev := { x.ev with lastTx := true }, wire := { x.wire with phase := .txLast } }))

/-- What the shorts of the last transmitted byte do once it is acknowledged (43 R155, R162): start-RX, stop, or the
bus stays held with `idx` as it was. -/
def Bus.afterTransmit (x : Bus) : Except Refusal Bus :=
  if x.shorts.ltxSrx && x.shorts.ltxStop then .error .bothShorts
  else if x.shorts.ltxSrx then
    if x.rxCnt = 0 then .error .zeroCount else .ok { x with wire := { x.wire with phase := .rxAddr, idx := 0 } }
  else if x.shorts.ltxStop then .ok x.stop
  else .ok { x with wire := { x.wire with phase := .held } }

/-- Step *last transmit byte ends* (43 R155). -/
def lastEnds (b : BusId) (s : State) : Res :=
  let x := s.bus b
  match x.acks with
  | [] => .next s
  | a :: rest =>
    if x.txCnt = 0 then .refused .zeroCount
    else match s.txByte b (x.txCnt.toNat - 1) with
    | .error e => .fault e
    | .ok d =>
      let y := x.sendByte d a rest
      match a with
      | .nack => .next ((s.setBus b y).dataNack b (x.txCnt.toNat - 1))
      | .ack =>
        match Bus.afterTransmit { y with txAmt := x.txCnt } with
        | .ok z => .next (s.setBus b z)
        | .error r => .refused r

/-- A received byte is stored and logged, and the slave's byte is used up (43 R157). -/
def State.storeReceived (s : State) (b : BusId) (d : Byte) (rest : List Byte) : State :=
  let x := s.bus b
  let y := { x.emit [.data d] with rxData := rest, wire := { x.wire with idx := x.wire.idx + 1 } }
  { s.setBus b y with mem := Memory.write s.mem (Config.byteAddr s.cfg x.rxPtr x.wire.idx) d }

/-- Step *receive byte* (43 R157), the last one followed by the event and the short (R158, R162). -/
def rxStep (b : BusId) (s : State) : Res :=
  let x := s.bus b
  match x.rxData with
  | [] => .next s
  | d :: rest =>
    if x.wire.idx + 1 < x.rxCnt.toNat then .next (s.storeReceived b d rest)
    else if x.wire.idx + 1 = x.rxCnt.toNat then
      if x.shorts.lrxStop then
        .next ((s.storeReceived b d rest).updBus b (fun y => Bus.stop { y with ev := { y.ev with lastRx := true } }))
      else .refused .receiveWithoutStop
    else .refused .zeroCount

/-- One turn of `WIRE[b]`: no step while disabled (43 R150), at rest (R163) or while the slave stalls (R164). -/
def wireStep (b : BusId) (s : State) : Res :=
  let x := s.bus b
  if !(s.hasBus b && x.enable) then .next s
  else match x.wire.phase with
  | .idle | .held => .next s
  | .txAddr | .rxAddr => addressStep b s
  | .tx =>
    if x.wire.idx + 1 < x.txCnt.toNat then txByteStep b s
    else if x.wire.idx + 1 = x.txCnt.toNat then lastBegins b s
    else .refused .zeroCount
  | .txLast => lastEnds b s
  | .rx => rxStep b s

/-- The "transmitted byte stream" of a log (43 R165): the `D(d)` symbols between an `A(a, W)` and the next `Sr`, `P` or
the end of the log; `on` says whether such a span is open. -/
def txStream (on : Bool) : List WireSym → List Byte
  | [] => []
  | .addr _ .write :: l => txStream true l
  | .addr _ .read :: l => txStream false l
  | .restart :: l => txStream false l
  | .stop :: l => txStream false l
  | .data d :: l => if on then d :: txStream on l else txStream on l
  | .start :: l => txStream on l
  | .answer _ :: l => txStream on l

/-- The byte of an address phase on the physical wire: the address above the direction bit, 0 for write (43 R166; the
spec marks it general knowledge, and nothing rests on it). -/
def addressByte (a : Addr7) (d : Dir) : Byte :=
  a.setWidth 8 <<< 1 ||| (match d with | .write => 0 | .read => 1)

/-- The acknowledge the master gives received byte `i` of `n`: every byte but the last (43 R167; general knowledge). -/
def masterAck (i n : Nat) : Answer := if i + 1 < n then .ack else .nack

end Sys2Proof.Machine
end

