-- ==== Sys2Proof/Machine/Transfers.lean ====
section
/-! DEFINITION. The transfer operations `WRITE`, `WRITE_REG`, `READ`, `READ_REG` (spec 41). Each meaning is the step the
sequencer of the operation's bus takes in the phase it is in (10 R13, 41 R100): acceptance in `P_IDLE`, then check, staging,
programming, start, and `FINISH`; the dispatch table is 30 R82. -/

namespace Sys2Proof.Machine

/-- Acceptance in `P_IDLE`: all operands are latched (30 R70, 20 R68). -/
def acceptStep (i : Instr) (s : State) : Res := .next (s.updBus i.bus (fun x => (x.latch i).toPhase .check))

/-- `P_CHECK`, one atomic step: contract checks, then flag checks, then the staging decision (41 R100 to R104). -/
def checkStep (i : Instr) (mask flags : Byte) (stages : Bool) (s : State) : Res :=
  match violation s.cfg i with
  | some c => .next (s.raise c i.bus)
  | none =>
    if rejected mask flags then .next (s.ret i.bus .unsupported)
    else .next (s.toPhase i.bus (if stages then .stageLock else .program))

/-- `P_STAGE_LOCK`: blocks while another sequencer holds `SLOCK` (20 R66, 41 R104). -/
def stageLockStep (b : BusId) (s : State) : Res :=
  match s.slock with
  | .free => .next ((s.takeSLock b).toPhase b .stageCopy)
  | .held _ => .next s

/-- `P_STAGE_COPY`: the frame goes to the head of the staging buffer (41 R105, R106). -/
def stageCopyStep (b : BusId) (frame : List Byte) (s : State) : Res :=
  match s.fillStaging frame with
  | .ok t => .next (t.toPhase b .program)
  | .error e => .fault e

/-- `P_PROGRAM` of the transmit tail `XMIT` (41 R109): `n` is written to the 8-bit `TXCNT`. -/
def Bus.programTx (x : Bus) (a : Half) (src : TxSource) (n : Nat) (noStop : Bool) : Bus :=
  let y := { x.toPhase .start with address := targetAddr a, txPtr := src, txCnt := BitVec.ofNat 8 n }
  { y with
    shorts := if noStop then Shorts.none else Shorts.ltxStopOnly
    seq := { y.seq with txn := BitVec.ofNat 8 n, succ := if noStop then .lastTx else .stopped } }

/-- `P_PROGRAM` of `READ` (41 R107). -/
def Bus.programRx (x : Bus) (a : Half) (p : Nat) (n : Nat) : Bus :=
  let y := { x.toPhase .start with address := targetAddr a, rxPtr := p, rxCnt := BitVec.ofNat 8 n }
  { y with shorts := Shorts.lrxStopOnly, seq := { y.seq with succ := .stopped } }

/-- `P_PROGRAM` of `READ_REG` (41 R108). -/
def Bus.programTxRx (x : Bus) (a : Half) (f : Byte) (r : Half) (p : Nat) (n : Nat) : Bus :=
  let y := { x.toPhase .start with
    regBuf := x.regBuf.fill f r, address := targetAddr a, txPtr := .regBuf, txCnt := BitVec.ofNat 8 (regCount f)
    rxPtr := p, rxCnt := BitVec.ofNat 8 n }
  { y with shorts := Shorts.writeThenRead, seq := { y.seq with txn := BitVec.ofNat 8 (regCount f), succ := .stopped } }

/-- `P_START`: the start task is triggered and `FINISH` begins (41 R109, R107, 10 R25). -/
def startStep (b : BusId) (started : Except Refusal Bus) (s : State) : Res :=
  match started with
  | .ok x => .next (s.setBus b (x.toPhase .unmask))
  | .error r => .refused r

/-- `WRITE` (41 R105). -/
def execWrite (b : BusId) (f : Byte) (a n : Half) (p : Nat) (s : State) : Res :=
  entry (.write b f a n p) s <|
    match (s.bus b).seq.phase with
    | .uninit => busyStep (.write b f a n p) s
    | .idle => acceptStep (.write b f a n p) s
    | .check => checkStep (.write b f a n p) writeRejects f (writeStages s.cfg p n) s
    | .stageLock => stageLockStep b s
    | .stageCopy => stageCopyStep b (s.memBytes p n.toNat) s
    | .program =>
      let src := if (s.bus b).seq.staged then .staging else .mem p
      .next (s.updBus b (fun x => x.programTx a src n.toNat (flagNoStop f)))
    | .start => startStep b (startTx s.cfg (s.bus b)) s
    | .unstage => unstageStep b s
    | .unmask | .wait | .poll | .ack | .classify | .pinLock | .faulted => finishStep b s

/-- `WRITE_REG` (41 R106): always stages, register bytes first. -/
def execWriteReg (b : BusId) (f : Byte) (a r n : Half) (p : Nat) (s : State) : Res :=
  entry (.writeReg b f a r n p) s <|
    match (s.bus b).seq.phase with
    | .uninit => busyStep (.writeReg b f a r n p) s
    | .idle => acceptStep (.writeReg b f a r n p) s
    | .check => checkStep (.writeReg b f a r n p) writeRejects f true s
    | .stageLock => stageLockStep b s
    | .stageCopy => stageCopyStep b (regBytes f r ++ s.memBytes p n.toNat) s
    | .program => .next (s.updBus b (fun x => x.programTx a .staging (regCount f + n.toNat) (flagNoStop f)))
    | .start => startStep b (startTx s.cfg (s.bus b)) s
    | .unstage => unstageStep b s
    | .unmask | .wait | .poll | .ack | .classify | .pinLock | .faulted => finishStep b s

/-- `READ` (41 R107): never stages. -/
def execRead (b : BusId) (f : Byte) (a n : Half) (p : Nat) (s : State) : Res :=
  entry (.read b f a n p) s <|
    match (s.bus b).seq.phase with
    | .uninit => busyStep (.read b f a n p) s
    | .idle => acceptStep (.read b f a n p) s
    | .check => checkStep (.read b f a n p) readRejects f false s
    | .program => .next (s.updBus b (fun x => x.programRx a p n.toNat))
    | .start => startStep b (startRx (s.bus b)) s
    | .unmask | .wait | .poll | .ack | .classify | .unstage | .pinLock | .stageLock | .stageCopy | .faulted => finishStep b s

/-- `READ_REG` (41 R108): the register address goes out from `REGBUF[b]`, then the receive follows by the shorts. -/
def execReadReg (b : BusId) (f : Byte) (a r n : Half) (p : Nat) (s : State) : Res :=
  entry (.readReg b f a r n p) s <|
    match (s.bus b).seq.phase with
    | .uninit => busyStep (.readReg b f a r n p) s
    | .idle => acceptStep (.readReg b f a r n p) s
    | .check => checkStep (.readReg b f a r n p) readRejects f false s
    | .program => .next (s.updBus b (fun x => x.programTxRx a f r p n.toNat))
    | .start => startStep b (startTx s.cfg (s.bus b)) s
    | .unmask | .wait | .poll | .ack | .classify | .unstage | .pinLock | .stageLock | .stageCopy | .faulted => finishStep b s

end Sys2Proof.Machine
end

