-- ==== Sys2Proof/Machine/Dispatch.lean ====
section
/-! DEFINITION. The dispatch of an operation to its meaning (30 R71), one arm per constructor of `Instr`. -/

namespace Sys2Proof.Machine

def exec (i : Instr) (s : State) : Host.Outcome State Fault Refusal :=
  match i with
  | .init b => Sys2Proof.Machine.execInit b s
  | .acquire b => Sys2Proof.Machine.execAcquire b s
  | .release b => Sys2Proof.Machine.execRelease b s
  | .write b f a n p => Sys2Proof.Machine.execWrite b f a n p s
  | .writeReg b f a r n p => Sys2Proof.Machine.execWriteReg b f a r n p s
  | .read b f a n p => Sys2Proof.Machine.execRead b f a n p s
  | .readReg b f a r n p => Sys2Proof.Machine.execReadReg b f a r n p s

end Sys2Proof.Machine
end

