-- ==== Sys2Proof/Machine/Isr.lean ====
section
/-! DEFINITION. The completion handler `ISR[b]` (spec 60 R186, R187). -/

namespace Sys2Proof.Machine

/-- The handler's whole effect on its bus: all three sources masked, the gate signalled; branch-free (60 R187, R188). -/
def Bus.handler (x : Bus) : Bus := { x with inten := IntEn.none }.signalGate

/-- `ISR[b]` may take its step exactly when `IRQEN[b] = 1` and `IRQ(b) = 1` (60 R186). -/
def State.isrEnabled (s : State) (b : BusId) : Bool := s.hasBus b && (s.bus b).irqEn && (s.bus b).irq

/-- One turn of `ISR[b]`. -/
def isrStep (b : BusId) (s : State) : Res :=
  if s.isrEnabled b then .next (s.updBus b Bus.handler) else .next s

end Sys2Proof.Machine
end

