-- ==== Sys2Proof/Machine/Agents.lean ====
section
/-! DEFINITION. The agents' turns (spec 00 R5): a requester thread presents a command (30 R70), the sequencer steps, the wire
engine, the handler, the other protocol role (40 R94), a requester's store; and whose turn comes when none is scheduled. -/

namespace Sys2Proof.Machine

/-- The sequencer of the command's bus is in a phase in which its meaning answers a presentation: always for `INIT` and
for a bus that does not exist, otherwise `P_IDLE`, or `P_UNINIT`, where the meaning raises `busy` (30 R70, 70 R212). -/
def State.answers (s : State) (i : Instr) : Bool :=
  !s.hasBus i.bus || i.opcode == 0 || (s.bus i.bus).seq.phase == .idle || (s.bus i.bus).seq.phase == .uninit

/-- A requester presents a decoded command: it is run from its acceptance, or it is the `busy` contract violation of a
sequencer with a command in flight or stopped (41 R101, R113). -/
def present (i : Instr) (s : State) : Res := if s.answers i then exec i s else busyStep i s

/-- The sequencer of the command's bus accepts it: it is in `P_IDLE`, or in `P_UNINIT` for `INIT` (30 R70). -/
def State.accepts (s : State) (i : Instr) : Bool :=
  s.hasBus i.bus && (s.bus i.bus).seq.phase == (if i.opcode = 0 then .uninit else .idle)

/-- Requester thread `k` is blocked: a command it has presented, to whatever bus, has not returned (00 R5). -/
def State.blocked (s : State) (k : Nat) : Bool := (List.finRange 16).any (fun b => (s.bus b).callers.contains k)

/-- Thread `k` has presented the command `c` of operation `i`, with `rest` still to present: from now on it is blocked on the
command's bus, and a sequencer that accepts the command has latched its record. -/
def State.issue (s : State) (k : Nat) (c : Cmd96) (rest : List Cmd96) (i : Instr) : State :=
  State.updBus { s with requests := s.requests.set k rest } i.bus (fun x => x.called k (s.accepts i) (unpack c))

/-- A turn of requester thread `k` (log entry 11): blocked, or with nothing to present, it has no step; otherwise its oldest
command is decoded and presented, and a reserved encoding is refused (30 R79). -/
def requesterStep (k : Nat) (s : State) : Res :=
  if s.blocked k then .next s
  else match s.requests[k]? with
  | none | some [] => .next s
  | some (c :: rest) =>
    match decode (c.onWires s.cfg.addrW) with
    | .error e => .refused (.reservedEncoding e)
    | .ok i => present i (s.issue k (c.onWires s.cfg.addrW) rest i)

/-- A command of bus `b` is in flight: its sequencer is neither at rest nor stopped. -/
def Phase.inFlight : Phase → Bool
  | .uninit | .idle | .faulted => false
  | .check | .pinLock | .stageLock | .stageCopy | .program | .start | .unmask | .wait | .poll | .ack | .classify
  | .unstage => true

/-- The operation `SEQ[b]` has latched; the sequencer is that of bus `b` whatever the latch's `BUS` says (10 R39). -/
def State.latched (s : State) (b : BusId) : Except Reject Instr := decodeCmd { (s.bus b).seq.cmd with bus := b }

/-- A turn of `SEQ[b]`: the next phase of the command it latched (10 R11, R13). -/
def seqStep (b : BusId) (s : State) : Res :=
  if s.hasBus b && (s.bus b).seq.phase.inFlight then
    match s.latched b with
    | .error e => .refused (.reservedEncoding e)
    | .ok i => exec i s
  else .next s

/-- The other protocol role of bus `b` may act: the bus shares pins and its pin lock is free (40 R94). -/
def State.otherMayAct (s : State) (b : BusId) : Bool :=
  s.hasBus b && (s.desc b).sharesPins && (s.bus b).pinLock == .free

/-- The other role writes any value to the pin-select and frequency fields (40 R94). -/
def otherConfigure (b : BusId) (scl sda freq : Nat) (s : State) : Res :=
  if s.otherMayAct b then .next (s.updBus b (fun x => { x with pselScl := scl, pselSda := sda, freq := freq })) else .next s

/-- The other role writes the pin lock of bus `b`, which only `SEQ[b]` may do (10 R38): no meaning (93 U9; log entry 10). -/
def otherPinLock (_b : BusId) (_l : PinLock) (_s : State) : Res := .refused .notOwner

/-- Requester thread `k`, while it is not blocked, writes a byte of memory (10 R36, R38), which other threads may be using
(70 R217; log entry 24). -/
def requesterStore (k : Nat) (a : Nat) (v : Byte) (s : State) : Res :=
  if s.blocked k then .next s
  else if a < 2 ^ s.cfg.addrW then .next { s with mem := Memory.write s.mem a v } else .fault .noSuchAddress

/-- One turn of one agent. -/
def takeTurn (t : Turn) (s : State) : Res :=
  match t with
  | .requester k => requesterStep k s
  | .seq b => seqStep b s
  | .wire b => wireStep b s
  | .isr b => isrStep b s
  | .otherConfigure b scl sda freq => otherConfigure b scl sda freq s
  | .otherPinLock b l => otherPinLock b l s
  | .store k a v => requesterStore k a v s

/-- The sequencer of bus `b` has a step: a command is in flight and a blocking phase's condition holds (10 R13). -/
def State.seqReady (s : State) (b : BusId) : Bool :=
  s.hasBus b &&
  match (s.bus b).seq.phase with
  | .uninit | .idle | .faulted => false
  | .pinLock => (s.bus b).pinLock == .free
  | .stageLock => s.slock == .free
  | .wait => (s.bus b).waitDone
  | .poll => (s.bus b).pollDone
  | .check | .stageCopy | .program | .start | .unmask | .ack | .classify | .unstage => true

/-- The wire engine of bus `b` has a step (43 R150, R163, R164). -/
def State.wireReady (s : State) (b : BusId) : Bool :=
  s.hasBus b && (s.bus b).enable &&
  match (s.bus b).wire.phase with
  | .idle | .held => false
  | .txAddr | .rxAddr | .txLast => !(s.bus b).acks.isEmpty
  | .tx => !((s.bus b).wire.idx + 1 < (s.bus b).txCnt.toNat && (s.bus b).acks.isEmpty)
  | .rx => !(s.bus b).rxData.isEmpty

/-- Thread `k` is not blocked and has a command that its bus can accept, or whose presentation is refused or a violation
whatever the bus does. -/
def State.requesterReady (s : State) (k : Nat) : Bool :=
  !s.blocked k &&
  match s.requests[k]? with
  | none | some [] => false
  | some (c :: _) =>
    match decode (c.onWires s.cfg.addrW) with
    | .error _ => true
    | .ok i => s.answers i

/-- The agents that could move, in the order the model's own scheduler prefers them. -/
def State.readyTurns (s : State) : List Turn :=
  ((List.finRange 16).filter (fun b => s.isrEnabled b)).map Turn.isr ++
  ((List.finRange 16).filter (fun b => s.seqReady b)).map Turn.seq ++
  ((List.finRange 16).filter (fun b => s.wireReady b)).map Turn.wire ++
  ((List.range s.requests.length).filter (fun k => s.requesterReady k)).map Turn.requester

/-- Whose turn it is when `sched` names none (DESIGN CHOICE, log entry 5): the first agent that could move; if none
could, the run is stuck (60 R199) and the state stays as it is. -/
def unscheduledStep (s : State) : Res :=
  match s.readyTurns with
  | [] => .next s
  | t :: _ => takeTurn t s

end Sys2Proof.Machine
end

