-- ==== Sys2Proof/Machine/Step.lean ====
section
/-! DEFINITION. One step of the machine: the turn the schedule names, or the model's own choice when it names none;
and the placing of a command so that the next step runs it. -/

namespace Sys2Proof.Machine

/-- One atomic step of one agent (00 R5; log entries 4 and 5). -/
def step (s : State) : Host.Outcome State Fault Refusal :=
  match s.sched with
  | t :: rest => takeTurn t { s with sched := rest }
  | [] => unscheduledStep s

/-- `s` with one more requester thread, whose one command has the bits `w`, and with its turn next, so that `step` presents
the command. -/
def State.withFetchWord (s : State) (nbits w : Nat) : State :=
  { s with requests := s.requests ++ [[cmdOfBits nbits w]], sched := .requester s.requests.length :: s.sched }

end Sys2Proof.Machine
end

