-- ==== Sys2Proof/Machine/RegMap.lean ====
section
/-! DEFINITION. The register view of a bus (spec 10 R37, 30 R83): what each register reads as and what a write of a word
does, under a `REGMAP`. It is configuration: no agent's turn uses it, and the laws of `Laws/RegMap.lean` say that the
sequencer's and the handler's accesses are register accesses of this view. -/

namespace Sys2Proof.Machine

/-- The register at an offset from `DESC[b].base` (10 R37). -/
def RegMap.regAt (m : RegMap) (offset : Nat) : Option Reg := (m.offsets.find? (fun e => e.2 == offset)).map Prod.fst

/-- The register of bus `b` at an absolute address (20 R50, R58). -/
def State.regAtAddress (s : State) (b : BusId) (a : Nat) : Option Reg :=
  if a < (s.desc b).base then none else RegMap.regAt s.cfg.regMap (a - (s.desc b).base)

/-- The word with one bit set or clear. -/
def bitWord (v : Bool) (n : Nat) : Word := if v then 1 <<< n else 0

/-- `SHORTS` as a word. -/
def Shorts.word (m : RegMap) (x : Shorts) : Word :=
  bitWord x.ltxSrx m.ltxSrxBit ||| bitWord x.ltxStop m.ltxStopBit ||| bitWord x.lrxStop m.lrxStopBit

/-- `SHORTS` from a word; it is always written whole (20 R55). -/
def Shorts.ofWord (m : RegMap) (w : Word) : Shorts :=
  ⟨w.getLsbD m.lrxStopBit, w.getLsbD m.ltxSrxBit, w.getLsbD m.ltxStopBit⟩

/-- `INTEN` as a word. -/
def IntEn.word (m : RegMap) (x : IntEn) : Word :=
  bitWord x.stopped m.stoppedBit ||| bitWord x.error m.errorBit ||| bitWord x.lastTx m.lastTxBit

/-- The write-1-to-set view of `INTEN`: unmask. -/
def IntEn.setBits (m : RegMap) (x : IntEn) (w : Word) : IntEn :=
  ⟨x.stopped || w.getLsbD m.stoppedBit, x.lastTx || w.getLsbD m.lastTxBit, x.error || w.getLsbD m.errorBit⟩

/-- The write-1-to-clear view of `INTEN`: mask. -/
def IntEn.clearBits (m : RegMap) (x : IntEn) (w : Word) : IntEn :=
  ⟨x.stopped && !w.getLsbD m.stoppedBit, x.lastTx && !w.getLsbD m.lastTxBit, x.error && !w.getLsbD m.errorBit⟩

/-- `ERRSRC` as a word. -/
def ErrSrc.word (m : RegMap) (x : ErrSrc) : Word := bitWord x.anack m.anackBit ||| bitWord x.dnack m.dnackBit

/-- Writing 1 to a bit of `ERRSRC` acknowledges it. -/
def ErrSrc.clearBits (m : RegMap) (x : ErrSrc) (w : Word) : ErrSrc :=
  ⟨x.anack && !w.getLsbD m.anackBit, x.dnack && !w.getLsbD m.dnackBit⟩

/-- An event flag reads nonzero when set (10 R37). DESIGN CHOICE (log entry 25): the nonzero word is 1. -/
def eventWord (v : Bool) : Word := if v then 1 else 0

/-- What a register reads as; no register has a side effect on read (20 R56). A task trigger is write-only (10 R25), the
set and clear views of `INTEN` are given no read, and the staging and register buffers have no address (20 R50). DESIGN CHOICE
(log entry 25): a pointer or an opaque value that is wider than a word reads as its low 32 bits, and the bits of a word that
belong to no field of the register read as 0. -/
def Bus.regRead (m : RegMap) (x : Bus) : Reg → Option Word
  | .tStartRx | .tStartTx | .tStop | .intenSet | .intenClr => none
  | .evStopped => some (eventWord x.ev.stopped)
  | .evError => some (eventWord x.ev.error)
  | .evLastRx => some (eventWord x.ev.lastRx)
  | .evLastTx => some (eventWord x.ev.lastTx)
  | .shorts => some (Shorts.word m x.shorts)
  | .inten => some (IntEn.word m x.inten)
  | .errSrc => some (ErrSrc.word m x.errSrc)
  | .enable => some (if x.enable then BitVec.ofNat 32 m.enableCode else 0)
  | .pselScl => some (BitVec.ofNat 32 x.pselScl)
  | .pselSda => some (BitVec.ofNat 32 x.pselSda)
  | .freq => some (BitVec.ofNat 32 x.freq)
  | .rxPtr => some (BitVec.ofNat 32 x.rxPtr)
  | .rxCnt => some (x.rxCnt.setWidth 32)
  | .txPtr =>
    match x.txPtr with
    | .mem p => some (BitVec.ofNat 32 p)
    | .staging | .regBuf => none
  | .txCnt => some (x.txCnt.setWidth 32)
  | .txAmt => some (x.txAmt.setWidth 32)
  | .address => some (x.address.setWidth 32)

/-- An acknowledge of an event flag: writing 0 clears it (30 R83); no rule gives another value a meaning. -/
def ackEvent (x : Bus) (w : Word) (cleared : Events) : Except Refusal Bus :=
  if w = 0 then .ok { x with ev := cleared } else .error .registerAccess

/-- A task trigger: writing 1 starts the task (10 R37, R25). -/
def trigger (w : Word) (started : Except Refusal Bus) : Except Refusal Bus :=
  if w = 1 then started else .error .registerAccess

/-- What a write of a word to a register does (10 R37, 30 R83). DESIGN CHOICE (log entry 25): a word wider than the register
loses its upper bits, in an 8-bit count, in the 7-bit `ADDRESS` and in a pointer of `ADDR_W` bits; `ENABLE` takes its two
codes only and refuses any other word; the bits of a word written to `SHORTS`, to the set and clear views of `INTEN` or to
`ERRSRC` that name no field are ignored. -/
def Bus.regWrite (c : Config) (x : Bus) (w : Word) : Reg → Except Refusal Bus
  | .tStartRx => trigger w (startRx x)
  | .tStartTx => trigger w (startTx c x)
  | .tStop => trigger w (.ok (if x.enable then x.stop else x))
  | .evStopped => ackEvent x w { x.ev with stopped := false }
  | .evError => ackEvent x w { x.ev with error := false }
  | .evLastRx => ackEvent x w { x.ev with lastRx := false }
  | .evLastTx => ackEvent x w { x.ev with lastTx := false }
  | .shorts => .ok { x with shorts := Shorts.ofWord c.regMap w }
  | .intenSet => .ok { x with inten := IntEn.setBits c.regMap x.inten w }
  | .intenClr => .ok { x with inten := IntEn.clearBits c.regMap x.inten w }
  | .errSrc => .ok { x with errSrc := ErrSrc.clearBits c.regMap x.errSrc w }
  | .enable =>
    if w = BitVec.ofNat 32 c.regMap.enableCode then .ok { x with enable := true }
    else if w = 0 then .ok { x with enable := false } else .error .registerAccess
  | .pselScl => .ok { x with pselScl := w.toNat }
  | .pselSda => .ok { x with pselSda := w.toNat }
  | .freq => .ok { x with freq := w.toNat }
  | .rxPtr => .ok { x with rxPtr := w.toNat % 2 ^ c.addrW }
  | .rxCnt => .ok { x with rxCnt := w.setWidth 8 }
  | .txPtr => .ok { x with txPtr := .mem (w.toNat % 2 ^ c.addrW) }
  | .txCnt => .ok { x with txCnt := w.setWidth 8 }
  | .address => .ok { x with address := w.setWidth 7 }
  | .inten | .txAmt => .error .registerAccess

end Sys2Proof.Machine
end

