-- ==== Sys2Proof/Safety.lean ====
section
/-! DEFINITION. What counts as a safe state and a safe run of the block, in the terms the claims use: the clean entry of
70 R211, the bus at rest after a return (41 R114), and the invariants every step keeps. -/

namespace Sys2Proof.Machine

/-- The clean entry record of bus `b` (70 R211). -/
abbrev State.cleanEntry (s : State) (b : BusId) : Prop :=
  let x := s.bus b
  x.seq.phase = .idle ∧ x.enable = false ∧ x.shorts = Shorts.none ∧ x.inten = IntEn.none ∧ x.ev = Events.none ∧
  x.errSrc = ErrSrc.none ∧ x.gate = .locked ∧ ((s.desc b).sharesPins = true → x.pinLock = .free) ∧ x.irqEn = true ∧
  x.wire = ⟨.idle, 0, false⟩ ∧ x.wlog = [] ∧ s.slock = .free ∧ s.fault = none

/-- Bus `b` as every return of a transfer leaves it (41 R114, 42 R136). -/
abbrev State.recovered (s : State) (b : BusId) : Prop :=
  let x := s.bus b
  x.seq.phase = .idle ∧ x.inten = IntEn.none ∧ x.gate = .locked ∧ x.ev.stopped = false ∧ x.ev.error = false ∧
  x.errSrc = ErrSrc.none ∧ s.slock ≠ .held b ∧ x.wire.atRest = true

/-- A session is open on bus `b` and the bus is usable: initialised, enabled (40 R93), recovered, and no staged command. -/
abbrev State.inSession (s : State) (b : BusId) : Prop :=
  s.hasBus b = true ∧ (s.bus b).enable = true ∧ (s.bus b).irqEn = true ∧ s.recovered b ∧ (s.bus b).seq.staged = false

/-- Whose turn the next step takes: the schedule's first, or the model's own choice when it names none (log entries 4, 5). -/
def State.turn (s : State) : Option Turn :=
  match s.sched with
  | k :: _ => some k
  | [] => s.readyTurns.head?

/-- The log of an acknowledged address phase (43 R152). -/
def addressLog (held : Bool) (a : Addr7) (d : Dir) : List WireSym :=
  [if held then .restart else .start, .addr a d, .answer .ack]

/-- The log of acknowledged bytes (43 R153, R155). -/
def sentLog (frame : List Byte) : List WireSym := frame.flatMap (fun d => [.data d, .answer .ack])

/-- The pointers a bus holds have `ADDR_W` bits (10 R11, R18, R20). -/
abbrev Bus.pointersFit (x : Bus) (addrW : Nat) : Prop :=
  x.seq.cmd.ptr < 2 ^ addrW ∧ x.rxPtr < 2 ^ addrW ∧ ∀ p, x.txPtr = .mem p → p < 2 ^ addrW

/-- Memory keeps its canonical form inside the address space, the staging buffer its capacity, and every pointer its width
(20 R50, 10 R30, R11, R18, R20). -/
abbrev State.memoryInv (s : State) : Prop :=
  Memory.wf s.mem = true ∧ (∀ c ∈ s.mem, c.1 < 2 ^ s.cfg.addrW) ∧ s.staging.length = Config.stagingCap ∧
  ∀ b : BusId, (s.bus b).pointersFit s.cfg.addrW

/-- Phases in which no command of the bus can hold `SLOCK` (41 R112). -/
def Phase.beforeStaging : Phase → Bool
  | .uninit | .idle | .check | .pinLock | .stageLock => true
  | .stageCopy | .program | .start | .unmask | .wait | .poll | .ack | .classify | .unstage | .faulted => false

/-- `SLOCK` is held by exactly the sequencer whose command staged, from `P_STAGE_COPY` to `P_UNSTAGE` (10 R31, 41 R112). -/
abbrev State.lockInv (s : State) : Prop :=
  ∀ b : BusId, ((s.bus b).seq.staged = true ↔ s.slock = .held b) ∧
    ((s.bus b).seq.phase.beforeStaging = true → (s.bus b).seq.staged = false) ∧
    ((s.bus b).seq.phase = .stageCopy ∨ (s.bus b).seq.phase = .unstage → (s.bus b).seq.staged = true)

/-- A signalled gate or an unmasked source exists only in `P_WAIT`, and never both (42 R137, 60 R189). -/
abbrev Bus.gateInv (x : Bus) : Prop :=
  x.seq.phase ≠ .faulted →
    (x.gate = .unlocked → x.seq.phase = .wait ∧ x.inten = IntEn.none) ∧ (x.inten ≠ IntEn.none → x.seq.phase = .wait)

/-- `gateInv` on every bus. -/
abbrev State.gateInv (s : State) : Prop := ∀ b : BusId, (s.bus b).gateInv

/-- The phases of a command before its start task, and the bus at rest between commands. -/
def Phase.beforeStart : Phase → Bool
  | .idle | .check | .pinLock | .stageLock | .stageCopy | .program | .start => true
  | .uninit | .unmask | .wait | .poll | .ack | .classify | .unstage | .faulted => false

/-- The phases of `FINISH` in which the transfer may still run. -/
def Phase.awaiting : Phase → Bool
  | .unmask | .wait | .poll => true
  | .uninit | .idle | .check | .pinLock | .stageLock | .stageCopy | .program | .start | .ack | .classify | .unstage
  | .faulted => false

/-- A transmit is in progress on the wire. -/
def WirePhase.transmitting : WirePhase → Bool
  | .txAddr | .tx | .txLast => true
  | .idle | .held | .rxAddr | .rx => false

/-- A receive is in progress on the wire. -/
def WirePhase.receiving : WirePhase → Bool
  | .rxAddr | .rx => true
  | .idle | .held | .txAddr | .tx | .txLast => false

/-- What ties the sequencer to the wire engine: nothing runs and nothing is latched before a start task and after
`FINISH`; a terminal event means that the transfer is over; and while a no-stop write runs, `TXAMT` is short of the
count, which is what makes the poll right (42 R133, 43 R161, 70 R223). -/
abbrev Bus.restInv (x : Bus) : Prop :=
  (x.seq.phase.beforeStart = true →
    x.wire.atRest = true ∧ x.ev.stopped = false ∧ x.ev.error = false ∧ x.errSrc = ErrSrc.none) ∧
  (x.seq.phase = .start → x.seq.succ = .lastTx →
    (x.seq.cmd.op = 4 ∨ x.seq.cmd.op = 5) ∧ x.seq.txn = x.txCnt ∧ x.shorts.ltxSrx = false) ∧
  (x.seq.phase.awaiting = true → (x.ev.stopped = true ∨ x.ev.error = true) → x.wire.atRest = true) ∧
  (x.seq.phase.awaiting = true → x.seq.succ = .lastTx → x.wire.atRest = false →
    x.wire.phase.transmitting = true ∧ x.seq.txn = x.txCnt ∧ x.shorts.ltxSrx = false ∧ x.txAmt.toNat < x.txCnt.toNat) ∧
  (x.seq.phase = .wait → (x.inten.stopped = true → x.seq.succ = .stopped) ∧ (x.inten.lastTx = true → x.seq.succ = .lastTx)) ∧
  (x.seq.phase = .wait → x.gate = .unlocked → x.seq.succ = .stopped → x.ev.stopped = true ∨ x.ev.error = true) ∧
  (x.seq.phase = .poll → x.seq.succ = .lastTx) ∧
  (x.seq.phase = .ack → x.wire.atRest = true) ∧
  (x.seq.phase = .classify → x.wire.atRest = true ∧ x.ev.stopped = false) ∧
  (x.seq.phase = .unstage →
    x.wire.atRest = true ∧ x.ev.stopped = false ∧ x.ev.error = false ∧ x.errSrc = ErrSrc.none)

/-- `restInv` on every bus. -/
abbrev State.restInv (s : State) : Prop := ∀ b : BusId, (s.bus b).restInv

/-- The registers a transmit runs with are ones the sequencer programs (43 R168). -/
abbrev Bus.txProgrammed (x : Bus) : Prop :=
  0 < x.txCnt.toNat ∧ ¬(x.shorts.ltxSrx = true ∧ x.shorts.ltxStop = true) ∧
  (x.shorts.ltxSrx = true → x.shorts.lrxStop = true ∧ 0 < x.rxCnt.toNat) ∧ (x.txPtr = .regBuf → x.txCnt.toNat ≤ 2)

/-- The registers a receive runs with are ones the sequencer programs (43 R168). -/
abbrev Bus.rxProgrammed (x : Bus) : Prop := 0 < x.rxCnt.toNat ∧ x.shorts.lrxStop = true

/-- The configurations of 43 R168 do not arise: a running transfer and a command about to start have programmed
registers, and a command past `P_CHECK` has operands that passed it. -/
abbrev State.programmedInv (s : State) : Prop :=
  ∀ b : BusId,
    ((s.bus b).wire.phase.transmitting = true → (s.bus b).txProgrammed ∧ (s.bus b).wire.idx < (s.bus b).txCnt.toNat) ∧
    ((s.bus b).wire.phase.receiving = true → (s.bus b).rxProgrammed ∧ (s.bus b).wire.idx < (s.bus b).rxCnt.toNat) ∧
    ((s.bus b).seq.phase.inFlight = true → ∃ i, s.latched b = .ok i) ∧
    ((s.bus b).seq.phase = .stageLock ∨ (s.bus b).seq.phase = .stageCopy ∨ (s.bus b).seq.phase = .program →
      ∀ i, s.latched b = .ok i → violation s.cfg i = none) ∧
    ((s.bus b).seq.phase = .start → (s.bus b).seq.cmd.op ≠ 6 → (s.bus b).txProgrammed) ∧
    ((s.bus b).seq.phase = .start → (s.bus b).seq.cmd.op = 6 → (s.bus b).rxProgrammed)

/-- The whole invariant. -/
abbrev State.inv (s : State) : Prop := s.memoryInv ∧ s.lockInv ∧ s.gateInv ∧ s.restInv ∧ s.programmedInv

/-- A function applied to the state of a `next` answer. -/
def mapNext (f : State → State) : Res → Res
  | .next s => .next (f s)
  | .fault r => .fault r
  | .refused r => .refused r

end Sys2Proof.Machine

namespace Sys2Proof

/-- The four transfer operations. -/
def Instr.isTransfer : Instr → Bool
  | .init _ | .acquire _ | .release _ => false
  | .write _ _ _ _ _ | .writeReg _ _ _ _ _ _ | .read _ _ _ _ _ | .readReg _ _ _ _ _ _ => true

/-- `FLAGS` of an operation; the lifecycle operations have none. -/
def Instr.flags : Instr → Byte
  | .init _ | .acquire _ | .release _ => 0
  | .write _ f _ _ _ | .writeReg _ f _ _ _ _ | .read _ f _ _ _ | .readReg _ f _ _ _ _ => f

/-- The reject mask of an operation (41 R102). -/
def Instr.rejects : Instr → Byte
  | .init _ | .acquire _ | .release _ => 0
  | .write _ _ _ _ _ | .writeReg _ _ _ _ _ _ => Machine.writeRejects
  | .read _ _ _ _ _ | .readReg _ _ _ _ _ _ => Machine.readRejects

/-- The operation's command stages (41 R104). -/
def Instr.stages (c : Config) : Instr → Bool
  | .init _ | .acquire _ | .release _ | .read _ _ _ _ _ | .readReg _ _ _ _ _ _ => false
  | .write _ _ _ n p => Machine.writeStages c p n
  | .writeReg _ _ _ _ _ _ => true

/-- `FLAGS.NOSTOP` of an operation. -/
def Instr.noStop (i : Instr) : Bool := Machine.flagNoStop i.flags

/-- `ADDR[6:0]` of a transfer operation. -/
def Instr.target : Instr → Addr7
  | .init _ | .acquire _ | .release _ => 0
  | .write _ _ a _ _ | .writeReg _ _ a _ _ _ | .read _ _ a _ _ | .readReg _ _ a _ _ _ => Machine.targetAddr a

/-- The bytes that a transfer transmits (41 R105 to R108): the payload, the register bytes and the payload, none, the register
bytes. -/
def Instr.frame (s : Machine.State) : Instr → List Byte
  | .init _ | .acquire _ | .release _ | .read _ _ _ _ _ => []
  | .write _ _ _ n p => s.memBytes p n.toNat
  | .writeReg _ f _ r n p => Machine.regBytes f r ++ s.memBytes p n.toNat
  | .readReg _ f _ r _ _ => Machine.regBytes f r

namespace Machine

/-- One order of turns in which a transfer command of thread `k` runs (log entry 4): its presentation; the sequencer's check,
staging, programming, start and unmask; `w` turns of the wire engine; the handler; and the rest of the sequencer's phases. -/
def turnsOf (c : Config) (i : Instr) (k w : Nat) : List Turn :=
  Turn.requester k :: List.replicate (if i.stages c then 6 else 4) (Turn.seq i.bus) ++ List.replicate w (Turn.wire i.bus) ++
    Turn.isr i.bus :: List.replicate ((if i.noStop then 4 else 3) + (if i.stages c then 1 else 0)) (Turn.seq i.bus)

/-- Thread `k` is about to present the transfer operation `i`, with `q` to present after it: the thread is not blocked, the
operation passes its checks, a session is open on its bus, and the staging lock is free if the operation stages. -/
abbrev State.aboutToPresent (s : State) (k : Nat) (i : Instr) (q : List Cmd96) : Prop :=
  s.blocked k = false ∧ s.requests[k]? = some (encode i :: q) ∧ i.isTransfer = true ∧ i.wf = true ∧
  violation s.cfg i = none ∧ rejected i.rejects i.flags = false ∧ s.inSession i.bus ∧
  (i.stages s.cfg = true → s.slock = .free ∧ s.staging.length = Config.stagingCap)

/-- From `s` to `t` the command of thread `k` has been presented and has returned with result code `r`: its turns are used up,
the thread is unblocked, the bus is usable, the locks, the fault latch and the other buses are as they were. -/
abbrev State.returned (s t : State) (k : Nat) (i : Instr) (q : List Cmd96) (sch : List Turn) (r : Byte) : Prop :=
  t.sched = sch ∧ t.requests = s.requests.set k q ∧ t.blocked k = false ∧ (t.bus i.bus).result = r ∧ t.recovered i.bus ∧
  t.slock = s.slock ∧ t.fault = s.fault ∧ (i.stages s.cfg = false → t.staging = s.staging) ∧
  ∀ c, c ≠ i.bus → t.bus c = s.bus c

end Machine

end Sys2Proof
end

