-- ==== Sys2Proof/Certificates/Slice0/Obligations.lean ====
section
/-! DEFINITION. The statements about the block. Where a statement rests on a choice of the model its docstring names the log
entry. `exec i s` is the step the sequencer of `i`'s bus takes for `i` in the phase it is in (10 R13). -/

open Sys2Proof Sys2Proof.Machine

/-! ## Encoding (spec 30) -/

/-- R70, R71, R81: decoding the words of a well-formed operation gives it back, every operand at every value. Spec decisions:
D3, D4, D5, D7. -/
def Obligations.DecodeEncodeAgree : Prop := ∀ i : Instr, i.wf = true → decode (encode i) = .ok i

/-- R70, R71: a decoded operation is well formed, carries the word's opcode and bus, and its own words decode to it; the two
operations that use every field have one word each. (An unused field's word is log entry 6.) -/
def Obligations.DecodedWordsEncodeBack : Prop :=
  ∀ (c : Cmd96) (i : Instr), decode c = .ok i →
    i.wf = true ∧ i.opcode = c.w0.extractLsb' 28 4 ∧ i.bus.val = (c.w0.extractLsb' 24 4).toNat ∧
    decode (encode i) = .ok i ∧ (i.opcode = 5 ∨ i.opcode = 7 → encode i = c)

/-- R71: a field an operation does not use is ignored: the lifecycle operations read `OP` and `BUS` alone, `WRITE` and `READ` do
not read `REG`. Spec decisions: D4. -/
def Obligations.UnusedFieldsIgnored : Prop :=
  ∀ c d : Cmd96,
    (c.w0.extractLsb' 28 4 = 0 ∨ c.w0.extractLsb' 28 4 = 1 ∨ c.w0.extractLsb' 28 4 = 2 →
      c.w0.extractLsb' 24 8 = d.w0.extractLsb' 24 8 → decode c = decode d) ∧
    (c.w0.extractLsb' 28 4 = 4 ∨ c.w0.extractLsb' 28 4 = 6 →
      c.w0 = d.w0 → c.w1.extractLsb' 0 16 = d.w1.extractLsb' 0 16 → c.w2 = d.w2 → decode c = decode d)

/-- R79: the reserved encodings, and only they, do not decode; the turn of a requester on one is refused. Spec decisions: D8,
D37. -/
def Obligations.ReservedEncodingsRefused : Prop :=
  (∀ c : Cmd96, (∃ e, decode c = .error e) ↔
    c.w0.extractLsb' 28 4 = 3 ∨ 8 ≤ (c.w0.extractLsb' 28 4).toNat ∨
    (4 ≤ (c.w0.extractLsb' 28 4).toNat ∧ (c.w0.extractLsb' 20 4 ≠ 0 ∨ c.w0.extractLsb' 7 9 ≠ 0))) ∧
  (∀ (s : State) (k : Nat) (c : Cmd96) (rest : List Cmd96) (sch : List Turn) (e : Reject),
    s.sched = .requester k :: sch → s.blocked k = false → s.requests[k]? = some (c :: rest) → decode c = .error e →
      step s = .refused (.reservedEncoding e))

/-- Words of the spec's table 2.5 and 2.4 (95), decoded. Spec decisions: D3 to D5, D8. -/
def Obligations.SampleWordsDecode : Prop :=
  decode ⟨0x00FF1234, 0xFFFFFFFF, 0xFFFFFFFF⟩ = .ok (.init 0) ∧ decode ⟨0x11000000, 0, 0⟩ = .ok (.acquire 1) ∧
  decode ⟨0x20000000, 0, 0⟩ = .ok (.release 0) ∧
  decode ⟨0x40040050, 0x00000002, 0x20000010⟩ = .ok (.write 0 0x04 0x50 2 0x20000010) ∧
  decode ⟨0x51000051, 0x00200002, 0x20000110⟩ = .ok (.writeReg 1 0 0x51 0x20 2 0x20000110) ∧
  decode ⟨0x60000050, 0x00000002, 0x20000200⟩ = .ok (.read 0 0 0x50 2 0x20000200) ∧
  decode ⟨0x71020068, 0x12340002, 0x20000300⟩ = .ok (.readReg 1 0x02 0x68 0x1234 2 0x20000300) ∧
  decode ⟨0x30000000, 0, 0⟩ = .error .reservedOpcode ∧ decode ⟨0x40100050, 1, 0x20000000⟩ = .error .reservedFlags ∧
  decode ⟨0x400000D0, 1, 0x20000000⟩ = .error .reservedAddress

/-! ## The step -/

/-- R5, R70: the turn of a requester thread that is not blocked runs the command that it presents first, on the state without
that command and turn, with the thread blocked on the command's bus and, if the bus's sequencer accepts the command, all its
fields latched at once (`PTR` in `ADDR_W` bits, log entry 16). A command that its sequencer cannot accept is a contract
violation; which check that names is `busyViolation` (log entry 9, DEDUCED). A sequencer's turn runs the command it latched; and
a command placed by `withFetchWord`, which is a thread of its own (log entry 11, DESIGN CHOICE), runs. The turns come from the
model's schedule (log entry 4); with none scheduled the first agent that could move moves, and if none could the state stays
(log entry 5, DESIGN CHOICE). Spec decisions: D1, D27. -/
def Obligations.StepRunsDecodedCommand : Prop :=
  (∀ (s : State) (k : Nat) (c : Cmd96) (rest : List Cmd96) (sch : List Turn) (i : Instr),
    s.sched = .requester k :: sch → s.blocked k = false → s.requests[k]? = some (c :: rest) →
    decode ⟨c.w0, c.w1, c.w2 % 2 ^ s.cfg.addrW⟩ = .ok i →
      let u (cmd : Cmd) : State := State.setBus { s with sched := sch, requests := s.requests.set k rest } i.bus
        { s.bus i.bus with seq := { (s.bus i.bus).seq with cmd := cmd }, callers := k :: (s.bus i.bus).callers }
      let cmd := unpack ⟨c.w0, c.w1, c.w2 % 2 ^ s.cfg.addrW⟩
      (s.hasBus i.bus = true → ((i.opcode = 0 ∧ (s.bus i.bus).seq.phase = .uninit) ∨
          (i.opcode ≠ 0 ∧ (s.bus i.bus).seq.phase = .idle)) → step s = exec i (u cmd)) ∧
      (s.hasBus i.bus = false ∨ (i.opcode = 0 ∧ (s.bus i.bus).seq.phase ≠ .uninit) ∨
          (i.opcode ≠ 0 ∧ (s.bus i.bus).seq.phase = .uninit) → step s = exec i (u (s.bus i.bus).seq.cmd)) ∧
      (s.hasBus i.bus = true → i.opcode ≠ 0 → (s.bus i.bus).seq.phase ≠ .idle → (s.bus i.bus).seq.phase ≠ .uninit →
        step s = .next ((u (s.bus i.bus).seq.cmd).raise (busyViolation s.cfg i) i.bus))) ∧
  (∀ (s : State) (sch : List Turn) (b : BusId) (i : Instr),
    s.sched = .seq b :: sch → s.hasBus b = true → (s.bus b).seq.phase.inFlight = true → s.latched b = .ok i →
      step s = exec i { s with sched := sch }) ∧
  (∀ (s : State) (nbits w : Nat) (i : Instr), decodeTableWord nbits w = some i → s.answers i = true →
    s.blocked s.requests.length = false → (cmdOfBits nbits w).w2 < 2 ^ s.cfg.addrW →
      step (s.withFetchWord nbits w) =
        exec i (State.issue { s with requests := s.requests ++ [[cmdOfBits nbits w]] } s.requests.length (cmdOfBits nbits w) [] i)) ∧
  (∀ s : State, s.sched = [] →
    (s.readyTurns = [] → step s = .next s) ∧ (∀ t ts, s.readyTurns = t :: ts → step s = takeTurn t s))

/-- R5, R13, R93, R150, R163, R164, R186: an agent that is blocked has no step, which the model makes a turn that changes
nothing (log entry 12, DESIGN CHOICE): a requester thread whose command has not returned, or that has none to present; a
handler that is not enabled; a wire engine that is disabled, at rest, or whose slave stalls in an address phase, at the last
byte, at a byte before it or in a receive; a sequencer with no command in flight, whatever it has latched (after `INIT` its
record is that of `INIT`), or in a blocking phase whose condition does not hold, a disabled bus's wait (log entry 19) among
them. Spec decisions: D24, D26, D40. -/
def Obligations.BlockedTurnChangesNothing : Prop :=
  ∀ (s : State) (b : BusId) (k : Nat) (a : Nat) (v : Byte),
    (s.blocked k = true → takeTurn (.requester k) s = .next s ∧ takeTurn (.store k a v) s = .next s) ∧
    (s.requests[k]? = none ∨ s.requests[k]? = some [] → takeTurn (.requester k) s = .next s) ∧
    (s.isrEnabled b = false → takeTurn (.isr b) s = .next s) ∧
    ((s.bus b).enable = false ∨ (s.bus b).wire.atRest = true ∨
      ((s.bus b).acks = [] ∧ ((s.bus b).wire.phase = .txAddr ∨ (s.bus b).wire.phase = .rxAddr ∨ (s.bus b).wire.phase = .txLast)) ∨
      ((s.bus b).acks = [] ∧ (s.bus b).wire.phase = .tx ∧ (s.bus b).wire.idx + 1 < (s.bus b).txCnt.toNat) ∨
      ((s.bus b).rxData = [] ∧ (s.bus b).wire.phase = .rx) → takeTurn (.wire b) s = .next s) ∧
    (s.seqReady b = false → ((s.bus b).seq.phase.inFlight = true → ∃ i, s.latched b = .ok i ∧ i.opcode ≠ 0) →
      takeTurn (.seq b) s = .next s)

/-- R210, the values the spec gives: every sequencer in `P_UNINIT` with nothing staged, no interrupt path, empty logs, `SLOCK`
free, `FAULT` clear. Spec decisions: D23, D34, D39. -/
def Obligations.ResetLeavesUninitialised : Prop :=
  State.reset.slock = .free ∧ State.reset.fault = none ∧
  ∀ b : BusId, (State.reset.bus b).seq.phase = .uninit ∧ (State.reset.bus b).seq.staged = false ∧
    (State.reset.bus b).irqEn = false ∧ (State.reset.bus b).wlog = []

/-- The invariant holds at reset; it rests on the reset values the model names (log entry 1, DESIGN CHOICE). -/
def Obligations.InvariantHoldsAtReset : Prop := State.reset.inv

/-! ## Lifecycle operations (spec 40) -/

/-- R90: in `P_UNINIT`, `INIT` writes exactly the registers, gate, lock, interrupt path, wire record and log of its pseudocode,
makes its three external calls and returns `OK`; on a bus that does not exist it is `bad_bus`; in every other phase it is
refused. R211: with `SLOCK` free and `FAULT` clear that leaves the clean entry. (Its latches are written by its presentation,
log entry 14, not by `exec`; `callers := []` unblocks the requester.) Spec decisions: D23, D31. -/
def Obligations.InitEffect : Prop :=
  ∀ (s : State) (b : BusId),
    (s.hasBus b = true → (s.bus b).seq.phase = .uninit →
      exec (.init b) s = .next { s.setBus b
        { s.bus b with
          enable := false, shorts := ⟨false, false, false⟩, inten := ⟨false, false, false⟩,
          ev := ⟨false, false, false, false⟩, errSrc := ⟨false, false⟩, gate := .locked,
          pinLock := if (s.desc b).sharesPins then .free else (s.bus b).pinLock,
          pselScl := (s.desc b).sclPin, pselSda := (s.desc b).sdaPin, freq := (s.desc b).speed,
          irqEn := true, wire := ⟨.idle, 0, false⟩, wlog := [],
          seq := { (s.bus b).seq with phase := .idle }, result := 0, callers := [] } with
        extCalls := s.extCalls ++ [.pinConfigure (s.desc b).sclPin .inputOpenDrainPullUp,
          .pinConfigure (s.desc b).sdaPin .inputOpenDrainPullUp, .registerIsr (s.desc b).peripheralId b] }) ∧
    (s.hasBus b = false → exec (.init b) s = .next (s.raise .badBus b)) ∧
    (s.hasBus b = true → (s.bus b).seq.phase ≠ .uninit → exec (.init b) s = .refused .secondInit) ∧
    (s.hasBus b = true → (s.bus b).seq.phase = .uninit → s.slock = .free → s.fault = none →
      ∃ t, exec (.init b) s = .next t ∧ t.cleanEntry b)

/-- R91: `ACQUIRE` on a bus that shares no pins rewrites the three registers, enables and returns `OK` at once; on one that does
it waits in `P_PINLOCK`, has no step while the lock is held (a turn that changes nothing, log entry 12, DESIGN CHOICE), and takes
the free lock with the same writes; that these writes are one step is log entry 13 (DEDUCED). Nothing else is written but the
latches of `OP` and `BUS` (those of the fields it does not use came with the presentation, log entry 6). `bad_bus` on a bus that
does not exist. Spec decisions: D31, D38. -/
def Obligations.AcquireEffect : Prop :=
  ∀ (s : State) (b : BusId),
    (s.hasBus b = true → (s.bus b).seq.phase = .idle → (s.desc b).sharesPins = false →
      exec (.acquire b) s = .next (s.setBus b
        { s.bus b with
          pselScl := (s.desc b).sclPin, pselSda := (s.desc b).sdaPin, freq := (s.desc b).speed, enable := true,
          seq := { (s.bus b).seq with cmd := { (s.bus b).seq.cmd with op := 1, bus := b }, phase := .idle },
          result := 0, callers := [] })) ∧
    (s.hasBus b = true → (s.bus b).seq.phase = .idle → (s.desc b).sharesPins = true →
      exec (.acquire b) s = .next (s.setBus b
        { s.bus b with
          seq := { (s.bus b).seq with cmd := { (s.bus b).seq.cmd with op := 1, bus := b }, phase := .pinLock } })) ∧
    (s.hasBus b = true → (s.bus b).seq.phase = .pinLock → (s.bus b).pinLock ≠ .free → exec (.acquire b) s = .next s) ∧
    (s.hasBus b = true → (s.bus b).seq.phase = .pinLock → (s.bus b).pinLock = .free →
      exec (.acquire b) s = .next (s.setBus b
        { s.bus b with
          pinLock := .held, pselScl := (s.desc b).sclPin, pselSda := (s.desc b).sdaPin, freq := (s.desc b).speed,
          enable := true, seq := { (s.bus b).seq with phase := .idle }, result := 0, callers := [] })) ∧
    (s.hasBus b = false → exec (.acquire b) s = .next (s.raise .badBus b))

/-- R92: `RELEASE` disables the bus, frees the pin lock if it is held, and returns `OK`, in one step (log entry 13, DEDUCED);
while the bus is held it is refused; `bad_bus` on a bus that does not exist. Nothing else is written but the latches of `OP` and
`BUS`. Spec decisions: D31, D38. -/
def Obligations.ReleaseEffect : Prop :=
  ∀ (s : State) (b : BusId),
    (s.hasBus b = true → (s.bus b).seq.phase = .idle → (s.bus b).wire.held = false →
      exec (.release b) s = .next (s.setBus b
        { s.bus b with
          enable := false,
          pinLock := if (s.desc b).sharesPins = true ∧ (s.bus b).pinLock = .held then .free else (s.bus b).pinLock,
          seq := { (s.bus b).seq with cmd := { (s.bus b).seq.cmd with op := 2, bus := b }, phase := .idle },
          result := 0, callers := [] })) ∧
    (s.hasBus b = true → (s.bus b).seq.phase = .idle → (s.bus b).wire.held = true →
      exec (.release b) s = .refused .releaseWhileHeld) ∧
    (s.hasBus b = false → exec (.release b) s = .next (s.raise .badBus b))

/-- R94, R38: what the other protocol role of bus `b` does. While the pin lock of a bus that shares pins is free it may write any
value to the three registers, and nothing else changes; while a session holds the lock, or on a bus that shares no pins, that turn
changes nothing; a write of `PINLOCK[b]`, which R38 gives to `SEQ[b]` alone, is refused on every bus (U9; log entry 10, DEDUCED);
and an `ACQUIRE` that takes the lock then starts from the descriptor's values whatever was written. Spec decisions: D32. -/
def Obligations.OtherRoleConfined : Prop :=
  ∀ (s : State) (b : BusId) (scl sda freq : Nat), s.hasBus b = true →
    ((s.desc b).sharesPins = true → (s.bus b).pinLock = .free →
      takeTurn (.otherConfigure b scl sda freq) s =
        .next (s.setBus b { s.bus b with pselScl := scl, pselSda := sda, freq := freq })) ∧
    ((s.desc b).sharesPins = false ∨ (s.bus b).pinLock = .held → takeTurn (.otherConfigure b scl sda freq) s = .next s) ∧
    (∀ l, takeTurn (.otherPinLock b l) s = .refused .notOwner) ∧
    ((s.bus b).seq.phase = .pinLock → (s.bus b).pinLock = .free → (s.desc b).sharesPins = true →
      ∃ t u, takeTurn (.otherConfigure b scl sda freq) s = .next t ∧ exec (.acquire b) t = .next u ∧
        exec (.acquire b) s = .next u)

/-! ## Contract checks, flag checks, staging (spec 41) -/

/-- R70, R68: in `P_IDLE` a transfer command is latched, all the operands it uses at once, and goes to `P_CHECK`; nothing else
changes. (The field that `WRITE` and `READ` do not use was latched with the presented record, log entry 6.) Spec decisions: D29. -/
def Obligations.CommandAccepted : Prop :=
  ∀ (i : Instr) (s : State), i.isTransfer = true → i.wf = true → s.hasBus i.bus = true → (s.bus i.bus).seq.phase = .idle →
    ∃ c : Cmd, decodeCmd c = .ok i ∧ (i.opcode = 4 ∨ i.opcode = 6 → c.reg = (s.bus i.bus).seq.cmd.reg) ∧
      exec i s = .next (s.setBus i.bus { s.bus i.bus with seq := { (s.bus i.bus).seq with cmd := c, phase := .check } })

/-- R101: the contract checks of the four transfers, first failing row of the table first, with their limits; a destination's
bytes must all be directly addressable. Spec decisions: D9, D11, D16, D35. -/
def Obligations.ContractChecksInOrder : Prop :=
  ∀ (c : Config) (b : BusId) (f : Byte) (a r n : Half) (p : Nat),
    let row (lenMax : Nat) (rx : Bool) (v : Option ContractCheck) : Prop :=
      (p = 0 → v = some .nullBuffer) ∧
      (p ≠ 0 → n = 0 → v = some .zeroLength) ∧
      (p ≠ 0 → n ≠ 0 → lenMax < n.toNat → v = some .overLength) ∧
      (p ≠ 0 → n ≠ 0 → n.toNat ≤ lenMax → 2 ^ c.addrW < p + n.toNat → v = some .rangeWraps) ∧
      (p ≠ 0 → n ≠ 0 → n.toNat ≤ lenMax → p + n.toNat ≤ 2 ^ c.addrW →
        ((rx = true ∧ ∃ k, k < n.toNat ∧ ∀ g ∈ c.dma, ¬(g.1 ≤ p + k ∧ p + k ≤ g.2)) →
          v = some .rxNotAddressable) ∧
        (¬(rx = true ∧ ∃ k, k < n.toNat ∧ ∀ g ∈ c.dma, ¬(g.1 ≤ p + k ∧ p + k ≤ g.2)) → v = none))
    row 255 false (violation c (.write b f a n p)) ∧ row 252 false (violation c (.writeReg b f a r n p)) ∧
    row 255 true (violation c (.read b f a n p)) ∧ row 255 true (violation c (.readReg b f a r n p))

/-- R184: a contract violation sets the latch with the check and the bus and stops the bus's sequencer; no register, no lock, no
result, no byte of memory and no other bus changes, and the requester is not unblocked. It is raised in `P_CHECK` by a failing
check, at acceptance by a bus that does not exist, and by every command of an uninitialised bus (R212). That an
operand check is named before `busy` there, and that a violation overwrites an earlier latch, is log entry 9 (DEDUCED). Spec
decisions: D27, D34. -/
def Obligations.ContractViolationStopsSequencer : Prop :=
  (∀ (i : Instr) (s : State) (v : ContractCheck), i.isTransfer = true → i.wf = true → s.hasBus i.bus = true →
    (s.bus i.bus).seq.phase = .check → violation s.cfg i = some v →
      exec i s = .next { s.setBus i.bus { s.bus i.bus with seq := { (s.bus i.bus).seq with phase := .faulted } } with
        fault := some ⟨v, i.bus⟩ }) ∧
  (∀ (i : Instr) (s : State), i.wf = true → s.hasBus i.bus = false →
    exec i s = .next { s with fault := some ⟨.badBus, i.bus⟩ }) ∧
  (∀ (i : Instr) (s : State), i.wf = true → i.opcode ≠ 0 → s.hasBus i.bus = true → (s.bus i.bus).seq.phase = .uninit →
    exec i s = .next { s.setBus i.bus { s.bus i.bus with seq := { (s.bus i.bus).seq with phase := .faulted } } with
      fault := some ⟨(violation s.cfg i).getD .busy, i.bus⟩ })

/-- R102: with the contract checks passed, a set bit in the operation's reject mask, and no other flag value, returns
`E_UNSUPPORTED` in `P_CHECK`: only `RESULT[b]` and `SEQ[b]` change, and the requester is unblocked (`callers := []`). -/
def Obligations.UnsupportedFlagReturns : Prop :=
  ∀ (i : Instr) (s : State), i.isTransfer = true → i.wf = true → s.hasBus i.bus = true →
    (s.bus i.bus).seq.phase = .check → violation s.cfg i = none →
    (i.opcode = 4 ∨ i.opcode = 5 → i.flags &&& 0x09 ≠ 0) → (i.opcode = 6 ∨ i.opcode = 7 → i.flags &&& 0x0D ≠ 0) →
      exec i s = .next (s.setBus i.bus
        { s.bus i.bus with seq := { (s.bus i.bus).seq with phase := .idle }, result := 1, callers := [] })

/-- R103, R104: a command that passes both checks goes to `P_STAGE_LOCK` exactly when it stages (`WRITE_REG` always, `WRITE`
when some byte of its source is not addressable, a read never), otherwise to `P_PROGRAM`; nothing else changes. Spec decisions:
D10, D16. -/
def Obligations.StagingDecision : Prop :=
  ∀ (i : Instr) (s : State), i.isTransfer = true → i.wf = true → s.hasBus i.bus = true →
    (s.bus i.bus).seq.phase = .check → violation s.cfg i = none →
    (i.opcode = 4 ∨ i.opcode = 5 → i.flags &&& 0x09 = 0) → (i.opcode = 6 ∨ i.opcode = 7 → i.flags &&& 0x0D = 0) →
    ∃ p : Phase, exec i s = .next (s.setBus i.bus { s.bus i.bus with seq := { (s.bus i.bus).seq with phase := p } }) ∧
      (p = .stageLock ∨ p = .program) ∧
      (∀ b f a r n q, i = .writeReg b f a r n q → p = .stageLock) ∧
      (∀ b f a n q, i = .read b f a n q → p = .program) ∧ (∀ b f a r n q, i = .readReg b f a r n q → p = .program) ∧
      (∀ b f a n q, i = .write b f a n q →
        (p = .stageLock ↔ ∃ k, k < n.toNat ∧ ∀ g ∈ s.cfg.dma, ¬(g.1 ≤ q + k ∧ q + k ≤ g.2)))

/-- R66, R104, R112: in `P_STAGE_LOCK` a staging command takes a free `SLOCK`, and has no step while any bus holds it (a turn
that changes nothing, log entry 12, DESIGN CHOICE); in `P_UNSTAGE` a write releases `SLOCK`, whatever its result, and returns the
result built by step 5. -/
def Obligations.StageLockTakenAndReleased : Prop :=
  ∀ (i : Instr) (s : State), i.opcode = 4 ∨ i.opcode = 5 → i.wf = true → s.hasBus i.bus = true →
    let x := s.bus i.bus
    (x.seq.phase = .stageLock → s.slock = .free → exec i s = .next { s.setBus i.bus
      { x with seq := { x.seq with staged := true, phase := .stageCopy } } with slock := .held i.bus }) ∧
    (x.seq.phase = .stageLock → ∀ b, s.slock = .held b → exec i s = .next s) ∧
    (x.seq.phase = .unstage →
      ∃ r : Byte, exec i s = .next { s.setBus i.bus
          { x with seq := { x.seq with staged := false, phase := .idle }, result := r, callers := [] } with slock := .free } ∧
        (x.seq.res = .ok → r = 0) ∧ (x.seq.res = .addrNack → r = 2) ∧ (x.seq.res = .dataNack → r = 3))

/-- R105, R106, R52: in `P_STAGE_COPY` the staging buffer receives, for `WRITE_REG`, the register bytes (high byte first in the
2-byte form, the low byte alone otherwise) and then the payload in address order, for `WRITE` the payload; the bytes after them,
memory and every register keep their values, and the phase is `P_PROGRAM`. Spec decisions: D17. -/
def Obligations.StageCopyFillsBuffer : Prop :=
  ∀ (s : State) (b : BusId) (f : Byte) (a r n : Half) (p : Nat),
    s.hasBus b = true → (s.bus b).seq.phase = .stageCopy → s.staging.length = 256 → p + n.toNat ≤ 2 ^ s.cfg.addrW →
    ((Instr.writeReg b f a r n p).wf = true → n.toNat ≤ 252 →
      ∃ t, exec (.writeReg b f a r n p) s = .next t ∧
        (f.getLsbD 1 = true → t.staging[0]? = some (r.extractLsb' 8 8) ∧ t.staging[1]? = some (r.extractLsb' 0 8) ∧
          (∀ k, k < n.toNat → t.staging[2 + k]? = some (Memory.read s.mem (p + k))) ∧
          (∀ k, 2 + n.toNat ≤ k → t.staging[k]? = s.staging[k]?)) ∧
        (f.getLsbD 1 = false → t.staging[0]? = some (r.extractLsb' 0 8) ∧
          (∀ k, k < n.toNat → t.staging[1 + k]? = some (Memory.read s.mem (p + k))) ∧
          (∀ k, 1 + n.toNat ≤ k → t.staging[k]? = s.staging[k]?)) ∧
        t = { s.setBus b { s.bus b with seq := { (s.bus b).seq with phase := .program } } with staging := t.staging }) ∧
    ((Instr.write b f a n p).wf = true → n.toNat ≤ 255 →
      ∃ t, exec (.write b f a n p) s = .next t ∧
        (∀ k, k < n.toNat → t.staging[k]? = some (Memory.read s.mem (p + k))) ∧
        (∀ k, n.toNat ≤ k → t.staging[k]? = s.staging[k]?) ∧
        t = { s.setBus b { s.bus b with seq := { (s.bus b).seq with phase := .program } } with staging := t.staging })

/-! ## Programming and starting (spec 30 R82, 41 R105 to R109) -/

/-- R109: `P_PROGRAM` of `WRITE` and `WRITE_REG`: address, source, count and shorts; with `NOSTOP` no short is armed and the
wait is for `LASTTX`, otherwise `LTX_STOP` and `STOPPED`. Nothing else changes (`RXPTR`, `RXCNT` keep their values). Spec
decisions: D13 to D15. -/
def Obligations.WritesProgramTransmit : Prop :=
  ∀ (s : State) (b : BusId) (f : Byte) (a r n : Half) (p : Nat), s.hasBus b = true → (s.bus b).seq.phase = .program →
    let tail (src : TxSource) (k : Byte) : Bus :=
      { s.bus b with
        address := a.extractLsb' 0 7, txPtr := src, txCnt := k,
        shorts := if f.getLsbD 2 then ⟨false, false, false⟩ else ⟨false, false, true⟩,
        seq := { (s.bus b).seq with phase := .start, txn := k, succ := if f.getLsbD 2 then .lastTx else .stopped } }
    ((Instr.write b f a n p).wf = true → (s.bus b).seq.staged = true → n.toNat ≤ 255 →
      exec (.write b f a n p) s = .next (s.setBus b (tail .staging (n.setWidth 8)))) ∧
    ((Instr.write b f a n p).wf = true → (s.bus b).seq.staged = false → n.toNat ≤ 255 →
      exec (.write b f a n p) s = .next (s.setBus b (tail (.mem p) (n.setWidth 8)))) ∧
    ((Instr.writeReg b f a r n p).wf = true → n.toNat ≤ 252 →
      exec (.writeReg b f a r n p) s =
        .next (s.setBus b (tail .staging (n.setWidth 8 + if f.getLsbD 1 then 2 else 1))))

/-- R107, R108: `P_PROGRAM` of `READ` (`{LRX_STOP}`, `TXPTR` and `TXCNT` keep their values) and of `READ_REG` (register bytes
high byte first in `REGBUF[b]`, `{LTX_SRX, LRX_STOP}`); both wait for `STOPPED`, and nothing else changes. Spec decisions: D14,
D17. -/
def Obligations.ReadsProgramReceive : Prop :=
  ∀ (s : State) (b : BusId) (f : Byte) (a r n : Half) (p : Nat), s.hasBus b = true → (s.bus b).seq.phase = .program →
    ((Instr.read b f a n p).wf = true →
      exec (.read b f a n p) s = .next (s.setBus b
        { s.bus b with
          address := a.extractLsb' 0 7, rxPtr := p, rxCnt := n.setWidth 8, shorts := ⟨true, false, false⟩,
          seq := { (s.bus b).seq with phase := .start, succ := .stopped } })) ∧
    ((Instr.readReg b f a r n p).wf = true →
      exec (.readReg b f a r n p) s = .next (s.setBus b
        { s.bus b with
          regBuf := if f.getLsbD 1 then ⟨r.extractLsb' 8 8, r.extractLsb' 0 8⟩ else ⟨r.extractLsb' 0 8, (s.bus b).regBuf.b1⟩,
          address := a.extractLsb' 0 7, txPtr := .regBuf, txCnt := if f.getLsbD 1 then 2 else 1,
          rxPtr := p, rxCnt := n.setWidth 8, shorts := ⟨true, true, false⟩,
          seq := { (s.bus b).seq with phase := .start, txn := if f.getLsbD 1 then 2 else 1, succ := .stopped } }))

/-- R82 (task column), R150, R151, R156: in `P_START` an enabled bus at rest starts a transmit (`WRITE`, `WRITE_REG`,
`READ_REG`; `TXAMT` zeroed unless the switch of R223 is off) or a receive (`READ`); on a disabled bus the trigger has no effect;
either way `FINISH` begins. Spec decisions: D15, D18, D24. -/
def Obligations.StartTaskTriggered : Prop :=
  ∀ (i : Instr) (s : State), i.isTransfer = true → i.wf = true → s.hasBus i.bus = true →
    (s.bus i.bus).seq.phase = .start →
    let x := s.bus i.bus
    let q : Seq := { x.seq with phase := .unmask }
    (x.enable = false → exec i s = .next (s.setBus i.bus { x with seq := q })) ∧
    (x.enable = true → x.wire.phase = .idle ∨ x.wire.phase = .held → i.opcode ≠ 6 → x.txCnt ≠ 0 →
      exec i s = .next (s.setBus i.bus
        { x with
          txAmt := if s.cfg.txAmtZeroed then 0 else x.txAmt, wire := ⟨.txAddr, 0, x.wire.held⟩, seq := q })) ∧
    (x.enable = true → x.wire.phase = .idle ∨ x.wire.phase = .held → i.opcode = 6 → x.rxCnt ≠ 0 →
      exec i s = .next (s.setBus i.bus { x with wire := ⟨.rxAddr, 0, x.wire.held⟩, seq := q })) ∧
    (x.enable = true → x.wire.phase ≠ .idle → x.wire.phase ≠ .held → exec i s = .refused .startWhileRunning)

/-! ## `FINISH` (spec 42) and the handler (spec 60) -/

/-- R131: finish step 1 sets the success flag's bit and `ERROR` of `INTEN[b]` in one write, and nothing else; from the masked
state `INTEN[b]` is then exactly those two; if one of the two events is already latched, `IRQ(b)` holds at once. -/
def Obligations.FinishUnmasks : Prop :=
  ∀ (i : Instr) (s : State), i.isTransfer = true → i.wf = true → s.hasBus i.bus = true →
    (s.bus i.bus).seq.phase = .unmask →
    let x := s.bus i.bus
    let y : Bus := { x with
      inten := ⟨x.inten.stopped || decide (x.seq.succ = .stopped), x.inten.lastTx || decide (x.seq.succ = .lastTx), true⟩,
      seq := { x.seq with phase := .wait } }
    exec i s = .next (s.setBus i.bus y) ∧
    (x.inten = ⟨false, false, false⟩ → y.inten = if x.seq.succ = .stopped then ⟨true, false, true⟩ else ⟨false, true, true⟩) ∧
    (x.ev.error = true ∨ (x.seq.succ = .stopped ∧ x.ev.stopped = true) ∨ (x.seq.succ = .lastTx ∧ x.ev.lastTx = true) →
      y.irq = true)

/-- R132, R65: finish step 2 has no step while the gate is locked, nor, by R93, on a disabled bus (log entry 19, DEDUCED);
otherwise the unlocked gate is consumed and the phase is `P_POLL` for a no-stop write, `P_ACK` else. R133: the poll passes exactly
when `TXAMT[b]` equals the count or the error event is latched. R134: `P_ACK` clears `EV[b].STOPPED`. That 'no step' is a turn
which changes nothing is log entry 12 (DESIGN CHOICE). Spec decisions: D2, D24. -/
def Obligations.FinishWaitsPollsAcknowledges : Prop :=
  ∀ (i : Instr) (s : State), i.isTransfer = true → i.wf = true → s.hasBus i.bus = true →
    let x := s.bus i.bus
    (x.seq.phase = .wait → x.gate = .locked ∨ x.enable = false → exec i s = .next s) ∧
    (x.seq.phase = .wait → x.gate = .unlocked → x.enable = true →
      exec i s = .next (s.setBus i.bus
        { x with gate := .locked, seq := { x.seq with phase := if x.seq.succ = .lastTx then .poll else .ack } })) ∧
    (x.seq.phase = .poll → x.txAmt = x.seq.txn ∨ x.ev.error = true →
      exec i s = .next (s.setBus i.bus { x with seq := { x.seq with phase := .ack } })) ∧
    (x.seq.phase = .poll → ¬(x.txAmt = x.seq.txn ∨ x.ev.error = true) → exec i s = .next s) ∧
    (x.seq.phase = .ack →
      exec i s = .next (s.setBus i.bus
        { x with ev := { x.ev with stopped := false }, seq := { x.seq with phase := .classify } }))

/-- R135: the classification: an address NACK is code 2, else a data NACK 3, else 0, whatever the other flags are; `ERRSRC` and
`EV.ERROR` are cleared; a command that staged goes on to `P_UNSTAGE` with the result, any other returns it. Spec decisions: D25
(both bits set; an error event with no source). -/
def Obligations.FinishClassifies : Prop :=
  ∀ (i : Instr) (s : State), i.isTransfer = true → i.wf = true → s.hasBus i.bus = true →
    (s.bus i.bus).seq.phase = .classify →
    let x := s.bus i.bus
    let r : Result := if x.errSrc.anack then .addrNack else if x.errSrc.dnack then .dataNack else .ok
    let y : Bus := { x with errSrc := ⟨false, false⟩, ev := { x.ev with error := false } }
    (x.seq.staged = true → exec i s = .next (s.setBus i.bus { y with seq := { x.seq with res := r, phase := .unstage } })) ∧
    (x.seq.staged = false →
      exec i s = .next (s.setBus i.bus
        { y with
          seq := { x.seq with res := r, phase := .idle },
          result := if x.errSrc.anack then 2 else if x.errSrc.dnack then 3 else 0, callers := [] }))

/-- R187, R186, R29: the handler's turn, when `IRQEN[b]` is 1 and a latched event is unmasked, masks all three sources and
signals the gate, and changes nothing else; otherwise it has no step, a turn that changes nothing (log entry 12, DESIGN CHOICE).
`LASTRX` never enables it (R158). Spec decisions: D26. -/
def Obligations.HandlerMasksAndSignals : Prop :=
  ∀ (s : State) (b : BusId), s.hasBus b = true →
    let x := s.bus b
    let pending := (x.ev.stopped = true ∧ x.inten.stopped = true) ∨ (x.ev.lastTx = true ∧ x.inten.lastTx = true) ∨
      (x.ev.error = true ∧ x.inten.error = true)
    (x.irqEn = true → pending →
      takeTurn (.isr b) s = .next (s.setBus b { x with inten := ⟨false, false, false⟩, gate := .unlocked })) ∧
    (¬(x.irqEn = true ∧ pending) → takeTurn (.isr b) s = .next s)

/-- R189: after the handler has run no turn but the bus's own sequencer in `P_UNMASK` lets it run again: any other step keeps
all sources masked. Spec decisions: D26. -/
def Obligations.HandlerFiresOnce : Prop :=
  ∀ (s t : State) (b : BusId), (s.bus b).inten = ⟨false, false, false⟩ → step s = .next t →
    (s.bus b).seq.phase ≠ .unmask → (t.bus b).inten = ⟨false, false, false⟩ ∧ t.isrEnabled b = false

/-! ## The wire engine (spec 43) -/

/-- R152: the address phase emits a start, repeated exactly when one is outstanding, the address with the direction of the task,
and the slave's answer; acknowledged, it goes on to bytes, and nothing else changes. Spec decisions: D40. -/
def Obligations.AddressPhaseAcknowledged : Prop :=
  ∀ (s : State) (b : BusId) (rest : List Answer), s.hasBus b = true → (s.bus b).enable = true →
    (s.bus b).wire.phase = .txAddr ∨ (s.bus b).wire.phase = .rxAddr → (s.bus b).acks = .ack :: rest →
    let x := s.bus b
    let wr : Bool := x.wire.phase == .txAddr
    takeTurn (.wire b) s = .next (s.setBus b
      { x with
        wlog := x.wlog ++ [if x.wire.held then .restart else .start,
          .addr x.address (if wr then .write else .read), .answer .ack],
        acks := rest, wire := ⟨if wr then .tx else .rx, x.wire.idx, true⟩ })

/-- R160, R152: an address NACK latches `ANACK` and the error event and ends the transfer: the log gains the address phase and
the NACK, and a stop exactly when the engine stops the bus (always under `NACK_STOP = stop`, never under `hold`, a free
value, log entry 8, under `either`), then with `EV.STOPPED` set and the bus free; held otherwise. No data symbol, no byte of
memory, no `TXAMT`, `SHORTS`, gate, mask or sequencer state changes. Spec decisions: D20. -/
def Obligations.AddressNackEndsTransfer : Prop :=
  ∀ (s : State) (b : BusId) (rest : List Answer), s.hasBus b = true → (s.bus b).enable = true →
    (s.bus b).wire.phase = .txAddr ∨ (s.bus b).wire.phase = .rxAddr → (s.bus b).acks = .nack :: rest →
    let x := s.bus b
    let y (stop : Bool) : Bus := { x with
      wlog := x.wlog ++ [if x.wire.held then .restart else .start,
        .addr x.address (if x.wire.phase = .txAddr then .write else .read), .answer .nack] ++ (if stop then [.stop] else []),
      acks := rest, errSrc := { x.errSrc with anack := true },
      ev := { x.ev with error := true, stopped := x.ev.stopped || stop },
      wire := if stop then ⟨.idle, 0, false⟩ else ⟨.held, 0, true⟩ }
    ∃ stop d, takeTurn (.wire b) s = .next { s.setBus b (y stop) with draws := d } ∧
      (s.cfg.nackStop = .stop → stop = true) ∧ (s.cfg.nackStop = .hold → stop = false)

/-- R153, R55: a transmitted byte that is not the last: the source's byte goes out, and acknowledged it is counted. Spec
decisions: D18. -/
def Obligations.TransmitByteAcknowledged : Prop :=
  ∀ (s : State) (b : BusId) (rest : List Answer) (d : Byte), s.hasBus b = true → (s.bus b).enable = true →
    (s.bus b).wire.phase = .tx → (s.bus b).wire.idx + 1 < (s.bus b).txCnt.toNat → (s.bus b).acks = .ack :: rest →
    (∀ p, (s.bus b).txPtr = .mem p → d = Memory.read s.mem ((p + (s.bus b).wire.idx) % 2 ^ s.cfg.addrW)) →
    ((s.bus b).txPtr = .staging → s.staging[(s.bus b).wire.idx]? = some d) →
    ((s.bus b).txPtr = .regBuf →
      ((s.bus b).wire.idx = 0 ∧ d = (s.bus b).regBuf.b0) ∨ ((s.bus b).wire.idx = 1 ∧ d = (s.bus b).regBuf.b1)) →
    takeTurn (.wire b) s = .next (s.setBus b
      { s.bus b with
        wlog := (s.bus b).wlog ++ [.data d, .answer .ack], acks := rest,
        txAmt := BitVec.ofNat 8 ((s.bus b).wire.idx + 1), wire := { (s.bus b).wire with idx := (s.bus b).wire.idx + 1 } })

/-- R153, R155, R160: a data NACK of byte `i`, the last or not, logs the byte and the NACK, latches `DNACK` and the error event,
leaves `TXAMT` at `i` or `i + 1` whatever the free value (log entry 8) is, and ends the transfer with a stop or a held bus: an
armed short is dropped. `LASTTX` is not set by it, and no byte of memory, no shorts, mask, gate or sequencer state changes. Spec
decisions: D18, D20. -/
def Obligations.DataNackEndsTransfer : Prop :=
  ∀ (s : State) (b : BusId) (rest : List Answer) (d : Byte) (i : Nat), s.hasBus b = true → (s.bus b).enable = true →
    ((s.bus b).wire.phase = .tx ∧ i = (s.bus b).wire.idx ∧ i + 1 < (s.bus b).txCnt.toNat) ∨
      ((s.bus b).wire.phase = .txLast ∧ i + 1 = (s.bus b).txCnt.toNat) →
    (s.bus b).acks = .nack :: rest → s.txByte b i = .ok d →
    let x := s.bus b
    let y (stop : Bool) (amt : Byte) : Bus := { x with
      wlog := x.wlog ++ [.data d, .answer .nack] ++ (if stop then [.stop] else []), acks := rest, txAmt := amt,
      errSrc := { x.errSrc with dnack := true }, ev := { x.ev with error := true, stopped := x.ev.stopped || stop },
      wire := if stop then ⟨.idle, 0, false⟩ else ⟨.held, 0, x.wire.held⟩ }
    ∃ stop amt n, takeTurn (.wire b) s = .next { s.setBus b (y stop amt) with draws := n } ∧
      (amt = BitVec.ofNat 8 i ∨ amt = BitVec.ofNat 8 (i + 1)) ∧
      (s.cfg.nackStop = .stop → stop = true) ∧ (s.cfg.nackStop = .hold → stop = false)

/-- R154: when the byte to send is the last, `EV.LASTTX` is set and the phase is `W_TXLAST`; nothing is put on the wire and
nothing else changes, whatever the slave would answer; with a count of 1 that is the step right after the address phase. Spec
decisions: D19. -/
def Obligations.LastByteBegins : Prop :=
  ∀ (s : State) (b : BusId), s.hasBus b = true → (s.bus b).enable = true → (s.bus b).wire.phase = .tx →
    (s.bus b).wire.idx + 1 = (s.bus b).txCnt.toNat →
    takeTurn (.wire b) s = .next (s.setBus b
      { s.bus b with
        ev := { (s.bus b).ev with lastTx := true }, wire := { (s.bus b).wire with phase := .txLast } })

/-- R155, R159, R162: the last byte, acknowledged, is counted; then the armed short acts: start-RX, stop, or, with none armed,
the bus stays held. Nothing else changes. Spec decisions: D13, D19, D22. -/
def Obligations.LastByteAcknowledged : Prop :=
  ∀ (s : State) (b : BusId) (rest : List Answer) (d : Byte), s.hasBus b = true → (s.bus b).enable = true →
    (s.bus b).wire.phase = .txLast → (s.bus b).txCnt ≠ 0 → (s.bus b).acks = .ack :: rest →
    s.txByte b ((s.bus b).txCnt.toNat - 1) = .ok d →
    let x := s.bus b
    let y : Bus := { x with wlog := x.wlog ++ [.data d, .answer .ack], acks := rest, txAmt := x.txCnt }
    (x.shorts.ltxSrx = true → x.shorts.ltxStop = false → x.rxCnt ≠ 0 →
      takeTurn (.wire b) s = .next (s.setBus b { y with wire := ⟨.rxAddr, 0, x.wire.held⟩ })) ∧
    (x.shorts.ltxSrx = false → x.shorts.ltxStop = true →
      takeTurn (.wire b) s = .next (s.setBus b
        { y with wlog := y.wlog ++ [.stop], ev := { x.ev with stopped := true }, wire := ⟨.idle, 0, false⟩ })) ∧
    (x.shorts.ltxSrx = false → x.shorts.ltxStop = false →
      takeTurn (.wire b) s = .next (s.setBus b { y with wire := { x.wire with phase := .held } })) ∧
    (x.shorts.ltxSrx = true → x.shorts.ltxStop = true → takeTurn (.wire b) s = .refused .bothShorts)

/-- R157, R69: a received byte is stored at `RXPTR + i` (in `ADDR_W` bits) and logged; the last one also sets `EV.LASTRX` and,
with `LRX_STOP` armed, stops the bus; without it, which the spec calls unspecified (R168), the step is refused (log entry 17,
DEDUCED). Every other byte of memory reads as before and nothing else changes. Spec decisions: D35. -/
def Obligations.ReceivedByteStored : Prop :=
  ∀ (s : State) (b : BusId) (rest : List Byte) (d : Byte), s.hasBus b = true → (s.bus b).enable = true →
    (s.bus b).wire.phase = .rx → (s.bus b).rxData = d :: rest → Memory.wf s.mem = true →
    let x := s.bus b
    let at_ := (x.rxPtr + x.wire.idx) % 2 ^ s.cfg.addrW
    let stored (t : State) : Prop := Memory.read t.mem at_ = d ∧ ∀ a, a ≠ at_ → Memory.read t.mem a = Memory.read s.mem a
    (x.wire.idx + 1 < x.rxCnt.toNat →
      ∃ t, takeTurn (.wire b) s = .next t ∧ stored t ∧
        t = { s.setBus b
          { x with
            wlog := x.wlog ++ [.data d], rxData := rest, wire := { x.wire with idx := x.wire.idx + 1 } } with mem := t.mem }) ∧
    (x.wire.idx + 1 = x.rxCnt.toNat → x.shorts.lrxStop = true →
      ∃ t, takeTurn (.wire b) s = .next t ∧ stored t ∧
        t = { s.setBus b
          { x with
            wlog := x.wlog ++ [.data d, .stop], rxData := rest, ev := { x.ev with lastRx := true, stopped := true },
            wire := ⟨.idle, 0, false⟩ } with mem := t.mem }) ∧
    (x.wire.idx + 1 = x.rxCnt.toNat → x.shorts.lrxStop = false → takeTurn (.wire b) s = .refused .receiveWithoutStop)

/-- R162: the shorts need no unmasking and no latched flag: the wire engine acts the same whatever `INTEN[b]` and a stale
`EV[b].LASTTX` are, and leaves the mask alone. Spec decisions: D22. -/
def Obligations.WireIgnoresMaskAndStaleEvents : Prop :=
  ∀ (s : State) (b : BusId) (m : IntEn),
    takeTurn (.wire b) (s.updBus b (fun x => { x with inten := m })) =
      mapNext (fun t => t.updBus b (fun x => { x with inten := m })) (takeTurn (.wire b) s) ∧
    takeTurn (.wire b) (s.updBus b (fun x => { x with ev := { x.ev with lastTx := true } })) =
      mapNext (fun t => t.updBus b (fun x => { x with ev := { x.ev with lastTx := true } })) (takeTurn (.wire b) s)

/-! ## The register view (spec 10 R37, 30 R83) -/

/-- R83, R37, R55, under the default map (which the spec marks general knowledge): a task is triggered by writing 1, an event is
acknowledged by writing 0 to its flag, all four of `EV`, an `ERRSRC` bit by writing 1 to it, the two views of `INTEN` set and
clear the bits that are 1 and leave the others, and `SHORTS` is written whole; a stop task on a disabled bus has no effect (R150).
That the bits of a written word which name no field are ignored is log entry 25 (DESIGN CHOICE). Spec decisions: D12. -/
def Obligations.RegisterViewWrites : Prop :=
  ∀ (c : Config) (x : Bus) (w : Word), c.regMap = RegMap.standard →
    Bus.regWrite c x 1 .tStartTx = startTx c x ∧ Bus.regWrite c x 1 .tStartRx = startRx x ∧
    (x.enable = true → Bus.regWrite c x 1 .tStop = .ok x.stop) ∧ (x.enable = false → Bus.regWrite c x 1 .tStop = .ok x) ∧
    Bus.regWrite c x 0 .evStopped = .ok { x with ev := { x.ev with stopped := false } } ∧
    Bus.regWrite c x 0 .evError = .ok { x with ev := { x.ev with error := false } } ∧
    Bus.regWrite c x 0 .evLastRx = .ok { x with ev := { x.ev with lastRx := false } } ∧
    Bus.regWrite c x 0 .evLastTx = .ok { x with ev := { x.ev with lastTx := false } } ∧
    Bus.regWrite c x w .errSrc =
      .ok { x with errSrc := ⟨x.errSrc.anack && !w.getLsbD 1, x.errSrc.dnack && !w.getLsbD 2⟩ } ∧
    Bus.regWrite c x w .intenSet =
      .ok { x with
        inten := ⟨x.inten.stopped || w.getLsbD 1, x.inten.lastTx || w.getLsbD 24, x.inten.error || w.getLsbD 9⟩ } ∧
    Bus.regWrite c x w .intenClr =
      .ok { x with
        inten := ⟨x.inten.stopped && !w.getLsbD 1, x.inten.lastTx && !w.getLsbD 24, x.inten.error && !w.getLsbD 9⟩ } ∧
    Bus.regWrite c x w .shorts = .ok { x with shorts := ⟨w.getLsbD 12, w.getLsbD 7, w.getLsbD 9⟩ }

/-! ## Frames and ownership (spec 10 R38, R39) -/

/-- R38, R39, R5: what no command changes: when `exec` gives a next state, every other bus, the configuration, every byte of
memory, the waiting commands, the schedule and the free-value count are as before, and so are the slave's answers; but for
`INIT`, which clears them, so are on the command's own bus the wire log, `IRQEN`, `EV.LASTTX`, `EV.LASTRX` and whether the
bus is held; the external calls change only by `INIT`; and the blocked requesters of the command's bus change only by a return,
which unblocks them. -/
def Obligations.CommandFrame : Prop :=
  ∀ (i : Instr) (s t : State), exec i s = .next t →
    t.cfg = s.cfg ∧ (∀ a, Memory.read t.mem a = Memory.read s.mem a) ∧ t.requests = s.requests ∧ t.sched = s.sched ∧
    t.draws = s.draws ∧ (∀ c, c ≠ i.bus → t.bus c = s.bus c) ∧ (i.opcode ≠ 0 → t.extCalls = s.extCalls) ∧
    (t.bus i.bus).acks = (s.bus i.bus).acks ∧ (t.bus i.bus).rxData = (s.bus i.bus).rxData ∧
    ((t.bus i.bus).callers = (s.bus i.bus).callers ∨
      ((t.bus i.bus).callers = [] ∧ (t.bus i.bus).seq.phase = .idle)) ∧
    (i.opcode ≠ 0 → (t.bus i.bus).wlog = (s.bus i.bus).wlog ∧ (t.bus i.bus).irqEn = (s.bus i.bus).irqEn ∧
      (t.bus i.bus).ev.lastTx = (s.bus i.bus).ev.lastTx ∧ (t.bus i.bus).ev.lastRx = (s.bus i.bus).ev.lastRx ∧
      (t.bus i.bus).wire.held = (s.bus i.bus).wire.held)

/-- R105 to R108: the frame of the transfer operations: no step of one changes the enable, the pin-select and frequency
fields or the pin lock; a read changes no transmit register but `READ_REG`'s own, no staging byte and no `SLOCK`; a write
changes no receive register and no `REGBUF`. -/
def Obligations.TransferFrame : Prop :=
  ∀ (i : Instr) (s t : State), i.isTransfer = true → exec i s = .next t →
    (let x := s.bus i.bus; let y := t.bus i.bus
     y.enable = x.enable ∧ y.pselScl = x.pselScl ∧ y.pselSda = x.pselSda ∧ y.freq = x.freq ∧ y.pinLock = x.pinLock ∧
     (i.opcode = 6 ∨ i.opcode = 7 → t.staging = s.staging ∧ t.slock = s.slock ∧ y.seq.staged = x.seq.staged) ∧
     (i.opcode = 6 → y.txPtr = x.txPtr ∧ y.txCnt = x.txCnt ∧ y.txAmt = x.txAmt ∧ y.regBuf = x.regBuf) ∧
     (i.opcode = 4 ∨ i.opcode = 5 → y.rxPtr = x.rxPtr ∧ y.rxCnt = x.rxCnt ∧ y.regBuf = x.regBuf))

/-- R38, R24: the frame of the wire engine: it writes only `TXAMT`, `EV`, `ERRSRC`, its record and the log of its own bus, the
slave's answers it uses, and memory; memory only in a receive, at `RXPTR + i` alone. Spec decisions: D39. -/
def Obligations.WireFrame : Prop :=
  ∀ (s t : State) (b : BusId), Memory.wf s.mem = true → takeTurn (.wire b) s = .next t →
    t = { s.setBus b
        { s.bus b with
          txAmt := (t.bus b).txAmt, ev := (t.bus b).ev, errSrc := (t.bus b).errSrc, wire := (t.bus b).wire,
          wlog := (t.bus b).wlog, acks := (t.bus b).acks, rxData := (t.bus b).rxData } with
      mem := t.mem, draws := t.draws } ∧
    (s.bus b).wlog <+: (t.bus b).wlog ∧
    (∀ a, (s.bus b).wire.phase = .rx → a ≠ ((s.bus b).rxPtr + (s.bus b).wire.idx) % 2 ^ s.cfg.addrW →
      Memory.read t.mem a = Memory.read s.mem a) ∧
    ((s.bus b).wire.phase ≠ .rx → t.mem = s.mem)

/-- R39: per-bus state is disjoint. The turns of bus `b`'s sequencer, wire engine and handler do not read the state of another
bus: whatever that state is, they do the same and leave it. And they write nothing but bus `b`, `STAGING`, `SLOCK`, `MEM` and
`FAULT` (and the count of free values used, the model's own, log entry 8). -/
def Obligations.BusesIndependent : Prop :=
  ∀ (s : State) (b : BusId) (k : Turn), k = .seq b ∨ k = .wire b ∨ k = .isr b →
    (∀ (c : BusId) (x : Bus), c ≠ b → takeTurn k (s.setBus c x) = mapNext (fun t => t.setBus c x) (takeTurn k s)) ∧
    (∀ t, takeTurn k s = .next t →
      t = { s.setBus b (t.bus b) with
        staging := t.staging, slock := t.slock, mem := t.mem, fault := t.fault, draws := t.draws })

/-- R38, R64, R30: only the sequencer that holds `SLOCK`, in its own turn in `P_STAGE_COPY`, writes the staging buffer, so no
staged frame is changed while its command is in flight. -/
def Obligations.StagingWrittenByHolderOnly : Prop :=
  ∀ (s t : State), s.lockInv → step s = .next t → t.staging ≠ s.staging →
    ∃ b, s.turn = some (.seq b) ∧ s.slock = .held b ∧ (s.bus b).seq.phase = .stageCopy ∧ (t.bus b).seq.phase = .program

/-- R38, R36, R5: the bytes of memory change only in the turn of a wire engine that receives or of a requester that stores, one
byte a step. A requester that is not blocked stores the byte it names and changes nothing else; an address that `ADDR_W` bits
cannot name does not exist (R50), and the store faults. (Which requester may store, and when, is log entry 24, DEDUCED.) -/
def Obligations.MemoryWrittenByteAtATime : Prop :=
  (∀ (s t : State), Memory.wf s.mem = true → step s = .next t →
    ∃ a, ∀ x, Memory.read t.mem x ≠ Memory.read s.mem x → x = a ∧
      ((∃ b, s.turn = some (.wire b) ∧ (s.bus b).wire.phase = .rx ∧
          a = ((s.bus b).rxPtr + (s.bus b).wire.idx) % 2 ^ s.cfg.addrW) ∨
       (∃ k v, s.turn = some (.store k a v)))) ∧
  (∀ (s : State) (k : Nat) (a : Nat) (v : Byte), s.blocked k = false →
    (a < 2 ^ s.cfg.addrW → Memory.wf s.mem = true →
      ∃ m, takeTurn (.store k a v) s = .next { s with mem := m } ∧ Memory.read m a = v ∧
        ∀ x, x ≠ a → Memory.read m x = Memory.read s.mem x) ∧
    (2 ^ s.cfg.addrW ≤ a → takeTurn (.store k a v) s = .fault .noSuchAddress))

/-- R7, R35, R184, R13, R93: no step writes the configuration, clears the fault latch, or moves a faulted sequencer; and a
transfer that waits on a disabled bus, whatever the gate and the latched events are, stays in `P_WAIT`: no step ends its wait but
the contract violation of a second command (log entry 19, DEDUCED, is the case of a stale `EV.LASTTX`). Spec decisions: D24, D34. -/
def Obligations.ConfigurationAndFaultPersist : Prop :=
  ∀ (s t : State), step s = .next t →
    t.cfg = s.cfg ∧ (s.fault ≠ none → t.fault ≠ none) ∧
    (∀ b, (s.bus b).seq.phase = .faulted → (t.bus b).seq.phase = .faulted) ∧
    (∀ b, (s.bus b).seq.phase = .wait → (s.bus b).enable = false →
      (t.bus b).enable = false ∧
      ((t.bus b).seq.phase = .wait ∨ ((t.bus b).seq.phase = .faulted ∧ ∃ v, t.fault = some ⟨v, b⟩)))

/-- R161: `EV.LASTTX` and `EV.LASTRX` are never acknowledged: once set they stay set in every step of an initialised bus. Spec
decisions: D21. -/
def Obligations.LastByteEventsStayLatched : Prop :=
  ∀ (s t : State) (b : BusId), step s = .next t → (s.bus b).seq.phase ≠ .uninit →
    ((s.bus b).ev.lastTx = true → (t.bus b).ev.lastTx = true) ∧ ((s.bus b).ev.lastRx = true → (t.bus b).ev.lastRx = true)

/-! ## Invariants -/

/-- 20 R50, 10 R30, R11, R18, R20: every step keeps memory canonical and inside the address space, the staging buffer at its
capacity, and every latched or programmed pointer within `ADDR_W` bits (log entry 16). (What an unlisted byte reads as is log
entry 3, DESIGN CHOICE.) -/
def Obligations.StepKeepsMemoryInvariant : Prop := ∀ s t : State, s.memoryInv → step s = .next t → t.memoryInv

/-- 10 R31, 41 R112: every step keeps `SLOCK` with exactly the sequencer whose command staged: at most one holder. -/
def Obligations.StepKeepsLockInvariant : Prop := ∀ s t : State, s.lockInv → step s = .next t → t.lockInv

/-- 42 R137, 60 R189: every step keeps the gate locked outside `P_WAIT`, and never both signalled and unmasked. -/
def Obligations.StepKeepsGateInvariant : Prop := ∀ s t : State, s.gateInv → step s = .next t → t.gateInv

/-- 42 R136, 41 R114, 42 R133: with `TXAMT` zeroed at a start (R151), every step keeps the ties between sequencer and wire
engine. Spec decisions: D18, D21. -/
def Obligations.StepKeepsRestInvariant : Prop :=
  ∀ s t : State, s.cfg.txAmtZeroed = true → s.gateInv → s.restInv → step s = .next t → t.restInv

/-- The whole invariant is kept by every step. -/
def Obligations.StepKeepsInvariant : Prop :=
  ∀ s t : State, s.cfg.txAmtZeroed = true → s.inv → step s = .next t → t.inv

/-- R168, R69, R79: one step from a state with the invariant is refused only for a reserved encoding (U8), a second `INIT` (U1), a
`RELEASE` of a held bus (U2) or the other role's write of the pin lock (U9; log entry 10, DEDUCED), and faults only for a
requester's store outside the address space: it meets none of the start, count, short and receive configurations of R168 (log
entry 17, DEDUCED) and no index outside a buffer. The premise is the invariant alone. A run keeps the invariant only where a start
zeroes `TXAMT` (`StepKeepsInvariant`), so this says nothing of a run with the switch of R223 off (log entry 22, DEDUCED), which can
come to a refused start. Spec decisions: D8, D31. -/
def Obligations.InvariantStateRefusesOnlyNamedCases : Prop :=
  ∀ s : State, s.inv →
    (∀ r, step s = .refused r →
      (∃ e, r = .reservedEncoding e) ∨ r = .secondInit ∨ r = .releaseWhileHeld ∨ r = .notOwner) ∧
    (∀ f, step s = .fault f → f = .noSuchAddress)

/-- R114, R136: one step, from a state with the invariant, that leaves a bus in `P_IDLE` leaves its mask, gate, stopped and error
events and error source clear, `SLOCK` not held by it, and nothing running on its wire. The premise is the invariant, which a run
keeps only where a start zeroes `TXAMT` (`StepKeepsInvariant`): of a run with the switch of R223 off (log entry 22, DEDUCED), in
which a no-stop write may return while its transfer still runs, this says nothing. -/
def Obligations.InvariantStateReturnLeavesBusUsable : Prop :=
  ∀ (s t : State) (b : BusId), s.inv → step s = .next t → (t.bus b).seq.phase = .idle → t.recovered b

/-! ## Whole transfers -/

/-- R151 to R155, R159, R163: the wire engine alone, a slave that acknowledges everything: a transmit of a frame of any
length puts the start, the address, every byte with its acknowledge, and the stop exactly when `LTX_STOP` is armed, on the
wire; `TXAMT` ends at the count. A run with the `LTX_SRX` short is in `ReadRegisterCommandRuns`. The turns are one schedule (log
entry 4, DESIGN CHOICE). Spec decisions: D13, D18, D19. -/
def Obligations.TransmitRunSendsFrame : Prop :=
  ∀ (s : State) (b : BusId) (frame : List Byte) (rest : List Answer) (sch : List Turn),
    s.hasBus b = true → (s.bus b).enable = true → (s.bus b).wire.phase = .txAddr → (s.bus b).wire.idx = 0 →
    0 < frame.length → (s.bus b).txCnt.toNat = frame.length → (s.bus b).shorts.ltxSrx = false →
    (∀ k d, frame[k]? = some d → s.txByte b k = .ok d) →
    (s.bus b).acks = List.replicate (frame.length + 1) .ack ++ rest →
    s.sched = List.replicate (frame.length + 2) (Turn.wire b) ++ sch →
    ∃ t : State, Host.Core.run Sys2Proof.core (frame.length + 2) s = .next t ∧ t.sched = sch ∧ t.mem = s.mem ∧
      (t.bus b).wlog = (s.bus b).wlog ++ addressLog (s.bus b).wire.held (s.bus b).address .write ++ sentLog frame ++
        (if (s.bus b).shorts.ltxStop then [.stop] else []) ∧
      (t.bus b).txAmt = (s.bus b).txCnt ∧ (t.bus b).acks = rest ∧ (t.bus b).ev.lastTx = true ∧
      ((s.bus b).shorts.ltxStop = true → (t.bus b).wire = ⟨.idle, 0, false⟩ ∧ (t.bus b).ev.stopped = true) ∧
      ((s.bus b).shorts.ltxStop = false → (t.bus b).wire.phase = .held ∧ (t.bus b).wire.held = true)

/-- R152, R156 to R159, R53: a receive of any length from a slave that acknowledges its address stores the slave's bytes in
address order at the destination, leaves every other byte alone, and ends in the stop. The turns are one schedule (log entry 4,
DESIGN CHOICE). -/
def Obligations.ReceiveRunStoresBytes : Prop :=
  ∀ (s : State) (b : BusId) (data : List Byte) (restA : List Answer) (restD : List Byte) (sch : List Turn),
    s.hasBus b = true → (s.bus b).enable = true → (s.bus b).wire.phase = .rxAddr → (s.bus b).wire.idx = 0 →
    0 < data.length → (s.bus b).rxCnt.toNat = data.length → (s.bus b).shorts.lrxStop = true → Memory.wf s.mem = true →
    (s.bus b).rxPtr + data.length ≤ 2 ^ s.cfg.addrW →
    (s.bus b).acks = .ack :: restA → (s.bus b).rxData = data ++ restD →
    s.sched = List.replicate (data.length + 1) (Turn.wire b) ++ sch →
    ∃ t : State, Host.Core.run Sys2Proof.core (data.length + 1) s = .next t ∧ t.sched = sch ∧
      (∀ k d, data[k]? = some d → Memory.read t.mem ((s.bus b).rxPtr + k) = d) ∧
      (∀ a, (a < (s.bus b).rxPtr ∨ (s.bus b).rxPtr + data.length ≤ a) →
        Memory.read t.mem a = Memory.read s.mem a) ∧
      (t.bus b).wlog = (s.bus b).wlog ++ addressLog (s.bus b).wire.held (s.bus b).address .read ++ data.map .data ++ [.stop] ∧
      (t.bus b).wire = ⟨.idle, 0, false⟩ ∧ (t.bus b).ev.stopped = true ∧ (t.bus b).ev.lastRx = true ∧
      (t.bus b).rxData = restD ∧ (t.bus b).acks = restA

/-- R105, R109, R112, R130 to R139, R222: a `WRITE` of any form and length, from addressable memory or staged, with or without
`NOSTOP`, presented in an open session to a slave that acknowledges everything, in one order of turns (the handler after the last
byte; log entry 4, DESIGN CHOICE): it returns `OK`; the log gains the payload's frame, and the stop exactly when `NOSTOP` is clear;
with `NOSTOP` the bus is left held. Memory is as before; a staged payload is at the head of the staging buffer, whose other bytes
are as before, and `SLOCK` is free again. Spec decisions: D10, D13 to D16, D18. -/
def Obligations.WriteCommandRuns : Prop :=
  ∀ (s : State) (k : Nat) (b : BusId) (f : Byte) (a n : Half) (p : Nat) (q : List Cmd96) (rest : List Answer) (sch : List Turn),
    let i := Instr.write b f a n p
    let frame := s.memBytes p n.toNat
    let turns := turnsOf s.cfg i k (n.toNat + 2)
    s.aboutToPresent k i q → (s.bus b).acks = List.replicate (n.toNat + 1) .ack ++ rest → s.sched = turns ++ sch →
    ∃ t : State, Host.Core.run Sys2Proof.core turns.length s = .next t ∧ s.returned t k i q sch 0 ∧ t.mem = s.mem ∧
      (i.stages s.cfg = true → t.staging = frame ++ s.staging.drop n.toNat) ∧ (t.bus b).txAmt.toNat = n.toNat ∧
      (t.bus b).acks = rest ∧ (t.bus b).wire.held = f.getLsbD 2 ∧
      (t.bus b).wlog = (s.bus b).wlog ++ addressLog (s.bus b).wire.held (a.extractLsb' 0 7) .write ++ sentLog frame ++
        (if f.getLsbD 2 then [] else [.stop])

/-- R106, R109, R112, R52: a `WRITE_REG` of any payload length, with or without `NOSTOP`, in an open session with `SLOCK` free and
a slave that acknowledges everything, in one order of turns (log entry 4, DESIGN CHOICE): it returns `OK`, the transmitted frame is
the register bytes, high byte first, directly followed by the payload with no repeated start between them, the stop is there
exactly when `NOSTOP` is clear, the frame is at the head of the staging buffer, and `SLOCK` is free again. Spec decisions: D10,
D13 to D15, D17, D18. -/
def Obligations.WriteRegisterCommandRuns : Prop :=
  ∀ (s : State) (k : Nat) (b : BusId) (f : Byte) (a r n : Half) (p : Nat) (q : List Cmd96) (rest : List Answer) (sch : List Turn),
    let i := Instr.writeReg b f a r n p
    let frame : List Byte := (if f.getLsbD 1 then [r.extractLsb' 8 8, r.extractLsb' 0 8] else [r.extractLsb' 0 8]) ++ s.memBytes p n.toNat
    let turns := turnsOf s.cfg i k (frame.length + 2)
    s.aboutToPresent k i q → (s.bus b).acks = List.replicate (frame.length + 1) .ack ++ rest → s.sched = turns ++ sch →
    ∃ t : State, Host.Core.run Sys2Proof.core turns.length s = .next t ∧ s.returned t k i q sch 0 ∧ t.mem = s.mem ∧
      t.staging = frame ++ s.staging.drop frame.length ∧ (t.bus b).txAmt.toNat = frame.length ∧ (t.bus b).acks = rest ∧
      (t.bus b).wire.held = f.getLsbD 2 ∧
      (t.bus b).wlog = (s.bus b).wlog ++ addressLog (s.bus b).wire.held (a.extractLsb' 0 7) .write ++ sentLog frame ++
        (if f.getLsbD 2 then [] else [.stop])

/-- R107, R61, R111: a `READ` of any length in an open session, the slave acknowledging its address and supplying the bytes, in
one order of turns (log entry 4, DESIGN CHOICE): it returns `OK` with all the bytes in the destination and every other byte of
memory as before; on a held bus it begins with a repeated start; it ends in the stop. Spec decisions: D14. -/
def Obligations.ReadCommandRuns : Prop :=
  ∀ (s : State) (k : Nat) (b : BusId) (f : Byte) (a n : Half) (p : Nat) (data : List Byte) (q : List Cmd96)
    (restA : List Answer) (restD : List Byte) (sch : List Turn),
    let i := Instr.read b f a n p
    let turns := turnsOf s.cfg i k (n.toNat + 1)
    s.aboutToPresent k i q → Memory.wf s.mem = true → data.length = n.toNat → (s.bus b).acks = .ack :: restA →
    (s.bus b).rxData = data ++ restD → s.sched = turns ++ sch →
    ∃ t : State, Host.Core.run Sys2Proof.core turns.length s = .next t ∧ s.returned t k i q sch 0 ∧
      (∀ j d, data[j]? = some d → Memory.read t.mem (p + j) = d) ∧
      (∀ x, (x < p ∨ p + n.toNat ≤ x) → Memory.read t.mem x = Memory.read s.mem x) ∧
      (t.bus b).acks = restA ∧ (t.bus b).rxData = restD ∧ (t.bus b).wire.held = false ∧
      (t.bus b).wlog = (s.bus b).wlog ++ addressLog (s.bus b).wire.held (a.extractLsb' 0 7) .read ++ data.map .data ++ [.stop]

/-- R108, R61: a `READ_REG` of any length in an open session with a responsive slave, in one order of turns (log entry 4, DESIGN
CHOICE), is exactly one start (or repeated start), write of the register bytes, high byte first, repeated start, read of the
payload and stop; it returns `OK` with the bytes in the destination, takes no `SLOCK`, and the one turn of the handler is enough.
Spec decisions: D14, D17, D22. -/
def Obligations.ReadRegisterCommandRuns : Prop :=
  ∀ (s : State) (k : Nat) (b : BusId) (f : Byte) (a r n : Half) (p : Nat) (data : List Byte) (q : List Cmd96)
    (restA : List Answer) (restD : List Byte) (sch : List Turn),
    let i := Instr.readReg b f a r n p
    let regs : List Byte := if f.getLsbD 1 then [r.extractLsb' 8 8, r.extractLsb' 0 8] else [r.extractLsb' 0 8]
    let turns := turnsOf s.cfg i k (regs.length + n.toNat + 3)
    s.aboutToPresent k i q → Memory.wf s.mem = true → data.length = n.toNat →
    (s.bus b).acks = List.replicate (regs.length + 2) .ack ++ restA → (s.bus b).rxData = data ++ restD → s.sched = turns ++ sch →
    ∃ t : State, Host.Core.run Sys2Proof.core turns.length s = .next t ∧ s.returned t k i q sch 0 ∧
      (∀ j d, data[j]? = some d → Memory.read t.mem (p + j) = d) ∧
      (∀ x, (x < p ∨ p + n.toNat ≤ x) → Memory.read t.mem x = Memory.read s.mem x) ∧
      (t.bus b).acks = restA ∧ (t.bus b).rxData = restD ∧ (t.bus b).wire.held = false ∧
      (t.bus b).wlog = (s.bus b).wlog ++ addressLog (s.bus b).wire.held (a.extractLsb' 0 7) .write ++ sentLog regs ++
        addressLog true (a.extractLsb' 0 7) .read ++ data.map .data ++ [.stop]

/-- R114, R182, R160: any transfer of any form (staged or not, with or without `NOSTOP`) to a slave that does not acknowledge its
address returns `E_ADDR_NACK`, with no data symbol on the wire and memory untouched, under every `NACK_STOP` and every free value
(log entry 8), and leaves the bus usable; and so does a `READ_REG` whose second address phase is not acknowledged, then with its
register bytes acknowledged on the wire before it. In one order of turns (log entry 4, DESIGN CHOICE). Spec decisions: D17, D20,
D22, D25. -/
def Obligations.AddressNackReturnsAndRecovers : Prop :=
  ∀ (s : State) (k : Nat) (i : Instr) (q : List Cmd96) (rest : List Answer) (sch : List Turn), s.aboutToPresent k i q →
    let x := s.bus i.bus
    let ends (w : Nat) (log : List WireSym) : Prop :=
      ∃ (t : State) (stop : Bool), Host.Core.run Sys2Proof.core (turnsOf s.cfg i k w).length s = .next t ∧
        s.returned t k i q sch 2 ∧ t.mem = s.mem ∧ (t.bus i.bus).acks = rest ∧ (t.bus i.bus).wire.held = !stop ∧
        (s.cfg.nackStop = .stop → stop = true) ∧ (s.cfg.nackStop = .hold → stop = false) ∧
        (t.bus i.bus).wlog = x.wlog ++ log ++ (if stop then [.stop] else [])
    (x.acks = .nack :: rest → s.sched = turnsOf s.cfg i k 1 ++ sch →
      ends 1 [if x.wire.held then .restart else .start, .addr i.target (if i.opcode = 6 then .read else .write), .answer .nack]) ∧
    (∀ (b : BusId) (f : Byte) (a r n : Half) (p : Nat), i = .readReg b f a r n p →
      let regs : List Byte := if f.getLsbD 1 then [r.extractLsb' 8 8, r.extractLsb' 0 8] else [r.extractLsb' 0 8]
      x.acks = List.replicate (regs.length + 1) .ack ++ .nack :: rest → s.sched = turnsOf s.cfg i k (regs.length + 3) ++ sch →
      ends (regs.length + 3) (addressLog x.wire.held i.target .write ++ sentLog regs ++
        [.restart, .addr i.target .read, .answer .nack]))

/-- R114, R183, R160: any transmitting transfer of any form whose byte `j` of the frame (payload, register bytes and payload, or
register bytes) is the first that the slave does not acknowledge returns `E_DATA_NACK`, with the bytes before it acknowledged on the
wire, `TXAMT` at `j` or `j + 1` and memory untouched, the last byte or not, under every `NACK_STOP` and every free value (log entry
8), and leaves the bus usable. In one order of turns (log entry 4, DESIGN CHOICE). Spec decisions: D18, D20, D25. -/
def Obligations.DataNackReturnsAndRecovers : Prop :=
  ∀ (s : State) (k : Nat) (i : Instr) (q : List Cmd96) (rest : List Answer) (sch : List Turn) (j : Nat) (d : Byte),
    let frame := i.frame s
    let turns := turnsOf s.cfg i k (j + if j + 1 = frame.length then 3 else 2)
    s.aboutToPresent k i q → frame[j]? = some d → (s.bus i.bus).acks = List.replicate (j + 1) .ack ++ .nack :: rest →
    s.sched = turns ++ sch →
      ∃ (t : State) (stop : Bool), Host.Core.run Sys2Proof.core turns.length s = .next t ∧ s.returned t k i q sch 3 ∧
        t.mem = s.mem ∧ (t.bus i.bus).acks = rest ∧ (t.bus i.bus).wire.held = !stop ∧
        ((t.bus i.bus).txAmt.toNat = j ∨ (t.bus i.bus).txAmt.toNat = j + 1) ∧
        (s.cfg.nackStop = .stop → stop = true) ∧ (s.cfg.nackStop = .hold → stop = false) ∧
        (t.bus i.bus).wlog = (s.bus i.bus).wlog ++ addressLog (s.bus i.bus).wire.held i.target .write ++ sentLog (frame.take j) ++
          [.data d, .answer .nack] ++ (if stop then [.stop] else [])
end

