-- ==== Sys2Proof/Laws/Decode.lean ====
section
/-! SUPPORT. The packing of a command loses nothing, and the record of an operation decodes to it. -/

namespace Sys2Proof

/-- The four fields of `w0` (30 R70, R81). -/
theorem w0_fields (op bus : BitVec 4) (flags : Byte) (addr : Half) (w : Word)
    (hw : w = op.setWidth 32 <<< 28 ||| bus.setWidth 32 <<< 24 ||| flags.setWidth 32 <<< 16 ||| addr.setWidth 32) :
    w.extractLsb' 28 4 = op ∧ w.extractLsb' 24 4 = bus ∧ w.extractLsb' 16 8 = flags ∧ w.extractLsb' 0 16 = addr := by
  subst hw
  have ho := fun k (h : 4 ≤ k) => BitVec.getLsbD_of_ge op k h
  have hb := fun k (h : 4 ≤ k) => BitVec.getLsbD_of_ge bus k h
  have hf := fun k (h : 8 ≤ k) => BitVec.getLsbD_of_ge flags k h
  have ha := fun k (h : 16 ≤ k) => BitVec.getLsbD_of_ge addr k h
  refine ⟨?op, ?bus, ?flags, ?addr⟩ <;>
  · refine BitVec.eq_of_getLsbD_eq fun i hi => ?_
    simp only [BitVec.getLsbD_extractLsb', BitVec.getLsbD_or, BitVec.getLsbD_shiftLeft, BitVec.getLsbD_setWidth]
    interval_cases i <;> simp [*]

/-- The two fields of `w1` (30 R70, R81). -/
theorem w1_fields (reg len : Half) (w : Word) (hw : w = reg.setWidth 32 <<< 16 ||| len.setWidth 32) :
    w.extractLsb' 16 16 = reg ∧ w.extractLsb' 0 16 = len := by
  subst hw
  have hl := fun k (h : 16 ≤ k) => BitVec.getLsbD_of_ge len k h
  refine ⟨?reg, ?len⟩ <;>
  · refine BitVec.eq_of_getLsbD_eq fun i hi => ?_
    simp only [BitVec.getLsbD_extractLsb', BitVec.getLsbD_or, BitVec.getLsbD_shiftLeft, BitVec.getLsbD_setWidth]
    interval_cases i <;> simp [*]

/-- Unpacking a packed record gives it back. -/
theorem unpack_pack (c : Cmd) : unpack (pack c) = c := by
  obtain ⟨op, bus, flags, addr, reg, len, ptr⟩ := c
  obtain ⟨h1, h2, h3, h4⟩ := w0_fields op (BitVec.ofNat 4 bus.val) flags addr _ rfl
  obtain ⟨h5, h6⟩ := w1_fields reg len _ rfl
  simp only [unpack, pack, Cmd.mk.injEq, h1, h2, h3, h4, h5, h6, true_and, and_true]
  exact Fin.ext (by simp)

/-- A record with an operation's fields taken from it decodes to the operation, whatever the other fields are. -/
theorem decodeCmd_over (i : Instr) (c : Cmd) : decodeCmd (i.over c) = checked i := by cases i <;> rfl

/-- An operation that a record decodes to takes nothing new from it: the record already holds its fields. -/
theorem over_of_decodeCmd (i : Instr) (c : Cmd) (h : decodeCmd c = .ok i) : i.over c = c := by
  have ck : ∀ j, checked j = .ok i → i = j := fun j hj => by
    unfold checked at hj
    split at hj <;> simp_all
  obtain ⟨op, bus, flags, addr, reg, len, ptr⟩ := c
  unfold decodeCmd at h
  split at h <;>
    first
    | (rename_i ho; cases ck _ h; simp only [Instr.over, Instr.opcode, Cmd.mk.injEq, and_self, and_true]
       exact (BitVec.eq_of_toNat_eq ho).symm)
    | cases h

/-- The record of an operation decodes to the operation, up to its reserved-encoding check. -/
theorem decodeCmd_fields (i : Instr) : decodeCmd i.fields = checked i := by cases i <;> rfl

/-- The operation a record decodes to carries the record's bus. -/
theorem decodeCmd_bus (c : Cmd) (i : Instr) (h : decodeCmd c = .ok i) : i.bus = c.bus := by
  have checked_eq : ∀ j, checked j = .ok i → i = j := fun j hj => by
    unfold checked at hj
    split at hj <;> simp_all
  unfold decodeCmd at h
  split at h <;> first | (cases checked_eq _ h; rfl) | cases h

/-- A decoded operation is well formed. -/
theorem decodeCmd_wf (c : Cmd) (i : Instr) (h : decodeCmd c = .ok i) : i.wf = true := by
  have checked_wf : ∀ j, checked j = .ok i → i.wf = true := fun j hj => by
    unfold checked at hj
    split at hj
    · cases hj
    · rename_i hr
      cases hj
      simp [Instr.wf, hr]
  unfold decodeCmd at h
  split at h <;> first | exact checked_wf _ h | cases h

end Sys2Proof
end

