-- ==== Sys2Proof/Laws/State.lean ====
section
/-! SUPPORT. One lemma per field per update, true by `rfl`: the buses of a state, and the updates of one bus and of the
state that the meanings share. -/

namespace Sys2Proof.Machine

@[simp] theorem State.bus_setBus_self (s : State) (b : BusId) (x : Bus) : (s.setBus b x).bus b = x := by
  simp [State.bus, State.setBus]

@[simp] theorem State.bus_setBus_ne (s : State) (b c : BusId) (x : Bus) (h : c ≠ b) : (s.setBus b x).bus c = s.bus c := by
  have : b.val ≠ c.val := fun e => h (Fin.ext e.symm)
  simp [State.bus, State.setBus, this]

theorem State.bus_setBus (s : State) (b c : BusId) (x : Bus) : (s.setBus b x).bus c = if c = b then x else s.bus c := by
  by_cases h : c = b
  · subst h; simp
  · simp [h]

@[simp] theorem State.bus_updBus_self (s : State) (b : BusId) (f : Bus → Bus) : (s.updBus b f).bus b = f (s.bus b) := by
  simp [State.updBus]

@[simp] theorem State.bus_updBus_ne (s : State) (b c : BusId) (f : Bus → Bus) (h : c ≠ b) : (s.updBus b f).bus c = s.bus c := by
  simp [State.updBus, h]

theorem State.bus_updBus (s : State) (b c : BusId) (f : Bus → Bus) :
    (s.updBus b f).bus c = if c = b then f (s.bus c) else s.bus c := by
  by_cases h : c = b
  · subst h; simp
  · simp [h]

@[simp] theorem State.setBus_setBus (s : State) (b : BusId) (x y : Bus) : (s.setBus b x).setBus b y = s.setBus b y := by
  simp [State.setBus]

@[simp] theorem State.setBus_bus (s : State) (b : BusId) : s.setBus b (s.bus b) = s := by
  simp [State.setBus, State.bus]

theorem State.setBus_comm (s : State) (b c : BusId) (x y : Bus) (h : b ≠ c) :
    (s.setBus b x).setBus c y = (s.setBus c y).setBus b x := by
  have : b.val ≠ c.val := fun e => h (Fin.ext e)
  simp [State.setBus, Vector.set_comm _ _ this]

/-- A bus's record does not depend on the global fields. -/
@[simp] theorem State.bus_mk (s : State) (c : Config) (st : List Byte) (l : SLock) (m : Memory) (f : Option FaultInfo)
    (r : List (List Cmd96)) (sc : List Turn) (e : List ExtCall) (d : Nat) (b : BusId) :
    State.bus ⟨c, s.buses, st, l, m, f, r, sc, e, d⟩ b = s.bus b := rfl

@[simp] theorem State.latched_mk (s : State) (c : Config) (st : List Byte) (l : SLock) (m : Memory) (f : Option FaultInfo)
    (r : List (List Cmd96)) (sc : List Turn) (e : List ExtCall) (d : Nat) (b : BusId) :
    State.latched ⟨c, s.buses, st, l, m, f, r, sc, e, d⟩ b = s.latched b := rfl

/-- Whether a thread is blocked is the buses' alone; whether a sequencer answers or accepts, the buses' and the configuration's. -/
@[simp] theorem State.blocked_mk (s : State) (c : Config) (st : List Byte) (l : SLock) (m : Memory) (f : Option FaultInfo)
    (r : List (List Cmd96)) (sc : List Turn) (e : List ExtCall) (d k : Nat) :
    State.blocked ⟨c, s.buses, st, l, m, f, r, sc, e, d⟩ k = s.blocked k := rfl

@[simp] theorem State.answers_mk (s : State) (st : List Byte) (l : SLock) (m : Memory) (f : Option FaultInfo)
    (r : List (List Cmd96)) (sc : List Turn) (e : List ExtCall) (d : Nat) (i : Instr) :
    State.answers ⟨s.cfg, s.buses, st, l, m, f, r, sc, e, d⟩ i = s.answers i := rfl

@[simp] theorem State.accepts_mk (s : State) (st : List Byte) (l : SLock) (m : Memory) (f : Option FaultInfo)
    (r : List (List Cmd96)) (sc : List Turn) (e : List ExtCall) (d : Nat) (i : Instr) :
    State.accepts ⟨s.cfg, s.buses, st, l, m, f, r, sc, e, d⟩ i = s.accepts i := rfl

/-- A change of one bus does not touch the global fields. -/
@[simp] theorem State.setBus_mk (s : State) (c : Config) (st : List Byte) (l : SLock) (m : Memory) (f : Option FaultInfo)
    (r : List (List Cmd96)) (sc : List Turn) (e : List ExtCall) (d : Nat) (b : BusId) (x : Bus) :
    State.setBus ⟨c, s.buses, st, l, m, f, r, sc, e, d⟩ b x = ⟨c, (s.setBus b x).buses, st, l, m, f, r, sc, e, d⟩ := rfl

@[simp] theorem State.updBus_mk (s : State) (c : Config) (st : List Byte) (l : SLock) (m : Memory) (f : Option FaultInfo)
    (r : List (List Cmd96)) (sc : List Turn) (e : List ExtCall) (d : Nat) (b : BusId) (g : Bus → Bus) :
    State.updBus ⟨c, s.buses, st, l, m, f, r, sc, e, d⟩ b g = ⟨c, (s.updBus b g).buses, st, l, m, f, r, sc, e, d⟩ := rfl

/-- Which buses exist, and their descriptors, are the configuration's alone. -/
@[simp] theorem State.hasBus_mk (s : State) (v : Vector Bus 16) (st : List Byte) (l : SLock) (m : Memory)
    (f : Option FaultInfo) (r : List (List Cmd96)) (sc : List Turn) (e : List ExtCall) (d : Nat) (b : BusId) :
    State.hasBus ⟨s.cfg, v, st, l, m, f, r, sc, e, d⟩ b = s.hasBus b := rfl

@[simp] theorem State.desc_mk (s : State) (v : Vector Bus 16) (st : List Byte) (l : SLock) (m : Memory)
    (f : Option FaultInfo) (r : List (List Cmd96)) (sc : List Turn) (e : List ExtCall) (d : Nat) (b : BusId) :
    State.desc ⟨s.cfg, v, st, l, m, f, r, sc, e, d⟩ b = s.desc b := rfl

@[simp] theorem State.setBus_cfg (s : State) (b : BusId) (x : Bus) : (s.setBus b x).cfg = s.cfg := rfl
@[simp] theorem State.updBus_cfg (s : State) (b : BusId) (f : Bus → Bus) : (s.updBus b f).cfg = s.cfg := rfl
@[simp] theorem State.setBus_staging (s : State) (b : BusId) (x : Bus) : (s.setBus b x).staging = s.staging := rfl
@[simp] theorem State.updBus_staging (s : State) (b : BusId) (f : Bus → Bus) : (s.updBus b f).staging = s.staging := rfl
@[simp] theorem State.setBus_slock (s : State) (b : BusId) (x : Bus) : (s.setBus b x).slock = s.slock := rfl
@[simp] theorem State.updBus_slock (s : State) (b : BusId) (f : Bus → Bus) : (s.updBus b f).slock = s.slock := rfl
@[simp] theorem State.setBus_mem (s : State) (b : BusId) (x : Bus) : (s.setBus b x).mem = s.mem := rfl
@[simp] theorem State.updBus_mem (s : State) (b : BusId) (f : Bus → Bus) : (s.updBus b f).mem = s.mem := rfl
@[simp] theorem State.setBus_fault (s : State) (b : BusId) (x : Bus) : (s.setBus b x).fault = s.fault := rfl
@[simp] theorem State.updBus_fault (s : State) (b : BusId) (f : Bus → Bus) : (s.updBus b f).fault = s.fault := rfl
@[simp] theorem State.setBus_requests (s : State) (b : BusId) (x : Bus) : (s.setBus b x).requests = s.requests := rfl
@[simp] theorem State.updBus_requests (s : State) (b : BusId) (f : Bus → Bus) : (s.updBus b f).requests = s.requests := rfl
@[simp] theorem State.setBus_sched (s : State) (b : BusId) (x : Bus) : (s.setBus b x).sched = s.sched := rfl
@[simp] theorem State.updBus_sched (s : State) (b : BusId) (f : Bus → Bus) : (s.updBus b f).sched = s.sched := rfl
@[simp] theorem State.setBus_extCalls (s : State) (b : BusId) (x : Bus) : (s.setBus b x).extCalls = s.extCalls := rfl
@[simp] theorem State.updBus_extCalls (s : State) (b : BusId) (f : Bus → Bus) : (s.updBus b f).extCalls = s.extCalls := rfl
@[simp] theorem State.setBus_draws (s : State) (b : BusId) (x : Bus) : (s.setBus b x).draws = s.draws := rfl
@[simp] theorem State.updBus_draws (s : State) (b : BusId) (f : Bus → Bus) : (s.updBus b f).draws = s.draws := rfl

@[simp] theorem State.setBus_hasBus (s : State) (b c : BusId) (x : Bus) : (s.setBus b x).hasBus c = s.hasBus c := rfl
@[simp] theorem State.updBus_hasBus (s : State) (b c : BusId) (f : Bus → Bus) : (s.updBus b f).hasBus c = s.hasBus c := rfl
@[simp] theorem State.setBus_desc (s : State) (b c : BusId) (x : Bus) : (s.setBus b x).desc c = s.desc c := rfl
@[simp] theorem State.updBus_desc (s : State) (b c : BusId) (f : Bus → Bus) : (s.updBus b f).desc c = s.desc c := rfl


@[simp] theorem Bus.toPhase_enable (x : Bus) (p : Phase) : (x.toPhase p).enable = x.enable := rfl
@[simp] theorem Bus.toPhase_pselScl (x : Bus) (p : Phase) : (x.toPhase p).pselScl = x.pselScl := rfl
@[simp] theorem Bus.toPhase_pselSda (x : Bus) (p : Phase) : (x.toPhase p).pselSda = x.pselSda := rfl
@[simp] theorem Bus.toPhase_freq (x : Bus) (p : Phase) : (x.toPhase p).freq = x.freq := rfl
@[simp] theorem Bus.toPhase_address (x : Bus) (p : Phase) : (x.toPhase p).address = x.address := rfl
@[simp] theorem Bus.toPhase_txPtr (x : Bus) (p : Phase) : (x.toPhase p).txPtr = x.txPtr := rfl
@[simp] theorem Bus.toPhase_txCnt (x : Bus) (p : Phase) : (x.toPhase p).txCnt = x.txCnt := rfl
@[simp] theorem Bus.toPhase_txAmt (x : Bus) (p : Phase) : (x.toPhase p).txAmt = x.txAmt := rfl
@[simp] theorem Bus.toPhase_rxPtr (x : Bus) (p : Phase) : (x.toPhase p).rxPtr = x.rxPtr := rfl
@[simp] theorem Bus.toPhase_rxCnt (x : Bus) (p : Phase) : (x.toPhase p).rxCnt = x.rxCnt := rfl
@[simp] theorem Bus.toPhase_shorts (x : Bus) (p : Phase) : (x.toPhase p).shorts = x.shorts := rfl
@[simp] theorem Bus.toPhase_inten (x : Bus) (p : Phase) : (x.toPhase p).inten = x.inten := rfl
@[simp] theorem Bus.toPhase_ev (x : Bus) (p : Phase) : (x.toPhase p).ev = x.ev := rfl
@[simp] theorem Bus.toPhase_errSrc (x : Bus) (p : Phase) : (x.toPhase p).errSrc = x.errSrc := rfl
@[simp] theorem Bus.toPhase_gate (x : Bus) (p : Phase) : (x.toPhase p).gate = x.gate := rfl
@[simp] theorem Bus.toPhase_pinLock (x : Bus) (p : Phase) : (x.toPhase p).pinLock = x.pinLock := rfl
@[simp] theorem Bus.toPhase_irqEn (x : Bus) (p : Phase) : (x.toPhase p).irqEn = x.irqEn := rfl
@[simp] theorem Bus.toPhase_result (x : Bus) (p : Phase) : (x.toPhase p).result = x.result := rfl
@[simp] theorem Bus.toPhase_regBuf (x : Bus) (p : Phase) : (x.toPhase p).regBuf = x.regBuf := rfl
@[simp] theorem Bus.toPhase_wire (x : Bus) (p : Phase) : (x.toPhase p).wire = x.wire := rfl
@[simp] theorem Bus.toPhase_wlog (x : Bus) (p : Phase) : (x.toPhase p).wlog = x.wlog := rfl
@[simp] theorem Bus.toPhase_acks (x : Bus) (p : Phase) : (x.toPhase p).acks = x.acks := rfl
@[simp] theorem Bus.toPhase_rxData (x : Bus) (p : Phase) : (x.toPhase p).rxData = x.rxData := rfl
@[simp] theorem Bus.toPhase_callers (x : Bus) (p : Phase) : (x.toPhase p).callers = x.callers := rfl
@[simp] theorem Bus.toPhase_seq (x : Bus) (p : Phase) : (x.toPhase p).seq = { x.seq with phase := p } := rfl

@[simp] theorem Bus.ret_enable (x : Bus) (r : Result) : (x.ret r).enable = x.enable := rfl
@[simp] theorem Bus.ret_pselScl (x : Bus) (r : Result) : (x.ret r).pselScl = x.pselScl := rfl
@[simp] theorem Bus.ret_pselSda (x : Bus) (r : Result) : (x.ret r).pselSda = x.pselSda := rfl
@[simp] theorem Bus.ret_freq (x : Bus) (r : Result) : (x.ret r).freq = x.freq := rfl
@[simp] theorem Bus.ret_address (x : Bus) (r : Result) : (x.ret r).address = x.address := rfl
@[simp] theorem Bus.ret_txPtr (x : Bus) (r : Result) : (x.ret r).txPtr = x.txPtr := rfl
@[simp] theorem Bus.ret_txCnt (x : Bus) (r : Result) : (x.ret r).txCnt = x.txCnt := rfl
@[simp] theorem Bus.ret_txAmt (x : Bus) (r : Result) : (x.ret r).txAmt = x.txAmt := rfl
@[simp] theorem Bus.ret_rxPtr (x : Bus) (r : Result) : (x.ret r).rxPtr = x.rxPtr := rfl
@[simp] theorem Bus.ret_rxCnt (x : Bus) (r : Result) : (x.ret r).rxCnt = x.rxCnt := rfl
@[simp] theorem Bus.ret_shorts (x : Bus) (r : Result) : (x.ret r).shorts = x.shorts := rfl
@[simp] theorem Bus.ret_inten (x : Bus) (r : Result) : (x.ret r).inten = x.inten := rfl
@[simp] theorem Bus.ret_ev (x : Bus) (r : Result) : (x.ret r).ev = x.ev := rfl
@[simp] theorem Bus.ret_errSrc (x : Bus) (r : Result) : (x.ret r).errSrc = x.errSrc := rfl
@[simp] theorem Bus.ret_gate (x : Bus) (r : Result) : (x.ret r).gate = x.gate := rfl
@[simp] theorem Bus.ret_pinLock (x : Bus) (r : Result) : (x.ret r).pinLock = x.pinLock := rfl
@[simp] theorem Bus.ret_irqEn (x : Bus) (r : Result) : (x.ret r).irqEn = x.irqEn := rfl
@[simp] theorem Bus.ret_regBuf (x : Bus) (r : Result) : (x.ret r).regBuf = x.regBuf := rfl
@[simp] theorem Bus.ret_wire (x : Bus) (r : Result) : (x.ret r).wire = x.wire := rfl
@[simp] theorem Bus.ret_wlog (x : Bus) (r : Result) : (x.ret r).wlog = x.wlog := rfl
@[simp] theorem Bus.ret_acks (x : Bus) (r : Result) : (x.ret r).acks = x.acks := rfl
@[simp] theorem Bus.ret_rxData (x : Bus) (r : Result) : (x.ret r).rxData = x.rxData := rfl
@[simp] theorem Bus.ret_callers (x : Bus) (r : Result) : (x.ret r).callers = [] := rfl
@[simp] theorem Bus.ret_seq (x : Bus) (r : Result) : (x.ret r).seq = { x.seq with phase := .idle } := rfl
@[simp] theorem Bus.ret_result (x : Bus) (r : Result) : (x.ret r).result = r.code := rfl

@[simp] theorem Bus.latch_enable (x : Bus) (i : Instr) : (x.latch i).enable = x.enable := rfl
@[simp] theorem Bus.latch_pselScl (x : Bus) (i : Instr) : (x.latch i).pselScl = x.pselScl := rfl
@[simp] theorem Bus.latch_pselSda (x : Bus) (i : Instr) : (x.latch i).pselSda = x.pselSda := rfl
@[simp] theorem Bus.latch_freq (x : Bus) (i : Instr) : (x.latch i).freq = x.freq := rfl
@[simp] theorem Bus.latch_address (x : Bus) (i : Instr) : (x.latch i).address = x.address := rfl
@[simp] theorem Bus.latch_txPtr (x : Bus) (i : Instr) : (x.latch i).txPtr = x.txPtr := rfl
@[simp] theorem Bus.latch_txCnt (x : Bus) (i : Instr) : (x.latch i).txCnt = x.txCnt := rfl
@[simp] theorem Bus.latch_txAmt (x : Bus) (i : Instr) : (x.latch i).txAmt = x.txAmt := rfl
@[simp] theorem Bus.latch_rxPtr (x : Bus) (i : Instr) : (x.latch i).rxPtr = x.rxPtr := rfl
@[simp] theorem Bus.latch_rxCnt (x : Bus) (i : Instr) : (x.latch i).rxCnt = x.rxCnt := rfl
@[simp] theorem Bus.latch_shorts (x : Bus) (i : Instr) : (x.latch i).shorts = x.shorts := rfl
@[simp] theorem Bus.latch_inten (x : Bus) (i : Instr) : (x.latch i).inten = x.inten := rfl
@[simp] theorem Bus.latch_ev (x : Bus) (i : Instr) : (x.latch i).ev = x.ev := rfl
@[simp] theorem Bus.latch_errSrc (x : Bus) (i : Instr) : (x.latch i).errSrc = x.errSrc := rfl
@[simp] theorem Bus.latch_gate (x : Bus) (i : Instr) : (x.latch i).gate = x.gate := rfl
@[simp] theorem Bus.latch_pinLock (x : Bus) (i : Instr) : (x.latch i).pinLock = x.pinLock := rfl
@[simp] theorem Bus.latch_irqEn (x : Bus) (i : Instr) : (x.latch i).irqEn = x.irqEn := rfl
@[simp] theorem Bus.latch_result (x : Bus) (i : Instr) : (x.latch i).result = x.result := rfl
@[simp] theorem Bus.latch_regBuf (x : Bus) (i : Instr) : (x.latch i).regBuf = x.regBuf := rfl
@[simp] theorem Bus.latch_wire (x : Bus) (i : Instr) : (x.latch i).wire = x.wire := rfl
@[simp] theorem Bus.latch_wlog (x : Bus) (i : Instr) : (x.latch i).wlog = x.wlog := rfl
@[simp] theorem Bus.latch_acks (x : Bus) (i : Instr) : (x.latch i).acks = x.acks := rfl
@[simp] theorem Bus.latch_rxData (x : Bus) (i : Instr) : (x.latch i).rxData = x.rxData := rfl
@[simp] theorem Bus.latch_callers (x : Bus) (i : Instr) : (x.latch i).callers = x.callers := rfl
@[simp] theorem Bus.latch_seq (x : Bus) (i : Instr) : (x.latch i).seq = { x.seq with cmd := i.over x.seq.cmd } := rfl

@[simp] theorem Bus.called_enable (x : Bus) (k : Nat) (a : Bool) (c : Cmd) : (x.called k a c).enable = x.enable := rfl
@[simp] theorem Bus.called_pselScl (x : Bus) (k : Nat) (a : Bool) (c : Cmd) : (x.called k a c).pselScl = x.pselScl := rfl
@[simp] theorem Bus.called_pselSda (x : Bus) (k : Nat) (a : Bool) (c : Cmd) : (x.called k a c).pselSda = x.pselSda := rfl
@[simp] theorem Bus.called_freq (x : Bus) (k : Nat) (a : Bool) (c : Cmd) : (x.called k a c).freq = x.freq := rfl
@[simp] theorem Bus.called_address (x : Bus) (k : Nat) (a : Bool) (c : Cmd) : (x.called k a c).address = x.address := rfl
@[simp] theorem Bus.called_txPtr (x : Bus) (k : Nat) (a : Bool) (c : Cmd) : (x.called k a c).txPtr = x.txPtr := rfl
@[simp] theorem Bus.called_txCnt (x : Bus) (k : Nat) (a : Bool) (c : Cmd) : (x.called k a c).txCnt = x.txCnt := rfl
@[simp] theorem Bus.called_txAmt (x : Bus) (k : Nat) (a : Bool) (c : Cmd) : (x.called k a c).txAmt = x.txAmt := rfl
@[simp] theorem Bus.called_rxPtr (x : Bus) (k : Nat) (a : Bool) (c : Cmd) : (x.called k a c).rxPtr = x.rxPtr := rfl
@[simp] theorem Bus.called_rxCnt (x : Bus) (k : Nat) (a : Bool) (c : Cmd) : (x.called k a c).rxCnt = x.rxCnt := rfl
@[simp] theorem Bus.called_shorts (x : Bus) (k : Nat) (a : Bool) (c : Cmd) : (x.called k a c).shorts = x.shorts := rfl
@[simp] theorem Bus.called_inten (x : Bus) (k : Nat) (a : Bool) (c : Cmd) : (x.called k a c).inten = x.inten := rfl
@[simp] theorem Bus.called_ev (x : Bus) (k : Nat) (a : Bool) (c : Cmd) : (x.called k a c).ev = x.ev := rfl
@[simp] theorem Bus.called_errSrc (x : Bus) (k : Nat) (a : Bool) (c : Cmd) : (x.called k a c).errSrc = x.errSrc := rfl
@[simp] theorem Bus.called_gate (x : Bus) (k : Nat) (a : Bool) (c : Cmd) : (x.called k a c).gate = x.gate := rfl
@[simp] theorem Bus.called_pinLock (x : Bus) (k : Nat) (a : Bool) (c : Cmd) : (x.called k a c).pinLock = x.pinLock := rfl
@[simp] theorem Bus.called_irqEn (x : Bus) (k : Nat) (a : Bool) (c : Cmd) : (x.called k a c).irqEn = x.irqEn := rfl
@[simp] theorem Bus.called_result (x : Bus) (k : Nat) (a : Bool) (c : Cmd) : (x.called k a c).result = x.result := rfl
@[simp] theorem Bus.called_regBuf (x : Bus) (k : Nat) (a : Bool) (c : Cmd) : (x.called k a c).regBuf = x.regBuf := rfl
@[simp] theorem Bus.called_wire (x : Bus) (k : Nat) (a : Bool) (c : Cmd) : (x.called k a c).wire = x.wire := rfl
@[simp] theorem Bus.called_wlog (x : Bus) (k : Nat) (a : Bool) (c : Cmd) : (x.called k a c).wlog = x.wlog := rfl
@[simp] theorem Bus.called_acks (x : Bus) (k : Nat) (a : Bool) (c : Cmd) : (x.called k a c).acks = x.acks := rfl
@[simp] theorem Bus.called_rxData (x : Bus) (k : Nat) (a : Bool) (c : Cmd) : (x.called k a c).rxData = x.rxData := rfl
@[simp] theorem Bus.called_seq (x : Bus) (k : Nat) (a : Bool) (c : Cmd) :
    (x.called k a c).seq = { x.seq with cmd := if a then c else x.seq.cmd } := rfl
@[simp] theorem Bus.called_callers (x : Bus) (k : Nat) (a : Bool) (c : Cmd) : (x.called k a c).callers = k :: x.callers := rfl

@[simp] theorem Bus.emit_enable (x : Bus) (l : List WireSym) : (x.emit l).enable = x.enable := rfl
@[simp] theorem Bus.emit_pselScl (x : Bus) (l : List WireSym) : (x.emit l).pselScl = x.pselScl := rfl
@[simp] theorem Bus.emit_pselSda (x : Bus) (l : List WireSym) : (x.emit l).pselSda = x.pselSda := rfl
@[simp] theorem Bus.emit_freq (x : Bus) (l : List WireSym) : (x.emit l).freq = x.freq := rfl
@[simp] theorem Bus.emit_address (x : Bus) (l : List WireSym) : (x.emit l).address = x.address := rfl
@[simp] theorem Bus.emit_txPtr (x : Bus) (l : List WireSym) : (x.emit l).txPtr = x.txPtr := rfl
@[simp] theorem Bus.emit_txCnt (x : Bus) (l : List WireSym) : (x.emit l).txCnt = x.txCnt := rfl
@[simp] theorem Bus.emit_txAmt (x : Bus) (l : List WireSym) : (x.emit l).txAmt = x.txAmt := rfl
@[simp] theorem Bus.emit_rxPtr (x : Bus) (l : List WireSym) : (x.emit l).rxPtr = x.rxPtr := rfl
@[simp] theorem Bus.emit_rxCnt (x : Bus) (l : List WireSym) : (x.emit l).rxCnt = x.rxCnt := rfl
@[simp] theorem Bus.emit_shorts (x : Bus) (l : List WireSym) : (x.emit l).shorts = x.shorts := rfl
@[simp] theorem Bus.emit_inten (x : Bus) (l : List WireSym) : (x.emit l).inten = x.inten := rfl
@[simp] theorem Bus.emit_ev (x : Bus) (l : List WireSym) : (x.emit l).ev = x.ev := rfl
@[simp] theorem Bus.emit_errSrc (x : Bus) (l : List WireSym) : (x.emit l).errSrc = x.errSrc := rfl
@[simp] theorem Bus.emit_gate (x : Bus) (l : List WireSym) : (x.emit l).gate = x.gate := rfl
@[simp] theorem Bus.emit_pinLock (x : Bus) (l : List WireSym) : (x.emit l).pinLock = x.pinLock := rfl
@[simp] theorem Bus.emit_irqEn (x : Bus) (l : List WireSym) : (x.emit l).irqEn = x.irqEn := rfl
@[simp] theorem Bus.emit_seq (x : Bus) (l : List WireSym) : (x.emit l).seq = x.seq := rfl
@[simp] theorem Bus.emit_result (x : Bus) (l : List WireSym) : (x.emit l).result = x.result := rfl
@[simp] theorem Bus.emit_regBuf (x : Bus) (l : List WireSym) : (x.emit l).regBuf = x.regBuf := rfl
@[simp] theorem Bus.emit_wire (x : Bus) (l : List WireSym) : (x.emit l).wire = x.wire := rfl
@[simp] theorem Bus.emit_acks (x : Bus) (l : List WireSym) : (x.emit l).acks = x.acks := rfl
@[simp] theorem Bus.emit_rxData (x : Bus) (l : List WireSym) : (x.emit l).rxData = x.rxData := rfl
@[simp] theorem Bus.emit_callers (x : Bus) (l : List WireSym) : (x.emit l).callers = x.callers := rfl
@[simp] theorem Bus.emit_wlog (x : Bus) (l : List WireSym) : (x.emit l).wlog = x.wlog ++ l := rfl

@[simp] theorem Bus.stop_enable (x : Bus) : (x.stop).enable = x.enable := rfl
@[simp] theorem Bus.stop_pselScl (x : Bus) : (x.stop).pselScl = x.pselScl := rfl
@[simp] theorem Bus.stop_pselSda (x : Bus) : (x.stop).pselSda = x.pselSda := rfl
@[simp] theorem Bus.stop_freq (x : Bus) : (x.stop).freq = x.freq := rfl
@[simp] theorem Bus.stop_address (x : Bus) : (x.stop).address = x.address := rfl
@[simp] theorem Bus.stop_txPtr (x : Bus) : (x.stop).txPtr = x.txPtr := rfl
@[simp] theorem Bus.stop_txCnt (x : Bus) : (x.stop).txCnt = x.txCnt := rfl
@[simp] theorem Bus.stop_txAmt (x : Bus) : (x.stop).txAmt = x.txAmt := rfl
@[simp] theorem Bus.stop_rxPtr (x : Bus) : (x.stop).rxPtr = x.rxPtr := rfl
@[simp] theorem Bus.stop_rxCnt (x : Bus) : (x.stop).rxCnt = x.rxCnt := rfl
@[simp] theorem Bus.stop_shorts (x : Bus) : (x.stop).shorts = x.shorts := rfl
@[simp] theorem Bus.stop_inten (x : Bus) : (x.stop).inten = x.inten := rfl
@[simp] theorem Bus.stop_errSrc (x : Bus) : (x.stop).errSrc = x.errSrc := rfl
@[simp] theorem Bus.stop_gate (x : Bus) : (x.stop).gate = x.gate := rfl
@[simp] theorem Bus.stop_pinLock (x : Bus) : (x.stop).pinLock = x.pinLock := rfl
@[simp] theorem Bus.stop_irqEn (x : Bus) : (x.stop).irqEn = x.irqEn := rfl
@[simp] theorem Bus.stop_seq (x : Bus) : (x.stop).seq = x.seq := rfl
@[simp] theorem Bus.stop_result (x : Bus) : (x.stop).result = x.result := rfl
@[simp] theorem Bus.stop_regBuf (x : Bus) : (x.stop).regBuf = x.regBuf := rfl
@[simp] theorem Bus.stop_acks (x : Bus) : (x.stop).acks = x.acks := rfl
@[simp] theorem Bus.stop_rxData (x : Bus) : (x.stop).rxData = x.rxData := rfl
@[simp] theorem Bus.stop_callers (x : Bus) : (x.stop).callers = x.callers := rfl
@[simp] theorem Bus.stop_wlog (x : Bus) : x.stop.wlog = x.wlog ++ [.stop] := rfl
@[simp] theorem Bus.stop_ev (x : Bus) : x.stop.ev = { x.ev with stopped := true } := rfl
@[simp] theorem Bus.stop_wire (x : Bus) : x.stop.wire = ⟨.idle, 0, false⟩ := rfl

@[simp] theorem Bus.hold_enable (x : Bus) : (x.hold).enable = x.enable := rfl
@[simp] theorem Bus.hold_pselScl (x : Bus) : (x.hold).pselScl = x.pselScl := rfl
@[simp] theorem Bus.hold_pselSda (x : Bus) : (x.hold).pselSda = x.pselSda := rfl
@[simp] theorem Bus.hold_freq (x : Bus) : (x.hold).freq = x.freq := rfl
@[simp] theorem Bus.hold_address (x : Bus) : (x.hold).address = x.address := rfl
@[simp] theorem Bus.hold_txPtr (x : Bus) : (x.hold).txPtr = x.txPtr := rfl
@[simp] theorem Bus.hold_txCnt (x : Bus) : (x.hold).txCnt = x.txCnt := rfl
@[simp] theorem Bus.hold_txAmt (x : Bus) : (x.hold).txAmt = x.txAmt := rfl
@[simp] theorem Bus.hold_rxPtr (x : Bus) : (x.hold).rxPtr = x.rxPtr := rfl
@[simp] theorem Bus.hold_rxCnt (x : Bus) : (x.hold).rxCnt = x.rxCnt := rfl
@[simp] theorem Bus.hold_shorts (x : Bus) : (x.hold).shorts = x.shorts := rfl
@[simp] theorem Bus.hold_inten (x : Bus) : (x.hold).inten = x.inten := rfl
@[simp] theorem Bus.hold_ev (x : Bus) : (x.hold).ev = x.ev := rfl
@[simp] theorem Bus.hold_errSrc (x : Bus) : (x.hold).errSrc = x.errSrc := rfl
@[simp] theorem Bus.hold_gate (x : Bus) : (x.hold).gate = x.gate := rfl
@[simp] theorem Bus.hold_pinLock (x : Bus) : (x.hold).pinLock = x.pinLock := rfl
@[simp] theorem Bus.hold_irqEn (x : Bus) : (x.hold).irqEn = x.irqEn := rfl
@[simp] theorem Bus.hold_seq (x : Bus) : (x.hold).seq = x.seq := rfl
@[simp] theorem Bus.hold_result (x : Bus) : (x.hold).result = x.result := rfl
@[simp] theorem Bus.hold_regBuf (x : Bus) : (x.hold).regBuf = x.regBuf := rfl
@[simp] theorem Bus.hold_wlog (x : Bus) : (x.hold).wlog = x.wlog := rfl
@[simp] theorem Bus.hold_acks (x : Bus) : (x.hold).acks = x.acks := rfl
@[simp] theorem Bus.hold_rxData (x : Bus) : (x.hold).rxData = x.rxData := rfl
@[simp] theorem Bus.hold_callers (x : Bus) : (x.hold).callers = x.callers := rfl
@[simp] theorem Bus.hold_wire (x : Bus) : x.hold.wire = { x.wire with phase := .held, idx := 0 } := rfl

@[simp] theorem Bus.markError_enable (x : Bus) (k : NackKind) : (x.markError k).enable = x.enable := rfl
@[simp] theorem Bus.markError_pselScl (x : Bus) (k : NackKind) : (x.markError k).pselScl = x.pselScl := rfl
@[simp] theorem Bus.markError_pselSda (x : Bus) (k : NackKind) : (x.markError k).pselSda = x.pselSda := rfl
@[simp] theorem Bus.markError_freq (x : Bus) (k : NackKind) : (x.markError k).freq = x.freq := rfl
@[simp] theorem Bus.markError_address (x : Bus) (k : NackKind) : (x.markError k).address = x.address := rfl
@[simp] theorem Bus.markError_txPtr (x : Bus) (k : NackKind) : (x.markError k).txPtr = x.txPtr := rfl
@[simp] theorem Bus.markError_txCnt (x : Bus) (k : NackKind) : (x.markError k).txCnt = x.txCnt := rfl
@[simp] theorem Bus.markError_txAmt (x : Bus) (k : NackKind) : (x.markError k).txAmt = x.txAmt := rfl
@[simp] theorem Bus.markError_rxPtr (x : Bus) (k : NackKind) : (x.markError k).rxPtr = x.rxPtr := rfl
@[simp] theorem Bus.markError_rxCnt (x : Bus) (k : NackKind) : (x.markError k).rxCnt = x.rxCnt := rfl
@[simp] theorem Bus.markError_shorts (x : Bus) (k : NackKind) : (x.markError k).shorts = x.shorts := rfl
@[simp] theorem Bus.markError_inten (x : Bus) (k : NackKind) : (x.markError k).inten = x.inten := rfl
@[simp] theorem Bus.markError_gate (x : Bus) (k : NackKind) : (x.markError k).gate = x.gate := rfl
@[simp] theorem Bus.markError_pinLock (x : Bus) (k : NackKind) : (x.markError k).pinLock = x.pinLock := rfl
@[simp] theorem Bus.markError_irqEn (x : Bus) (k : NackKind) : (x.markError k).irqEn = x.irqEn := rfl
@[simp] theorem Bus.markError_seq (x : Bus) (k : NackKind) : (x.markError k).seq = x.seq := rfl
@[simp] theorem Bus.markError_result (x : Bus) (k : NackKind) : (x.markError k).result = x.result := rfl
@[simp] theorem Bus.markError_regBuf (x : Bus) (k : NackKind) : (x.markError k).regBuf = x.regBuf := rfl
@[simp] theorem Bus.markError_wire (x : Bus) (k : NackKind) : (x.markError k).wire = x.wire := rfl
@[simp] theorem Bus.markError_wlog (x : Bus) (k : NackKind) : (x.markError k).wlog = x.wlog := rfl
@[simp] theorem Bus.markError_acks (x : Bus) (k : NackKind) : (x.markError k).acks = x.acks := rfl
@[simp] theorem Bus.markError_rxData (x : Bus) (k : NackKind) : (x.markError k).rxData = x.rxData := rfl
@[simp] theorem Bus.markError_callers (x : Bus) (k : NackKind) : (x.markError k).callers = x.callers := rfl
@[simp] theorem Bus.markError_ev (x : Bus) (k : NackKind) : (x.markError k).ev = { x.ev with error := true } := rfl

@[simp] theorem Bus.programPins_enable (x : Bus) (d : Desc) : (x.programPins d).enable = x.enable := rfl
@[simp] theorem Bus.programPins_address (x : Bus) (d : Desc) : (x.programPins d).address = x.address := rfl
@[simp] theorem Bus.programPins_txPtr (x : Bus) (d : Desc) : (x.programPins d).txPtr = x.txPtr := rfl
@[simp] theorem Bus.programPins_txCnt (x : Bus) (d : Desc) : (x.programPins d).txCnt = x.txCnt := rfl
@[simp] theorem Bus.programPins_txAmt (x : Bus) (d : Desc) : (x.programPins d).txAmt = x.txAmt := rfl
@[simp] theorem Bus.programPins_rxPtr (x : Bus) (d : Desc) : (x.programPins d).rxPtr = x.rxPtr := rfl
@[simp] theorem Bus.programPins_rxCnt (x : Bus) (d : Desc) : (x.programPins d).rxCnt = x.rxCnt := rfl
@[simp] theorem Bus.programPins_shorts (x : Bus) (d : Desc) : (x.programPins d).shorts = x.shorts := rfl
@[simp] theorem Bus.programPins_inten (x : Bus) (d : Desc) : (x.programPins d).inten = x.inten := rfl
@[simp] theorem Bus.programPins_ev (x : Bus) (d : Desc) : (x.programPins d).ev = x.ev := rfl
@[simp] theorem Bus.programPins_errSrc (x : Bus) (d : Desc) : (x.programPins d).errSrc = x.errSrc := rfl
@[simp] theorem Bus.programPins_gate (x : Bus) (d : Desc) : (x.programPins d).gate = x.gate := rfl
@[simp] theorem Bus.programPins_pinLock (x : Bus) (d : Desc) : (x.programPins d).pinLock = x.pinLock := rfl
@[simp] theorem Bus.programPins_irqEn (x : Bus) (d : Desc) : (x.programPins d).irqEn = x.irqEn := rfl
@[simp] theorem Bus.programPins_seq (x : Bus) (d : Desc) : (x.programPins d).seq = x.seq := rfl
@[simp] theorem Bus.programPins_result (x : Bus) (d : Desc) : (x.programPins d).result = x.result := rfl
@[simp] theorem Bus.programPins_regBuf (x : Bus) (d : Desc) : (x.programPins d).regBuf = x.regBuf := rfl
@[simp] theorem Bus.programPins_wire (x : Bus) (d : Desc) : (x.programPins d).wire = x.wire := rfl
@[simp] theorem Bus.programPins_wlog (x : Bus) (d : Desc) : (x.programPins d).wlog = x.wlog := rfl
@[simp] theorem Bus.programPins_acks (x : Bus) (d : Desc) : (x.programPins d).acks = x.acks := rfl
@[simp] theorem Bus.programPins_rxData (x : Bus) (d : Desc) : (x.programPins d).rxData = x.rxData := rfl
@[simp] theorem Bus.programPins_callers (x : Bus) (d : Desc) : (x.programPins d).callers = x.callers := rfl

@[simp] theorem Bus.sendByte_enable (x : Bus) (d : Byte) (a : Answer) (l : List Answer) : (x.sendByte d a l).enable = x.enable := rfl
@[simp] theorem Bus.sendByte_pselScl (x : Bus) (d : Byte) (a : Answer) (l : List Answer) : (x.sendByte d a l).pselScl = x.pselScl := rfl
@[simp] theorem Bus.sendByte_pselSda (x : Bus) (d : Byte) (a : Answer) (l : List Answer) : (x.sendByte d a l).pselSda = x.pselSda := rfl
@[simp] theorem Bus.sendByte_freq (x : Bus) (d : Byte) (a : Answer) (l : List Answer) : (x.sendByte d a l).freq = x.freq := rfl
@[simp] theorem Bus.sendByte_address (x : Bus) (d : Byte) (a : Answer) (l : List Answer) : (x.sendByte d a l).address = x.address := rfl
@[simp] theorem Bus.sendByte_txPtr (x : Bus) (d : Byte) (a : Answer) (l : List Answer) : (x.sendByte d a l).txPtr = x.txPtr := rfl
@[simp] theorem Bus.sendByte_txCnt (x : Bus) (d : Byte) (a : Answer) (l : List Answer) : (x.sendByte d a l).txCnt = x.txCnt := rfl
@[simp] theorem Bus.sendByte_txAmt (x : Bus) (d : Byte) (a : Answer) (l : List Answer) : (x.sendByte d a l).txAmt = x.txAmt := rfl
@[simp] theorem Bus.sendByte_rxPtr (x : Bus) (d : Byte) (a : Answer) (l : List Answer) : (x.sendByte d a l).rxPtr = x.rxPtr := rfl
@[simp] theorem Bus.sendByte_rxCnt (x : Bus) (d : Byte) (a : Answer) (l : List Answer) : (x.sendByte d a l).rxCnt = x.rxCnt := rfl
@[simp] theorem Bus.sendByte_shorts (x : Bus) (d : Byte) (a : Answer) (l : List Answer) : (x.sendByte d a l).shorts = x.shorts := rfl
@[simp] theorem Bus.sendByte_inten (x : Bus) (d : Byte) (a : Answer) (l : List Answer) : (x.sendByte d a l).inten = x.inten := rfl
@[simp] theorem Bus.sendByte_ev (x : Bus) (d : Byte) (a : Answer) (l : List Answer) : (x.sendByte d a l).ev = x.ev := rfl
@[simp] theorem Bus.sendByte_errSrc (x : Bus) (d : Byte) (a : Answer) (l : List Answer) : (x.sendByte d a l).errSrc = x.errSrc := rfl
@[simp] theorem Bus.sendByte_gate (x : Bus) (d : Byte) (a : Answer) (l : List Answer) : (x.sendByte d a l).gate = x.gate := rfl
@[simp] theorem Bus.sendByte_pinLock (x : Bus) (d : Byte) (a : Answer) (l : List Answer) : (x.sendByte d a l).pinLock = x.pinLock := rfl
@[simp] theorem Bus.sendByte_irqEn (x : Bus) (d : Byte) (a : Answer) (l : List Answer) : (x.sendByte d a l).irqEn = x.irqEn := rfl
@[simp] theorem Bus.sendByte_seq (x : Bus) (d : Byte) (a : Answer) (l : List Answer) : (x.sendByte d a l).seq = x.seq := rfl
@[simp] theorem Bus.sendByte_result (x : Bus) (d : Byte) (a : Answer) (l : List Answer) : (x.sendByte d a l).result = x.result := rfl
@[simp] theorem Bus.sendByte_regBuf (x : Bus) (d : Byte) (a : Answer) (l : List Answer) : (x.sendByte d a l).regBuf = x.regBuf := rfl
@[simp] theorem Bus.sendByte_wire (x : Bus) (d : Byte) (a : Answer) (l : List Answer) : (x.sendByte d a l).wire = x.wire := rfl
@[simp] theorem Bus.sendByte_rxData (x : Bus) (d : Byte) (a : Answer) (l : List Answer) : (x.sendByte d a l).rxData = x.rxData := rfl
@[simp] theorem Bus.sendByte_callers (x : Bus) (d : Byte) (a : Answer) (l : List Answer) : (x.sendByte d a l).callers = x.callers := rfl
@[simp] theorem Bus.sendByte_wlog (x : Bus) (d : Byte) (a : Answer) (l : List Answer) :
    (x.sendByte d a l).wlog = x.wlog ++ [.data d, .answer a] := rfl
@[simp] theorem Bus.sendByte_acks (x : Bus) (d : Byte) (a : Answer) (l : List Answer) : (x.sendByte d a l).acks = l := rfl

end Sys2Proof.Machine
end

