-- ==== Sys2Proof/Laws/Exec.lean ====
section
/-! SUPPORT. What the shared operations of the meanings can do, said once: the entry check, the check phase, the staging
phases, the start, `FINISH`, the NACK rule and the steps of the wire engine. -/

namespace Sys2Proof.Machine

/-- Two changes of one bus are one change. -/
theorem State.updBus_updBus (s : State) (b : BusId) (f g : Bus → Bus) :
    (s.updBus b f).updBus b g = s.updBus b (fun x => g (f x)) := by
  simp [State.updBus]

/-- On a well-formed command of an existing bus the entry check lets the meaning run. -/
theorem entry_run (i : Instr) (s : State) (run : Res) (hi : i.wf = true) (hb : s.hasBus i.bus = true) :
    entry i s run = run := by
  unfold entry
  cases h : i.reject? <;> simp_all [Instr.wf]

/-- On a bus that does not exist the entry check sets the fault latch and nothing else. -/
theorem entry_badBus (i : Instr) (s : State) (run : Res) (hi : i.wf = true) (hb : s.hasBus i.bus = false) :
    entry i s run = .next { s with fault := some ⟨.badBus, i.bus⟩ } := by
  unfold entry
  cases h : i.reject? <;> simp_all [Instr.wf, State.raise]

/-- What the entry check lets through: the meaning, or the violation of a bus that does not exist. -/
theorem entry_next (i : Instr) (s t : State) (run : Res) (h : entry i s run = .next t) :
    (i.wf = true ∧ s.hasBus i.bus = true ∧ run = .next t) ∨
    (s.hasBus i.bus = false ∧ t = { s with fault := some ⟨.badBus, i.bus⟩ }) := by
  unfold entry at h
  split at h
  · cases h
  · rename_i hr
    split at h
    · exact .inl ⟨by simp [Instr.wf, hr], ‹_›, h⟩
    · rename_i hb
      simp only [Bool.not_eq_true] at hb
      simp only [Host.Outcome.next.injEq, State.raise, hb, Bool.false_eq_true, if_false] at h
      exact .inr ⟨hb, h.symm⟩

/-- A violation on an existing bus: the latch and the sequencer's phase. -/
theorem State.raise_hasBus (s : State) (c : ContractCheck) (b : BusId) (hb : s.hasBus b = true) :
    s.raise c b = { s.updBus b (fun x => x.toPhase .faulted) with fault := some ⟨c, b⟩ } := by
  unfold State.raise
  have : State.hasBus { s with fault := some ⟨c, b⟩ } b = true := hb
  simp [hb, State.toPhase, State.updBus, State.setBus]

/-- What `P_CHECK` does: a violation, `E_UNSUPPORTED`, or the phase the staging decision names. -/
theorem checkStep_cases (i : Instr) (mask f : Byte) (stages : Bool) (s : State) :
    (∃ c, violation s.cfg i = some c ∧ checkStep i mask f stages s = .next (s.raise c i.bus)) ∨
    (violation s.cfg i = none ∧ rejected mask f = true ∧ checkStep i mask f stages s = .next (s.ret i.bus .unsupported)) ∨
    (violation s.cfg i = none ∧ rejected mask f = false ∧
      checkStep i mask f stages s = .next (s.toPhase i.bus (if stages then .stageLock else .program))) := by
  unfold checkStep
  cases h : violation s.cfg i <;> cases h' : rejected mask f <;> simp

/-- What `P_STAGE_LOCK` does. -/
theorem stageLockStep_cases (b : BusId) (s : State) :
    (s.slock = .free ∧ stageLockStep b s = .next ((s.takeSLock b).toPhase b .stageCopy)) ∨
    (s.slock ≠ .free ∧ stageLockStep b s = .next s) := by
  unfold stageLockStep
  cases h : s.slock <;> simp

/-- What `P_STAGE_COPY` does: the frame is at the head of the buffer, whose length is kept. -/
theorem stageCopyStep_next (b : BusId) (frame : List Byte) (s t : State) (h : stageCopyStep b frame s = .next t) :
    frame.length ≤ Config.stagingCap ∧
    t = { s.updBus b (fun x => x.toPhase .program) with staging := frame ++ s.staging.drop frame.length } := by
  unfold stageCopyStep State.fillStaging at h
  split at h
  · rename_i t' ht
    split at ht
    · rename_i hl
      cases ht
      refine ⟨hl, ?_⟩
      simpa [State.toPhase, State.updBus, State.setBus] using h.symm
    · cases ht
  · cases h

/-- What `P_START` does once its task has been triggered. -/
theorem startStep_next (b : BusId) (r : Except Refusal Bus) (s t : State) (h : startStep b r s = .next t) :
    ∃ x, r = .ok x ∧ t = s.setBus b (x.toPhase .unmask) := by
  unfold startStep at h
  split at h
  · exact ⟨_, rfl, by simpa using h.symm⟩
  · cases h

/-- What the start-transmit task does: nothing while disabled, else the transmit is set going on a bus at rest. -/
theorem startTx_ok (c : Config) (x y : Bus) (h : startTx c x = .ok y) :
    (x.enable = false ∧ y = x) ∨
    (x.enable = true ∧ x.wire.atRest = true ∧ x.txCnt ≠ 0 ∧
      y = { x with txAmt := if c.txAmtZeroed then 0 else x.txAmt, wire := { x.wire with phase := .txAddr, idx := 0 } }) := by
  unfold startTx at h
  cases he : x.enable
  · simp_all
  · cases hr : x.wire.atRest
    · simp_all
    · by_cases h0 : x.txCnt = 0 <;> simp_all

/-- What the start-receive task does. -/
theorem startRx_ok (x y : Bus) (h : startRx x = .ok y) :
    (x.enable = false ∧ y = x) ∨
    (x.enable = true ∧ x.wire.atRest = true ∧ x.rxCnt ≠ 0 ∧
      y = { x with wire := { x.wire with phase := .rxAddr, idx := 0 } }) := by
  unfold startRx at h
  cases he : x.enable
  · simp_all
  · cases hr : x.wire.atRest
    · simp_all
    · by_cases h0 : x.rxCnt = 0 <;> simp_all

/-- What a step of `FINISH` does: nothing while blocked or in a phase not its own, else one of its five steps. -/
theorem finishStep_next (b : BusId) (s t : State) (h : finishStep b s = .next t) :
    t = s ∨
    ((s.bus b).seq.phase = .unmask ∧ t = s.updBus b Bus.unmask) ∨
    ((s.bus b).seq.phase = .wait ∧ (s.bus b).gate = .unlocked ∧ (s.bus b).enable = true ∧ t = s.updBus b Bus.wake) ∨
    ((s.bus b).seq.phase = .poll ∧ (s.bus b).pollDone = true ∧ t = s.toPhase b .ack) ∨
    ((s.bus b).seq.phase = .ack ∧ t = s.updBus b Bus.ackStopped) ∨
    ((s.bus b).seq.phase = .classify ∧ t = s.updBus b Bus.finishClassify) := by
  unfold finishStep at h
  cases hp : (s.bus b).seq.phase <;> simp only [hp, Host.Outcome.next.injEq] at h
  case wait =>
    split at h
    · rename_i hw
      simp only [Bus.waitDone, Bool.and_eq_true, beq_iff_eq] at hw
      exact .inr (.inr (.inl ⟨rfl, hw.2, hw.1, by simpa using h.symm⟩))
    · exact .inl (by simpa using h.symm)
  case poll =>
    split at h
    · exact .inr (.inr (.inr (.inl ⟨rfl, ‹_›, by simpa using h.symm⟩)))
    · exact .inl (by simpa using h.symm)
  all_goals subst h; simp

/-- `FINISH` never stops. -/
theorem finishStep_exists (b : BusId) (s : State) : ∃ t, finishStep b s = .next t := by
  unfold finishStep
  cases hp : (s.bus b).seq.phase <;> simp only [hp] <;> first | exact ⟨_, rfl⟩ | (split <;> exact ⟨_, rfl⟩)

/-- The NACK rule changes its own bus and the free-value count. -/
theorem State.nack_eq (s : State) (b : BusId) (k : NackKind) :
    ∃ (stop : Bool) (d : Nat),
      s.nack b k = { s.updBus b (fun x => if stop then (x.markError k).stop else (x.markError k).hold) with draws := d } ∧
      (s.cfg.nackStop = .stop → stop = true) ∧ (s.cfg.nackStop = .hold → stop = false) := by
  unfold State.nack
  cases hc : s.cfg.nackStop
  · exact ⟨true, s.draws, by simp [State.updBus_updBus]; rfl, by simp, by simp⟩
  · exact ⟨false, s.draws, by simp [State.updBus_updBus]; rfl, by simp, by simp⟩
  · exact ⟨Config.freeBit s.draws, s.draws + 1, by simp [State.updBus_updBus], by simp, by simp⟩

/-- A data NACK: the transmitted count is one of the two candidates, then the NACK rule (43 R153, R155). -/
theorem State.dataNack_eq (s : State) (b : BusId) (i : Nat) :
    ∃ (stop : Bool) (amt : Byte) (d : Nat),
      s.dataNack b i = { s.updBus b (fun x =>
        if stop then (Bus.markError { x with txAmt := amt } .dnack).stop
        else (Bus.markError { x with txAmt := amt } .dnack).hold) with draws := d } ∧
      (amt = BitVec.ofNat 8 i ∨ amt = BitVec.ofNat 8 (i + 1)) ∧
      (s.cfg.nackStop = .stop → stop = true) ∧ (s.cfg.nackStop = .hold → stop = false) := by
  let amt := BitVec.ofNat 8 (if Config.freeBit s.draws then i else i + 1)
  obtain ⟨stop, d, h1, h2, h3⟩ :=
    State.nack_eq { s.updBus b (fun x => { x with txAmt := amt }) with draws := s.draws + 1 } b .dnack
  refine ⟨stop, amt, d, ?_, ?_, h2, h3⟩
  · have : s.dataNack b i = State.nack { s.updBus b (fun x => { x with txAmt := amt }) with draws := s.draws + 1 } b .dnack := rfl
    rw [this, h1]
    simp only [State.updBus_mk, State.updBus_updBus]
    rfl
  · by_cases h : Config.freeBit s.draws = true
    · exact .inl (by simp only [amt, h, if_true])
    · exact .inr (by simp only [amt, h, Bool.false_eq_true, if_false])

end Sys2Proof.Machine
end

