-- ==== Sys2Proof/Laws/Memory.lean ====
section
/-! SUPPORT. The laws of `MEM`: read after write, a write leaves every other byte alone, and every memory operation keeps
the canonical form and the address space. -/

namespace Sys2Proof.Machine

/-- The canonical form of a nonempty list, taken apart. -/
theorem Memory.wf_cons (c : Host.Cell) (m : Memory) :
    Memory.wf (c :: m) = true ↔ c.2 ≠ Memory.unlisted ∧ (∀ d ∈ m, c.1 < d.1) ∧ Memory.wf m = true := by
  simp [Memory.wf, and_assoc]

/-- An address below every listed one is unlisted. -/
theorem Memory.read_of_lt (m : Memory) (a : Nat) (h : ∀ d ∈ m, a < d.1) : Memory.read m a = Memory.unlisted := by
  induction m with
  | nil => rfl
  | cons c m ih =>
    have hc : a < c.1 := h c (by simp)
    simp only [Memory.read, Nat.ne_of_lt hc, if_false]
    exact ih fun d hd => h d (by simp [hd])

/-- The addresses a write lists are the old ones and its own. -/
theorem Memory.mem_write (m : Memory) (a : Nat) (v : Byte) (d : Host.Cell) (h : d ∈ Memory.write m a v) :
    d ∈ m ∨ d.1 = a := by
  induction m with
  | nil =>
    unfold Memory.write at h
    split at h
    · simp at h
    · simp at h; simp [h]
  | cons c m ih =>
    unfold Memory.write at h
    split at h
    · split at h
      · exact .inl h
      · rcases List.mem_cons.1 h with h | h
        · simp [h]
        · exact .inl h
    · split at h
      · split at h
        · exact .inl (List.mem_cons_of_mem _ h)
        · rcases List.mem_cons.1 h with h | h
          · simp [h]
          · exact .inl (List.mem_cons_of_mem _ h)
      · rcases List.mem_cons.1 h with h | h
        · simp [h]
        · rcases ih h with h | h
          · exact .inl (List.mem_cons_of_mem _ h)
          · exact .inr h

/-- A write keeps the canonical form. -/
theorem Memory.write_wf (m : Memory) (a : Nat) (v : Byte) (h : Memory.wf m = true) : Memory.wf (Memory.write m a v) = true := by
  induction m with
  | nil =>
    unfold Memory.write
    split
    · rfl
    · simpa [Memory.wf]
  | cons c m ih =>
    obtain ⟨hv, hlt, hm⟩ := (Memory.wf_cons c m).1 h
    unfold Memory.write
    split
    · rename_i hac
      split
      · exact h
      · rename_i hne
        refine (Memory.wf_cons _ _).2 ⟨hne, fun d hd => ?_, h⟩
        rcases List.mem_cons.1 hd with rfl | hd
        · exact hac
        · exact Nat.lt_trans hac (hlt d hd)
    · split
      · rename_i hac
        split
        · exact hm
        · rename_i hne
          exact (Memory.wf_cons _ _).2 ⟨hne, fun d hd => hac ▸ hlt d hd, hm⟩
      · rename_i h1 h2
        refine (Memory.wf_cons _ _).2 ⟨hv, fun d hd => ?_, ih hm⟩
        rcases Memory.mem_write m a v d hd with hd | hd
        · exact hlt d hd
        · omega

/-- A read after a write to the same address gives the value written. -/
theorem Memory.read_write_self (m : Memory) (a : Nat) (v : Byte) (h : Memory.wf m = true) :
    Memory.read (Memory.write m a v) a = v := by
  induction m with
  | nil =>
    unfold Memory.write
    split
    · rename_i hv; simp [Memory.read, hv]
    · simp [Memory.read]
  | cons c m ih =>
    obtain ⟨-, hlt, hm⟩ := (Memory.wf_cons c m).1 h
    unfold Memory.write
    split
    · rename_i hac
      split
      · rename_i hv
        rw [hv]
        refine Memory.read_of_lt _ _ fun d hd => ?_
        rcases List.mem_cons.1 hd with rfl | hd
        · exact hac
        · exact Nat.lt_trans hac (hlt d hd)
      · simp [Memory.read]
    · split
      · rename_i hac
        split
        · rename_i hv
          rw [hv]
          exact Memory.read_of_lt _ _ fun d hd => hac ▸ hlt d hd
        · simp [Memory.read]
      · rename_i h1 h2
        simp [Memory.read, h2, ih hm]

/-- A write leaves every other address alone. -/
theorem Memory.read_write_ne (m : Memory) (a x : Nat) (v : Byte) (hx : x ≠ a) :
    Memory.read (Memory.write m a v) x = Memory.read m x := by
  induction m with
  | nil =>
    unfold Memory.write
    split
    · rfl
    · simp [Memory.read, hx]
  | cons c m ih =>
    unfold Memory.write
    split
    · split
      · rfl
      · simp [Memory.read, hx]
    · split
      · rename_i hac
        split
        · simp [Memory.read, ← hac, hx]
        · simp [Memory.read, ← hac, hx]
      · simp only [Memory.read, ih]

/-- A write inside the address space keeps the memory inside it. -/
theorem Memory.write_within (m : Memory) (a n : Nat) (v : Byte) (h : ∀ c ∈ m, c.1 < n) (ha : a < n) :
    ∀ c ∈ Memory.write m a v, c.1 < n := fun c hc => by
  rcases Memory.mem_write m a v c hc with hc | hc
  · exact h c hc
  · omega

/-- Every address of a buffer lies inside the address space. -/
theorem Config.byteAddr_lt (c : Config) (p : Nat) (i : Nat) : Config.byteAddr c p i < 2 ^ c.addrW :=
  Nat.mod_lt _ (Nat.two_pow_pos _)

/-- Inside the address space `PTR + i` does not wrap (20 R69). -/
theorem Config.byteAddr_eq (c : Config) (p : Nat) (i n : Nat) (hi : i < n) (h : p + n ≤ 2 ^ c.addrW) :
    Config.byteAddr c p i = p + i := Nat.mod_eq_of_lt (by omega)

end Sys2Proof.Machine
end

