-- ==== Sys2Proof/Laws/Moves.lean ====
section
/-! SUPPORT. Everything a step can do, said once: the moves of the wire engine, of an operation's meaning and of an agent,
each with the guards under which it is made, and the inversion theorems that a `next` answer is one of them. -/

namespace Sys2Proof.Machine

/-- The state after an address phase that the slave did not acknowledge, before the NACK rule. -/
def Bus.addressed (x : Bus) (a : Answer) (rest : List Answer) : Bus :=
  { x.emit (x.addressSyms ++ [.answer a]) with acks := rest, wire := { x.wire with held := true } }

/-- A transfer ends in a NACK: the error, then the stop or the held bus. -/
def Bus.nacked (x : Bus) (k : NackKind) (stop : Bool) : Bus :=
  if stop then (x.markError k).stop else (x.markError k).hold

/-- The moves of the wire engine of bus `b` (43 R152 to R157). -/
inductive WireMove (s : State) (b : BusId) : State → Prop where
  | addressAck (rest : List Answer) (hp : (s.bus b).wire.phase = .txAddr ∨ (s.bus b).wire.phase = .rxAddr)
      (ha : (s.bus b).acks = .ack :: rest) :
      WireMove s b (s.setBus b { (s.bus b).addressed .ack rest with
        wire := ⟨if (s.bus b).wire.phase = .txAddr then .tx else .rx, (s.bus b).wire.idx, true⟩ })
  | addressNack (rest : List Answer) (stop : Bool) (d : Nat)
      (hp : (s.bus b).wire.phase = .txAddr ∨ (s.bus b).wire.phase = .rxAddr) (ha : (s.bus b).acks = .nack :: rest) :
      WireMove s b { s.setBus b (((s.bus b).addressed .nack rest).nacked .anack stop) with draws := d }
  | byteAck (v : Byte) (rest : List Answer) (hp : (s.bus b).wire.phase = .tx)
      (hi : (s.bus b).wire.idx + 1 < (s.bus b).txCnt.toNat) (ha : (s.bus b).acks = .ack :: rest)
      (hv : s.txByte b (s.bus b).wire.idx = .ok v) :
      WireMove s b (s.setBus b { (s.bus b).sendByte v .ack rest with
        txAmt := BitVec.ofNat 8 ((s.bus b).wire.idx + 1), wire := { (s.bus b).wire with idx := (s.bus b).wire.idx + 1 } })
  | byteNack (v : Byte) (rest : List Answer) (i : Nat) (stop : Bool) (amt : Byte) (d : Nat)
      (hp : (s.bus b).wire.phase = .tx ∧ i = (s.bus b).wire.idx ∧ i + 1 < (s.bus b).txCnt.toNat ∨
        (s.bus b).wire.phase = .txLast ∧ i + 1 = (s.bus b).txCnt.toNat)
      (ha : (s.bus b).acks = .nack :: rest) (hv : s.txByte b i = .ok v)
      (ht : amt = BitVec.ofNat 8 i ∨ amt = BitVec.ofNat 8 (i + 1)) :
      WireMove s b { s.setBus b (Bus.nacked { (s.bus b).sendByte v .nack rest with txAmt := amt } .dnack stop) with draws := d }
  | lastBegins (hp : (s.bus b).wire.phase = .tx) (hi : (s.bus b).wire.idx + 1 = (s.bus b).txCnt.toNat) :
      WireMove s b (s.setBus b { s.bus b with
        ev := { (s.bus b).ev with lastTx := true }, wire := { (s.bus b).wire with phase := .txLast } })
  | lastAck (v : Byte) (rest : List Answer) (y : Bus) (hp : (s.bus b).wire.phase = .txLast) (h0 : 0 < (s.bus b).txCnt.toNat)
      (ha : (s.bus b).acks = .ack :: rest) (hv : s.txByte b ((s.bus b).txCnt.toNat - 1) = .ok v)
      (hy : Bus.afterTransmit { (s.bus b).sendByte v .ack rest with txAmt := (s.bus b).txCnt } = .ok y) :
      WireMove s b (s.setBus b y)
  | received (v : Byte) (rest : List Byte) (hp : (s.bus b).wire.phase = .rx)
      (hi : (s.bus b).wire.idx + 1 < (s.bus b).rxCnt.toNat) (hd : (s.bus b).rxData = v :: rest) :
      WireMove s b (s.storeReceived b v rest)
  | receivedLast (v : Byte) (rest : List Byte) (hp : (s.bus b).wire.phase = .rx)
      (hi : (s.bus b).wire.idx + 1 = (s.bus b).rxCnt.toNat) (hd : (s.bus b).rxData = v :: rest)
      (hl : (s.bus b).shorts.lrxStop = true) :
      WireMove s b ((s.storeReceived b v rest).updBus b (fun y => Bus.stop { y with ev := { y.ev with lastRx := true } }))

theorem Byte.toNat_pos (c : Byte) (h : ¬c = 0) : 0 < c.toNat := by
  rcases Nat.eq_zero_or_pos c.toNat with h0 | h0
  · exact absurd (BitVec.eq_of_toNat_eq (by simpa using h0)) h
  · exact h0

/-- A turn of the wire engine that answers a next state changes nothing or is one of its moves. -/
theorem wireStep_move (b : BusId) (s t : State) (h : wireStep b s = .next t) :
    t = s ∨ (s.hasBus b = true ∧ (s.bus b).enable = true ∧ WireMove s b t) := by
  simp only [wireStep] at h
  split at h
  · cases h; exact .inl rfl
  · rename_i hbe
    simp only [Bool.not_eq_true', Bool.not_eq_false, Bool.and_eq_true] at hbe
    obtain ⟨hb, he⟩ := hbe
    suffices t = s ∨ WireMove s b t from this.imp_right fun m => ⟨hb, he, m⟩
    have haddr : ((s.bus b).wire.phase = .txAddr ∨ (s.bus b).wire.phase = .rxAddr) → addressStep b s = .next t →
        t = s ∨ WireMove s b t := fun hp h => by
      simp only [addressStep] at h
      split at h
      · cases h; exact .inl rfl
      · rename_i a rest ha
        cases a
        · simp only [Host.Outcome.next.injEq] at h
          subst h
          exact .inr (.addressAck rest hp ha)
        · simp only [Host.Outcome.next.injEq] at h
          obtain ⟨stop, d, hn, -, -⟩ := State.nack_eq (s.setBus b ((s.bus b).addressed .nack rest)) b .anack
          have ht : t = State.nack (s.setBus b ((s.bus b).addressed .nack rest)) b .anack := h.symm
          rw [hn] at ht
          subst ht
          have := WireMove.addressNack rest stop d hp ha
          simpa [State.updBus, Bus.nacked] using .inr this
    have hdn : ∀ v rest i, (s.bus b).acks = .nack :: rest → s.txByte b i = .ok v →
        ((s.bus b).wire.phase = .tx ∧ i = (s.bus b).wire.idx ∧ i + 1 < (s.bus b).txCnt.toNat ∨
          (s.bus b).wire.phase = .txLast ∧ i + 1 = (s.bus b).txCnt.toNat) →
        t = (s.setBus b ((s.bus b).sendByte v .nack rest)).dataNack b i → WireMove s b t := fun v rest i ha hv hp ht => by
      obtain ⟨stop, amt, d, hn, hamt, -, -⟩ := State.dataNack_eq (s.setBus b ((s.bus b).sendByte v .nack rest)) b i
      rw [hn] at ht
      subst ht
      simpa [State.updBus, Bus.nacked] using WireMove.byteNack v rest i stop amt d hp ha hv hamt
    cases hp : (s.bus b).wire.phase <;> simp only [hp] at h
    case idle => cases h; exact .inl rfl
    case held => cases h; exact .inl rfl
    case txAddr => exact haddr (.inl hp) h
    case rxAddr => exact haddr (.inr hp) h
    case tx =>
      split at h
      · rename_i hi
        simp only [txByteStep] at h
        split at h
        · cases h; exact .inl rfl
        · rename_i a rest ha
          split at h
          · cases h
          · rename_i v hv
            cases a <;> simp only [Host.Outcome.next.injEq] at h
            · subst h; exact .inr (.byteAck v rest hp hi ha hv)
            · exact .inr (hdn v rest _ ha hv (.inl ⟨hp, rfl, hi⟩) h.symm)
      · split at h
        · rename_i hi
          simp only [Machine.lastBegins, Host.Outcome.next.injEq] at h
          subst h; exact .inr (.lastBegins hp hi)
        · cases h
    case txLast =>
      simp only [lastEnds] at h
      split at h
      · cases h; exact .inl rfl
      · rename_i a rest ha
        split at h
        · cases h
        · rename_i h0
          have h0' := Byte.toNat_pos _ h0
          split at h
          · cases h
          · rename_i v hv
            cases a <;> simp only at h
            · split at h
              · rename_i y hy
                cases h; exact .inr (.lastAck v rest y hp h0' ha hv hy)
              · cases h
            · simp only [Host.Outcome.next.injEq] at h
              exact .inr (hdn v rest _ ha hv (.inr ⟨hp, by omega⟩) h.symm)
    case rx =>
      simp only [rxStep] at h
      split at h
      · cases h; exact .inl rfl
      · rename_i v rest hd
        split at h
        · rename_i hi
          cases h; exact .inr (.received v rest hp hi hd)
        · split at h
          · rename_i hi
            split at h
            · rename_i hl
              cases h; exact .inr (.receivedLast v rest hp hi hd hl)
            · cases h
          · cases h


/-- The moves of the meaning of operation `i` (40, 41, 42), each with the phase it is made in. -/
inductive ExecMove (i : Instr) (s : State) : State → Prop where
  | blocked : ExecMove i s s
  | violated (c : ContractCheck)
      (hp : (s.bus i.bus).seq.phase = .uninit ∨ (s.bus i.bus).seq.phase = .check) :
      ExecMove i s { s.updBus i.bus (fun x => x.toPhase .faulted) with fault := some ⟨c, i.bus⟩ }
  | init (ho : i.opcode = 0) (hp : (s.bus i.bus).seq.phase = .uninit) :
      ExecMove i s { s.updBus i.bus (fun x => (x.initialised (s.desc i.bus)).ret .ok) with
        extCalls := s.extCalls ++ initCalls i.bus (s.desc i.bus) }
  | acquireNow (ho : i.opcode = 1) (hp : (s.bus i.bus).seq.phase = .idle) (hs : (s.desc i.bus).sharesPins = false) :
      ExecMove i s (s.updBus i.bus (fun x => ((x.latch i).acquired (s.desc i.bus)).ret .ok))
  | acquireWaits (ho : i.opcode = 1) (hp : (s.bus i.bus).seq.phase = .idle) (hs : (s.desc i.bus).sharesPins = true) :
      ExecMove i s (s.updBus i.bus (fun x => (x.latch i).toPhase .pinLock))
  | acquireTakes (ho : i.opcode = 1) (hp : (s.bus i.bus).seq.phase = .pinLock) (hl : (s.bus i.bus).pinLock = .free) :
      ExecMove i s (s.updBus i.bus (fun x => ({ x with pinLock := .held }.acquired (s.desc i.bus)).ret .ok))
  | release (ho : i.opcode = 2) (hp : (s.bus i.bus).seq.phase = .idle) (hh : (s.bus i.bus).wire.held = false) :
      ExecMove i s (s.updBus i.bus (fun x => ((x.latch i).released (s.desc i.bus)).ret .ok))
  | accept (ht : i.isTransfer = true) (hp : (s.bus i.bus).seq.phase = .idle) :
      ExecMove i s (s.updBus i.bus (fun x => (x.latch i).toPhase .check))
  | unsupported (ht : i.isTransfer = true) (hp : (s.bus i.bus).seq.phase = .check) (hv : violation s.cfg i = none) :
      ExecMove i s (s.updBus i.bus (fun x => x.ret .unsupported))
  | checked (ht : i.isTransfer = true) (hp : (s.bus i.bus).seq.phase = .check) (hv : violation s.cfg i = none)
      (hf : rejected i.rejects i.flags = false) :
      ExecMove i s (s.updBus i.bus (fun x => x.toPhase (if i.stages s.cfg then .stageLock else .program)))
  | stageLock (ho : i.opcode = 4 ∨ i.opcode = 5) (hp : (s.bus i.bus).seq.phase = .stageLock) (hl : s.slock = .free) :
      ExecMove i s ((s.takeSLock i.bus).toPhase i.bus .stageCopy)
  | stageCopy (frame : List Byte) (ho : i.opcode = 4 ∨ i.opcode = 5) (hp : (s.bus i.bus).seq.phase = .stageCopy)
      (hl : frame.length ≤ Config.stagingCap) :
      ExecMove i s { s.updBus i.bus (fun x => x.toPhase .program) with staging := frame ++ s.staging.drop frame.length }
  | programTx (a : Half) (src : TxSource) (n : Nat) (f : Byte) (ho : i.opcode = 4 ∨ i.opcode = 5)
      (hp : (s.bus i.bus).seq.phase = .program) (hs : src = .staging ∨ src = .mem i.ptr)
      (hn : violation s.cfg i = none → 0 < n ∧ n ≤ 255) :
      ExecMove i s (s.updBus i.bus (fun x => x.programTx a src n (flagNoStop f)))
  | programRx (a n : Half) (ho : i.opcode = 6) (hp : (s.bus i.bus).seq.phase = .program)
      (hn : violation s.cfg i = none → 0 < n.toNat ∧ n.toNat ≤ 255) :
      ExecMove i s (s.updBus i.bus (fun x => x.programRx a i.ptr n.toNat))
  | programTxRx (a : Half) (f : Byte) (r n : Half) (ho : i.opcode = 7) (hp : (s.bus i.bus).seq.phase = .program)
      (hn : violation s.cfg i = none → 0 < n.toNat ∧ n.toNat ≤ 255) :
      ExecMove i s (s.updBus i.bus (fun x => x.programTxRx a f r i.ptr n.toNat))
  | startTx (x : Bus) (ho : i.opcode = 4 ∨ i.opcode = 5 ∨ i.opcode = 7) (hp : (s.bus i.bus).seq.phase = .start)
      (hx : startTx s.cfg (s.bus i.bus) = .ok x) : ExecMove i s (s.setBus i.bus (x.toPhase .unmask))
  | startRx (x : Bus) (ho : i.opcode = 6) (hp : (s.bus i.bus).seq.phase = .start)
      (hx : startRx (s.bus i.bus) = .ok x) : ExecMove i s (s.setBus i.bus (x.toPhase .unmask))
  | unmask (ht : i.isTransfer = true) (hp : (s.bus i.bus).seq.phase = .unmask) : ExecMove i s (s.updBus i.bus Bus.unmask)
  | wake (ht : i.isTransfer = true) (hp : (s.bus i.bus).seq.phase = .wait) (hg : (s.bus i.bus).gate = .unlocked) (he : (s.bus i.bus).enable = true) :
      ExecMove i s (s.updBus i.bus Bus.wake)
  | polled (ht : i.isTransfer = true) (hp : (s.bus i.bus).seq.phase = .poll) (hd : (s.bus i.bus).pollDone = true) :
      ExecMove i s (s.toPhase i.bus .ack)
  | ackStopped (ht : i.isTransfer = true) (hp : (s.bus i.bus).seq.phase = .ack) :
      ExecMove i s (s.updBus i.bus Bus.ackStopped)
  | classify (ht : i.isTransfer = true) (hp : (s.bus i.bus).seq.phase = .classify) :
      ExecMove i s (s.updBus i.bus Bus.finishClassify)
  | unstage (ho : i.opcode = 4 ∨ i.opcode = 5) (hp : (s.bus i.bus).seq.phase = .unstage) :
      ExecMove i s ((s.dropSLock i.bus).ret i.bus (s.bus i.bus).seq.res)

/-- The operand limits that a passed contract check leaves (41 R101). -/
theorem operandViolation_none (c : Config) (m : Nat) (rx : Bool) (n : Half) (p : Nat)
    (h : operandViolation c m rx n p = none) : 0 < n.toNat ∧ n.toNat ≤ m ∧ p + n.toNat ≤ 2 ^ c.addrW := by
  unfold operandViolation at h
  split at h
  · cases h
  · split at h
    · cases h
    · rename_i h0
      split at h
      · cases h
      · split at h
        · cases h
        · have : n.toNat ≠ 0 := fun e => h0 (BitVec.eq_of_toNat_eq (by simpa using e))
          omega

/-- What `FINISH` does, as a move. -/
theorem finishStep_move (i : Instr) (s t : State) (ht : i.isTransfer = true) (h : finishStep i.bus s = .next t) :
    ExecMove i s t := by
  rcases finishStep_next i.bus s t h with rfl | ⟨hp, rfl⟩ | ⟨hp, hg, he, rfl⟩ | ⟨hp, hd, rfl⟩ | ⟨hp, rfl⟩ | ⟨hp, rfl⟩
  · exact .blocked
  · exact .unmask ht hp
  · exact .wake ht hp hg he
  · exact .polled ht hp hd
  · exact .ackStopped ht hp
  · exact .classify ht hp

/-- The check phase of a transfer makes one of three moves. -/
theorem checkStep_move (i : Instr) (s t : State) (ht : i.isTransfer = true) (hb : s.hasBus i.bus = true)
    (hp : (s.bus i.bus).seq.phase = .check) (h : checkStep i i.rejects i.flags (i.stages s.cfg) s = .next t) :
    ExecMove i s t := by
  rcases checkStep_cases i i.rejects i.flags (i.stages s.cfg) s with ⟨c, -, h'⟩ | ⟨hv, -, h'⟩ | ⟨hv, hf, h'⟩ <;>
    rw [h'] at h <;> simp only [Host.Outcome.next.injEq] at h <;> subst h
  · rw [State.raise_hasBus _ _ _ hb]
    exact .violated c (.inr hp)
  · exact .unsupported ht hp hv
  · exact .checked ht hp hv hf

/-- What `P_STAGE_LOCK` does, as a move. -/
theorem stageLockStep_move (i : Instr) (s t : State) (ho : i.opcode = 4 ∨ i.opcode = 5)
    (hp : (s.bus i.bus).seq.phase = .stageLock) (h : stageLockStep i.bus s = .next t) : ExecMove i s t := by
  rcases stageLockStep_cases i.bus s with ⟨hl, h'⟩ | ⟨hl, h'⟩ <;> rw [h'] at h <;>
    simp only [Host.Outcome.next.injEq] at h <;> subst h
  · exact .stageLock ho hp hl
  · exact .blocked

/-- What `P_STAGE_COPY` does, as a move. -/
theorem stageCopyStep_move (i : Instr) (s t : State) (frame : List Byte) (ho : i.opcode = 4 ∨ i.opcode = 5)
    (hp : (s.bus i.bus).seq.phase = .stageCopy) (h : stageCopyStep i.bus frame s = .next t) : ExecMove i s t := by
  obtain ⟨hl, rfl⟩ := stageCopyStep_next i.bus frame s t h
  exact .stageCopy frame ho hp hl

/-- An answered next state of a meaning is the violation of a bus that does not exist, or one of its moves. -/
theorem exec_move (i : Instr) (s t : State) (h : exec i s = .next t) :
    (s.hasBus i.bus = false ∧ t = { s with fault := some ⟨.badBus, i.bus⟩ }) ∨
    (s.hasBus i.bus = true ∧ ExecMove i s t) := by
  have blocked : ∀ {u}, Host.Outcome.next s = (.next u : Res) → ExecMove i s u := fun e => by
    cases e; exact .blocked
  have busy : s.hasBus i.bus = true → (s.bus i.bus).seq.phase = .uninit → busyStep i s = .next t → ExecMove i s t :=
    fun hb hp e => by
      simp only [busyStep, Host.Outcome.next.injEq] at e
      rw [← e, State.raise_hasBus _ _ _ hb]
      exact .violated _ (.inl hp)
  have start : ∀ r : Except Refusal Bus, startStep i.bus r s = .next t → ∃ x, r = .ok x ∧ t = s.setBus i.bus (x.toPhase .unmask) :=
    fun r e => startStep_next _ _ _ _ e
  cases i <;> simp only [exec, execInit, execAcquire, execRelease, execWrite, execWriteReg, execRead, execReadReg] at h
  case init b =>
    rcases entry_next _ _ _ _ h with ⟨-, hb, h⟩ | ⟨hb, rfl⟩
    on_goal 2 => exact .inl ⟨hb, rfl⟩
    refine .inr ⟨hb, ?_⟩
    simp only [Instr.bus] at hb
    cases hp : (s.bus b).seq.phase <;> simp only [hp] at h <;> cases h
    exact .init rfl hp
  case acquire b =>
    rcases entry_next _ _ _ _ h with ⟨-, hb, h⟩ | ⟨hb, rfl⟩
    on_goal 2 => exact .inl ⟨hb, rfl⟩
    refine .inr ⟨hb, ?_⟩
    simp only [Instr.bus] at hb
    cases hp : (s.bus b).seq.phase <;> simp only [hp] at h <;> first | exact blocked h | exact busy hb hp h | skip
    case idle =>
      split at h <;> simp only [Host.Outcome.next.injEq] at h <;> subst h
      · exact .acquireWaits rfl hp ‹_›
      · rename_i hs; exact .acquireNow rfl hp (Bool.eq_false_iff.2 hs)
    case pinLock =>
      split at h
      · cases h; exact .acquireTakes rfl hp ‹_›
      · exact blocked h
  case release b =>
    rcases entry_next _ _ _ _ h with ⟨-, hb, h⟩ | ⟨hb, rfl⟩
    on_goal 2 => exact .inl ⟨hb, rfl⟩
    refine .inr ⟨hb, ?_⟩
    simp only [Instr.bus] at hb
    cases hp : (s.bus b).seq.phase <;> simp only [hp] at h <;> first | exact blocked h | exact busy hb hp h | skip
    split at h
    · cases h
    · rename_i hh; cases h; exact .release rfl hp (Bool.eq_false_iff.2 hh)
  case write b f a n p =>
    rcases entry_next _ _ _ _ h with ⟨-, hb, h⟩ | ⟨hb, rfl⟩
    on_goal 2 => exact .inl ⟨hb, rfl⟩
    refine .inr ⟨hb, ?_⟩
    simp only [Instr.bus] at hb
    cases hp : (s.bus b).seq.phase <;> simp only [hp] at h <;>
      first
      | exact busy hb hp h
      | exact finishStep_move (.write b f a n p) s t rfl h
      | exact stageLockStep_move (.write b f a n p) s t (.inl rfl) hp h
      | exact stageCopyStep_move (.write b f a n p) s t _ (.inl rfl) hp h
      | exact checkStep_move (.write b f a n p) s t rfl hb hp h
      | skip
    case idle => simp only [acceptStep, Host.Outcome.next.injEq] at h; subst h; exact .accept rfl hp
    case program =>
      simp only [Host.Outcome.next.injEq] at h
      subst h
      exact .programTx a _ n.toNat f (.inl rfl) hp (by split <;> simp [Instr.ptr]) fun hv => by
        have := operandViolation_none _ _ _ _ _ hv; simp only [Config.lenMax] at this; omega
    case start => obtain ⟨x, hx, rfl⟩ := start _ h; exact .startTx x (.inl rfl) hp hx
    case unstage => simp only [unstageStep, Host.Outcome.next.injEq] at h; subst h; exact .unstage (.inl rfl) hp
  case writeReg b f a r n p =>
    rcases entry_next _ _ _ _ h with ⟨-, hb, h⟩ | ⟨hb, rfl⟩
    on_goal 2 => exact .inl ⟨hb, rfl⟩
    refine .inr ⟨hb, ?_⟩
    simp only [Instr.bus] at hb
    cases hp : (s.bus b).seq.phase <;> simp only [hp] at h <;>
      first
      | exact busy hb hp h
      | exact finishStep_move (.writeReg b f a r n p) s t rfl h
      | exact stageLockStep_move (.writeReg b f a r n p) s t (.inr rfl) hp h
      | exact stageCopyStep_move (.writeReg b f a r n p) s t _ (.inr rfl) hp h
      | exact checkStep_move (.writeReg b f a r n p) s t rfl hb hp h
      | skip
    case idle => simp only [acceptStep, Host.Outcome.next.injEq] at h; subst h; exact .accept rfl hp
    case program =>
      simp only [Host.Outcome.next.injEq] at h
      subst h
      exact .programTx a _ (regCount f + n.toNat) f (.inr rfl) hp (by simp) fun hv => by
        have := operandViolation_none _ _ _ _ _ hv
        simp only [Config.lenMaxWreg] at this
        unfold regCount
        split <;> omega
    case start => obtain ⟨x, hx, rfl⟩ := start _ h; exact .startTx x (.inr (.inl rfl)) hp hx
    case unstage => simp only [unstageStep, Host.Outcome.next.injEq] at h; subst h; exact .unstage (.inr rfl) hp
  case read b f a n p =>
    rcases entry_next _ _ _ _ h with ⟨-, hb, h⟩ | ⟨hb, rfl⟩
    on_goal 2 => exact .inl ⟨hb, rfl⟩
    refine .inr ⟨hb, ?_⟩
    simp only [Instr.bus] at hb
    cases hp : (s.bus b).seq.phase <;> simp only [hp] at h <;>
      first
      | exact busy hb hp h
      | exact finishStep_move (.read b f a n p) s t rfl h
      | exact checkStep_move (.read b f a n p) s t rfl hb hp h
      | skip
    case idle => simp only [acceptStep, Host.Outcome.next.injEq] at h; subst h; exact .accept rfl hp
    case program =>
      simp only [Host.Outcome.next.injEq] at h
      subst h
      exact .programRx a n rfl hp fun hv => by
        have := operandViolation_none _ _ _ _ _ hv; simp only [Config.lenMax] at this; omega
    case start => obtain ⟨x, hx, rfl⟩ := start _ h; exact .startRx x rfl hp hx
  case readReg b f a r n p =>
    rcases entry_next _ _ _ _ h with ⟨-, hb, h⟩ | ⟨hb, rfl⟩
    on_goal 2 => exact .inl ⟨hb, rfl⟩
    refine .inr ⟨hb, ?_⟩
    simp only [Instr.bus] at hb
    cases hp : (s.bus b).seq.phase <;> simp only [hp] at h <;>
      first
      | exact busy hb hp h
      | exact finishStep_move (.readReg b f a r n p) s t rfl h
      | exact checkStep_move (.readReg b f a r n p) s t rfl hb hp h
      | skip
    case idle => simp only [acceptStep, Host.Outcome.next.injEq] at h; subst h; exact .accept rfl hp
    case program =>
      simp only [Host.Outcome.next.injEq] at h
      subst h
      exact .programTxRx a f r n rfl hp fun hv => by
        have := operandViolation_none _ _ _ _ _ hv; simp only [Config.lenMax] at this; omega
    case start => obtain ⟨x, hx, rfl⟩ := start _ h; exact .startTx x (.inr (.inr rfl)) hp hx

/-- The moves of the agents (00 R5). -/
inductive AgentMove (s : State) : State → Prop where
  | stay : AgentMove s s
  | badBus (k : Nat) (c : Cmd96) (rest : List Cmd96) (i : Instr) (hk : s.blocked k = false)
      (hr : s.requests[k]? = some (c :: rest)) (hd : decode (c.onWires s.cfg.addrW) = .ok i) (hb : s.hasBus i.bus = false) :
      AgentMove s { s.issue k (c.onWires s.cfg.addrW) rest i with fault := some ⟨.badBus, i.bus⟩ }
  | present (k : Nat) (c : Cmd96) (rest : List Cmd96) (i : Instr) (t : State) (hk : s.blocked k = false)
      (hr : s.requests[k]? = some (c :: rest)) (hd : decode (c.onWires s.cfg.addrW) = .ok i) (hb : s.hasBus i.bus = true)
      (ha : i.opcode = 0 ∨ (s.bus i.bus).seq.phase = .idle ∨ (s.bus i.bus).seq.phase = .uninit)
      (hm : ExecMove i (s.issue k (c.onWires s.cfg.addrW) rest i) t) : AgentMove s t
  | busy (k : Nat) (c : Cmd96) (rest : List Cmd96) (i : Instr) (v : ContractCheck) (hk : s.blocked k = false)
      (hr : s.requests[k]? = some (c :: rest)) (hd : decode (c.onWires s.cfg.addrW) = .ok i) (hb : s.hasBus i.bus = true)
      (hp : (s.bus i.bus).seq.phase ≠ .idle ∧ (s.bus i.bus).seq.phase ≠ .uninit) :
      AgentMove s { (s.issue k (c.onWires s.cfg.addrW) rest i).updBus i.bus (fun x => x.toPhase .faulted) with
        fault := some ⟨v, i.bus⟩ }
  | seq (b : BusId) (i : Instr) (t : State) (hb : s.hasBus b = true) (hf : (s.bus b).seq.phase.inFlight = true)
      (hl : s.latched b = .ok i) (hi : i.bus = b) (hm : ExecMove i s t) : AgentMove s t
  | wire (b : BusId) (t : State) (hb : s.hasBus b = true) (he : (s.bus b).enable = true) (hm : WireMove s b t) : AgentMove s t
  | isr (b : BusId) (h : s.isrEnabled b = true) : AgentMove s (s.updBus b Bus.handler)
  | otherConfigure (b : BusId) (scl sda freq : Nat) (h : s.otherMayAct b = true) :
      AgentMove s (s.updBus b (fun x => { x with pselScl := scl, pselSda := sda, freq := freq }))
  | store (k : Nat) (a : Nat) (v : Byte) (hk : s.blocked k = false) (h : a < 2 ^ s.cfg.addrW) : AgentMove s { s with mem := Memory.write s.mem a v }

/-- The latched operation of a bus carries its bus. -/
theorem State.latched_bus (s : State) (b : BusId) (i : Instr) (h : s.latched b = .ok i) : i.bus = b := decodeCmd_bus _ _ h

/-- What presenting a command leaves alone on the command's bus, and of the other buses. -/
@[simp] theorem State.issue_bus_self (s : State) (k : Nat) (c : Cmd96) (rest : List Cmd96) (i : Instr) :
    (s.issue k c rest i).bus i.bus = (s.bus i.bus).called k (s.accepts i) (unpack c) := by simp [State.issue]

@[simp] theorem State.issue_bus_ne (s : State) (k : Nat) (c : Cmd96) (rest : List Cmd96) (i : Instr) (b : BusId)
    (hb : b ≠ i.bus) : (s.issue k c rest i).bus b = s.bus b := by simp [State.issue, hb]

theorem State.answers_issue (s : State) (k : Nat) (c : Cmd96) (rest : List Cmd96) (i : Instr) :
    (s.issue k c rest i).answers i = s.answers i := by
  simp only [State.answers, State.issue_bus_self, Bus.called_seq]
  rfl

/-- An idle sequencer accepts every operation but `INIT`. -/
theorem State.accepts_of_idle (s : State) (i : Instr) (hb : s.hasBus i.bus = true) (h0 : i.opcode ≠ 0)
    (hp : (s.bus i.bus).seq.phase = .idle) : s.accepts i = true := by 
  have h0' : ¬i.opcode = 0#4 := h0
  simp [State.accepts, hb, h0', hp]

/-- The sequencer that accepts a command has latched the operation it decodes to. -/
theorem State.latched_issue (s : State) (k : Nat) (c : Cmd96) (rest : List Cmd96) (i : Instr) (hd : decode c = .ok i)
    (ha : s.accepts i = true) : (s.issue k c rest i).latched i.bus = .ok i := by
  have hc : (unpack c).bus = i.bus := (decodeCmd_bus _ _ hd).symm
  have hl : ((s.issue k c rest i).bus i.bus).seq.cmd = unpack c := by simp [ha]
  have hu : ({ unpack c with bus := i.bus } : Cmd) = unpack c := by rw [← hc]
  unfold State.latched
  rw [hl, hu]
  exact hd

/-- The pointer of a latched operation is the latch's, if the operation has one. -/
theorem State.latched_ptr (s : State) (b : BusId) (i : Instr) (h : s.latched b = .ok i) :
    i.ptr = (s.bus b).seq.cmd.ptr ∨ i.ptr = 0 := by
  have h' := over_of_decodeCmd i _ h
  cases i <;> simp only [Instr.over, Instr.ptr, or_true] at h' ⊢ <;> exact .inl (congrArg Cmd.ptr h')

/-- An answered turn is a move of its agent. -/
theorem takeTurn_move (k : Turn) (s t : State) (h : takeTurn k s = .next t) : AgentMove s t := by
  have stay : Host.Outcome.next s = (.next t : Res) → AgentMove s t := fun e => by cases e; exact .stay
  cases k <;> simp only [takeTurn] at h
  case requester k =>
    unfold requesterStep at h
    split at h
    · exact stay h
    · rename_i hk
      simp only [Bool.not_eq_true] at hk
      split at h
      · exact stay h
      · exact stay h
      · rename_i c rest hr
        split at h
        · cases h
        · rename_i i hd
          unfold present at h
          split at h
          · rename_i ha
            rcases exec_move _ _ _ h with ⟨hb, rfl⟩ | ⟨hb, hm⟩
            · exact .badBus k c rest i hk hr hd hb
            · refine .present k c rest i t hk hr hd hb ?_ hm
              rw [State.answers_issue] at ha
              have hb' : s.hasBus i.bus = true := hb
              simpa [State.answers, hb', or_assoc] using ha
          · rename_i ha
            rw [State.answers_issue] at ha
            have hb : s.hasBus i.bus = true ∧ (s.bus i.bus).seq.phase ≠ .idle ∧ (s.bus i.bus).seq.phase ≠ .uninit := by
              simp only [State.answers, Bool.or_eq_true, not_or, Bool.not_eq_true', Bool.not_eq_false, beq_iff_eq] at ha
              exact ⟨ha.1.1.1, ha.1.2, ha.2⟩
            simp only [busyStep, Host.Outcome.next.injEq] at h
            rw [← h, State.raise_hasBus _ _ _ (by simpa [State.issue] using hb.1)]
            exact .busy k c rest i _ hk hr hd hb.1 hb.2
  case seq b =>
    unfold seqStep at h
    split at h
    · rename_i hb
      simp only [Bool.and_eq_true] at hb
      split at h
      · cases h
      · rename_i i hl
        have hi := s.latched_bus b i hl
        rcases exec_move _ _ _ h with ⟨hb', -⟩ | ⟨-, hm⟩
        · rw [hi, hb.1] at hb'; cases hb'
        · exact .seq b i t hb.1 hb.2 hl hi hm
    · exact stay h
  case wire b =>
    rcases wireStep_move b s t h with rfl | ⟨hb, he, hm⟩
    · exact .stay
    · exact .wire b t hb he hm
  case isr b =>
    unfold isrStep at h
    split at h
    · cases h; exact .isr b ‹_›
    · exact stay h
  case otherConfigure b scl sda freq =>
    unfold Machine.otherConfigure at h
    split at h
    · cases h; exact .otherConfigure b scl sda freq ‹_›
    · exact stay h
  case otherPinLock b l => cases h
  case store k a v =>
    unfold requesterStore at h
    split at h
    · exact stay h
    · rename_i hk
      split at h
      · cases h; exact .store k a v (by simpa using hk) ‹_›
      · cases h

/-- An answered step is stuck, or is the turn that `State.turn` names, after the schedule has lost its head. -/
theorem step_turn (s t : State) (h : step s = .next t) :
    t = { s with sched := s.sched.tail } ∨ ∃ k, s.turn = some k ∧ takeTurn k { s with sched := s.sched.tail } = .next t := by
  unfold step at h
  split at h
  · rename_i k rest hs
    exact .inr ⟨k, by simp [State.turn, hs], by rw [hs]; exact h⟩
  · rename_i hs
    have e : { s with sched := s.sched.tail } = s := by cases s; simp only at hs; subst hs; rfl
    rw [e]
    unfold unscheduledStep at h
    split at h
    · cases h; exact .inl rfl
    · rename_i k _ hk
      exact .inr ⟨k, by simp [State.turn, hs, hk], h⟩

/-- An answered step is a move of one agent, after the schedule has lost its head. -/
theorem step_move (s t : State) (h : step s = .next t) : AgentMove { s with sched := s.sched.tail } t := by
  rcases step_turn s t h with rfl | ⟨k, -, h'⟩
  · exact .stay
  · exact takeTurn_move k _ t h'

/-- A meaning leaves the configuration alone. -/
theorem ExecMove.cfg {i : Instr} {s t : State} (m : ExecMove i s t) : t.cfg = s.cfg := by
  cases m <;> rfl

/-- A meaning leaves every other bus alone. -/
theorem ExecMove.bus_ne {i : Instr} {s t : State} (m : ExecMove i s t) (c : BusId) (hc : c ≠ i.bus) : t.bus c = s.bus c := by
  cases m <;> simp [hc, State.takeSLock, State.dropSLock, State.toPhase, State.ret]

/-- A meaning leaves memory, the waiting commands, the schedule and the free-value count alone. -/
theorem ExecMove.globals {i : Instr} {s t : State} (m : ExecMove i s t) :
    t.mem = s.mem ∧ t.requests = s.requests ∧ t.sched = s.sched ∧ t.draws = s.draws := by
  cases m <;> exact ⟨rfl, rfl, rfl, rfl⟩

/-- The wire engine leaves every other bus alone. -/
theorem WireMove.bus_ne {s t : State} {b : BusId} (m : WireMove s b t) (c : BusId) (hc : c ≠ b) : t.bus c = s.bus c := by
  cases m <;> simp [hc, State.storeReceived]

/-- The wire engine leaves the configuration, the staging buffer, its lock, the fault latch, the inputs alone. -/
theorem WireMove.globals {s t : State} {b : BusId} (m : WireMove s b t) :
    t.cfg = s.cfg ∧ t.staging = s.staging ∧ t.slock = s.slock ∧ t.fault = s.fault ∧ t.requests = s.requests ∧
    t.sched = s.sched ∧ t.extCalls = s.extCalls := by
  cases m <;> exact ⟨rfl, rfl, rfl, rfl, rfl, rfl, rfl⟩

@[simp] theorem Bus.addressed_seq (x : Bus) (a : Answer) (l : List Answer) : (x.addressed a l).seq = x.seq := rfl
@[simp] theorem Bus.nacked_seq (x : Bus) (k : NackKind) (b : Bool) : (x.nacked k b).seq = x.seq := by
  unfold Bus.nacked; split <;> rfl

/-- What the shorts of a transmitted last byte leave: receive, stop or held. -/
theorem Bus.afterTransmit_ok (x y : Bus) (h : x.afterTransmit = .ok y) :
    (x.shorts.ltxSrx = true ∧ x.shorts.ltxStop = false ∧ 0 < x.rxCnt.toNat ∧
      y = { x with wire := { x.wire with phase := .rxAddr, idx := 0 } }) ∨
    (x.shorts.ltxSrx = false ∧ x.shorts.ltxStop = true ∧ y = x.stop) ∨
    (x.shorts.ltxSrx = false ∧ x.shorts.ltxStop = false ∧ y = { x with wire := { x.wire with phase := .held } }) := by
  unfold Bus.afterTransmit at h
  cases h1 : x.shorts.ltxSrx <;> cases h2 : x.shorts.ltxStop <;>
    simp only [h1, h2, Bool.and_true, Bool.and_false, Bool.false_eq_true, if_false, if_true, Except.ok.injEq,
      reduceCtorEq] at h
  · exact .inr (.inr ⟨rfl, rfl, h.symm⟩)
  · exact .inr (.inl ⟨rfl, rfl, h.symm⟩)
  · split at h
    · cases h
    · rename_i h0
      cases h
      exact .inl ⟨rfl, rfl, Byte.toNat_pos _ h0, rfl⟩

/-- The wire engine leaves the sequencer, the mask, the gate, the pin lock, the buffers and the programmed registers of its
bus alone. -/
theorem WireMove.bus_frame {s t : State} {b : BusId} (m : WireMove s b t) :
    ∃ x : Bus, t.bus b = { s.bus b with
      txAmt := x.txAmt, ev := x.ev, errSrc := x.errSrc, wire := x.wire, wlog := x.wlog, acks := x.acks, rxData := x.rxData } := by
  refine ⟨t.bus b, ?_⟩
  cases m
  case addressAck => simp [Bus.addressed, Bus.emit]
  case addressNack rest stop d hp ha => cases stop <;> simp [Bus.addressed, Bus.nacked, Bus.markError, Bus.stop, Bus.hold, Bus.emit]
  case byteAck => simp [Bus.sendByte, Bus.emit]
  case byteNack v rest i stop amt d hp ha hv ht =>
    cases stop <;> simp [Bus.sendByte, Bus.nacked, Bus.markError, Bus.stop, Bus.hold, Bus.emit]
  case lastBegins => simp
  case lastAck v rest y hp h0 ha hv hy =>
    rcases Bus.afterTransmit_ok _ _ hy with ⟨-, -, -, rfl⟩ | ⟨-, -, rfl⟩ | ⟨-, -, rfl⟩ <;>
      simp [Bus.sendByte, Bus.emit, Bus.stop]
  case received => simp [State.storeReceived, Bus.emit]
  case receivedLast => simp [State.storeReceived, Bus.emit, Bus.stop]

/-- A property of every bus is kept when one bus keeps it and the others are untouched. -/
theorem forall_bus {P : Bus → Prop} {s t : State} (b : BusId) (hs : ∀ c, P (s.bus c)) (hne : ∀ c, c ≠ b → t.bus c = s.bus c)
    (hb : P (t.bus b)) : ∀ c, P (t.bus c) := fun c => by
  by_cases hc : c = b
  · rw [hc]; exact hb
  · rw [hne c hc]; exact hs c

/-- A property of single buses is kept by every step when every move of a meaning, of the wire engine, of the handler and of
the other role keeps it. -/
theorem step_keeps_bus {P : Bus → Prop} {s t : State} (h : step s = .next t) (hs : ∀ c, P (s.bus c))
    (hexec : ∀ (i : Instr) (u v : State), u.cfg = s.cfg → (∀ c, P (u.bus c)) →
      (i.opcode ≠ 0 → (u.bus i.bus).seq.phase ≠ .uninit → u.latched i.bus = .ok i) → ExecMove i u v → P (v.bus i.bus))
    (hbusy : ∀ x : Bus, P x → P (x.toPhase .faulted))
    (hwire : ∀ (b : BusId) (u v : State), u.cfg = s.cfg → P (u.bus b) → WireMove u b v → P (v.bus b))
    (hisr : ∀ x : Bus, P x → x.irq = true → P x.handler)
    (hcall : ∀ (x : Bus) (k : Nat) (a : Bool) (c : Cmd96), P x → (a = true → x.seq.phase = .idle ∨ x.seq.phase = .uninit) →
      P (x.called k a (unpack (c.onWires s.cfg.addrW))))
    (hother : ∀ (x : Bus) (scl sda freq : Nat), P x → P { x with pselScl := scl, pselSda := sda, freq := freq }) : ∀ c, P (t.bus c) := by
  have m := step_move s t h
  have issued : ∀ (k : Nat) (c : Cmd96) (rest : List Cmd96) (i : Instr) (b : BusId),
      P ((State.issue { s with sched := s.sched.tail } k (c.onWires s.cfg.addrW) rest i).bus b) := fun k c rest i =>
    forall_bus i.bus hs (fun b hb => by simp [hb]) (by
      rw [State.issue_bus_self]
      refine hcall _ _ _ _ (hs i.bus) fun ha => ?_
      simp only [State.accepts, Bool.and_eq_true, beq_iff_eq] at ha
      have := ha.2
      split at this
      · exact .inr this
      · exact .inl this)
  cases m
  case stay => exact hs
  case badBus k c rest i hk hr hd hb => exact issued k c rest i
  case present k c rest i hk hr hd hb ha hm =>
    refine forall_bus i.bus (issued k c rest i) hm.bus_ne ?_
    refine hexec i _ t ?_ (issued k c rest i) ?_ hm
    · rfl
    intro h0 hu
    rw [State.issue_bus_self] at hu
    exact State.latched_issue _ k _ rest i hd (State.accepts_of_idle _ i hb h0 (by
      rcases ha with ha | ha | ha
      · exact absurd ha h0
      · exact ha
      · exact absurd ha hu))
  case busy k c rest i v hk hr hd hb hp =>
    exact forall_bus i.bus (issued k c rest i) (fun c hc => by simp [hc])
      (by simpa using hbusy _ (issued k c rest i i.bus))
  case seq b i hb hf hl hi hm => exact forall_bus i.bus hs hm.bus_ne (by refine hexec i _ t ?_ ?_ ?_ hm; exacts [rfl, hs, fun _ _ => hi ▸ hl])
  case wire b hb he hm => exact forall_bus b hs hm.bus_ne (by refine hwire b _ t ?_ ?_ hm; exacts [rfl, hs b])
  case isr b hb =>
    simp only [State.isrEnabled, Bool.and_eq_true] at hb
    exact forall_bus b hs (fun c hc => by simp [hc]) (by simpa using hisr _ (hs b) hb.2)
  case otherConfigure b scl sda freq hb =>
    exact forall_bus b hs (fun c hc => by simp [hc]) (by simpa using hother _ scl sda freq (hs b))
  case store k a v hk ha => exact hs


/-- What every move of the wire engine does to a transfer: it was running; no event is cleared; and it either ends, or no
terminal event is raised, and a transmit without the `LTX_SRX` short stays one, with `TXAMT` as it was or below the count. -/
theorem WireMove.progress {s t : State} {b : BusId} (m : WireMove s b t) :
    (s.bus b).wire.atRest = false ∧
    ((s.bus b).ev.stopped = true → (t.bus b).ev.stopped = true) ∧ ((s.bus b).ev.error = true → (t.bus b).ev.error = true) ∧
    ((s.bus b).ev.lastTx = true → (t.bus b).ev.lastTx = true) ∧ ((s.bus b).ev.lastRx = true → (t.bus b).ev.lastRx = true) ∧
    ((t.bus b).wire.atRest = true ∨
      ((t.bus b).ev.stopped = (s.bus b).ev.stopped ∧ (t.bus b).ev.error = (s.bus b).ev.error ∧
        (t.bus b).errSrc = (s.bus b).errSrc ∧
        ((s.bus b).shorts.ltxSrx = false → (s.bus b).wire.phase.transmitting = true →
          (t.bus b).wire.phase.transmitting = true ∧
          ((t.bus b).txAmt = (s.bus b).txAmt ∨ (t.bus b).txAmt.toNat < (s.bus b).txCnt.toNat)))) := by
  cases m
  case addressAck rest hp ha => rcases hp with hp | hp <;> simp [hp, Wire.atRest, WirePhase.transmitting, Bus.addressed, Bus.emit]
  case addressNack rest stop d hp ha =>
    rcases hp with hp | hp <;> cases stop <;> simp [hp, Wire.atRest, Bus.nacked, Bus.addressed, Bus.emit]
  case byteAck v rest hp hi ha hv =>
    have : (BitVec.ofNat 8 ((s.bus b).wire.idx + 1)).toNat < (s.bus b).txCnt.toNat := by
      have := (s.bus b).txCnt.isLt
      simp only [BitVec.toNat_ofNat]
      omega
    simp only [State.bus_setBus_self]
    exact ⟨by simp [hp, Wire.atRest], id, id, id, id, .inr ⟨rfl, rfl, rfl, fun _ _ => ⟨by simp [hp, WirePhase.transmitting], .inr this⟩⟩⟩
  case byteNack v rest i stop amt d hp ha hv ht =>
    rcases hp with ⟨hp, -⟩ | ⟨hp, -⟩ <;> cases stop <;> simp [hp, Wire.atRest, Bus.nacked]
  case lastBegins hp hi => simp [hp, Wire.atRest, WirePhase.transmitting]
  case lastAck v rest y hp h0 ha hv hy =>
    rcases Bus.afterTransmit_ok _ _ hy with ⟨h1, -, -, rfl⟩ | ⟨-, -, rfl⟩ | ⟨-, -, rfl⟩
    · simp only [Bus.sendByte_shorts] at h1
      simp [hp, Wire.atRest, h1]
    · simp [hp, Wire.atRest]
    · simp [hp, Wire.atRest]
  case received v rest hp hi hd => simp [hp, Wire.atRest, State.storeReceived, WirePhase.transmitting, Bus.emit]
  case receivedLast v rest hp hi hd hl => simp [hp, Wire.atRest, State.storeReceived, Bus.emit]

end Sys2Proof.Machine
end

