-- ==== Sys2Proof/Laws/Operands.lean ====
section
/-! SUPPORT. The laws of the operand forms: which ranges are directly addressable, the bytes of a payload, the staging buffer
after a copy and the opcode of a latched command. -/

namespace Sys2Proof.Machine

/-- A range that does not wrap is not directly addressable exactly when one of its bytes lies in no listed range (20 R51). -/
theorem Config.directlyAddressable_eq_false_iff (c : Config) (p : Nat) (n : Nat) (h : p + n ≤ 2 ^ c.addrW) :
    Config.directlyAddressable c p n = false ↔
      ∃ k, k < n ∧ ∀ g ∈ c.dma, ¬(g.1 ≤ p + k ∧ p + k ≤ g.2) := by
  unfold Config.directlyAddressable
  rw [← Bool.not_eq_true, List.all_eq_true]
  constructor
  · intro h'
    push Not at h'
    obtain ⟨k, hk, hk'⟩ := h'
    simp only [List.mem_range] at hk
    refine ⟨k, hk, fun g hg hh => hk' ?_⟩
    rw [Config.byteAddr_eq c p k n hk h]
    simp only [Config.dmaAddressable, List.any_eq_true]
    exact ⟨g, hg, by simpa using hh⟩
  · rintro ⟨k, hk, hk'⟩ h'
    have := h' k (by simpa using hk)
    rw [Config.byteAddr_eq c p k n hk h] at this
    simp only [Config.dmaAddressable, List.any_eq_true] at this
    obtain ⟨g, hg, hh⟩ := this
    exact hk' g hg (by simpa using hh)

/-- The number of bytes of a payload. -/
@[simp] theorem State.memBytes_length (s : State) (p : Nat) (n : Nat) : (s.memBytes p n).length = n := by
  simp [State.memBytes]

/-- Byte `k` of a payload whose range does not wrap. -/
theorem State.memBytes_getElem? (s : State) (p : Nat) (n k : Nat) (hk : k < n) (h : p + n ≤ 2 ^ s.cfg.addrW) :
    (s.memBytes p n)[k]? = some (Memory.read s.mem (p + k)) := by
  simp [State.memBytes, hk, Config.byteAddr_eq s.cfg p k n hk h]

/-- The staging buffer after a copy: the frame, and after it the bytes that were there (41 R105, R106). -/
theorem staging_after_fill (frame staging : List Byte) :
    (∀ k, k < frame.length → (frame ++ staging.drop frame.length)[k]? = frame[k]?) ∧
    (∀ k, frame.length ≤ k → (frame ++ staging.drop frame.length)[k]? = staging[k]?) := by
  refine ⟨fun k hk => List.getElem?_append_left hk, fun k hk => ?_⟩
  rw [List.getElem?_append_right hk, List.getElem?_drop]
  congr 1; omega

/-- The opcode of the latched command is that of the operation it decodes to. -/
theorem State.latched_op (s : State) (b : BusId) (i : Instr) (h : s.latched b = .ok i) :
    (s.bus b).seq.cmd.op = i.opcode := by
  have ck : ∀ j k, checked j = .ok k → k = j := fun j k hj => by
    unfold checked at hj
    split at hj <;> simp_all
  unfold State.latched decodeCmd at h
  split at h <;>
    first
    | (cases ck _ _ h; apply BitVec.eq_of_toNat_eq; rename_i hh; simpa [Instr.opcode] using hh)
    | cases h

end Sys2Proof.Machine
end

