-- ==== Sys2Proof/Laws/RegMap.lean ====
section
/-! SUPPORT. The accesses that the sequencer and the handler make are register accesses of the register view (10 R37, 30 R83),
under the default map. -/

namespace Sys2Proof.Machine

/-- Finish step 1 is one write to the set view of `INTEN` (42 R131). -/
theorem regWrite_unmask (c : Config) (x : Bus) (k : Succ) (hc : c.regMap = RegMap.standard) :
    Bus.regWrite c x (bitWord true 9 ||| match k with | .stopped => bitWord true 1 | .lastTx => bitWord true 24) .intenSet =
      .ok { x with inten := x.inten.unmask k } := by
  cases k <;> simp [Bus.regWrite, hc, RegMap.standard, IntEn.setBits, IntEn.unmask, bitWord]

/-- The handler's mask is one write to the clear view of `INTEN` (60 R187). -/
theorem regWrite_mask (c : Config) (x : Bus) (hc : c.regMap = RegMap.standard) :
    Bus.regWrite c x (bitWord true 1 ||| bitWord true 9 ||| bitWord true 24) .intenClr = .ok { x with inten := IntEn.none } := by
  simp [Bus.regWrite, hc, RegMap.standard, IntEn.clearBits, IntEn.none, bitWord]

/-- Finish step 4 writes 0 to the stopped event (42 R134). -/
theorem regWrite_ackStopped (c : Config) (x : Bus) :
    (Bus.regWrite c x 0 .evStopped).map (fun y => y.toPhase .classify) = .ok x.ackStopped := rfl

/-- Finish step 5 writes 1 to both bits of `ERRSRC` (42 R135). -/
theorem regWrite_errSrc (c : Config) (x : Bus) (hc : c.regMap = RegMap.standard) :
    Bus.regWrite c x (bitWord true 1 ||| bitWord true 2) .errSrc = .ok { x with errSrc := ErrSrc.none } := by
  simp [Bus.regWrite, hc, RegMap.standard, ErrSrc.clearBits, ErrSrc.none, bitWord]

/-- `SHORTS` reads back as it was written (20 R55: it is always written whole). -/
theorem shorts_roundtrip (x : Shorts) : Shorts.ofWord RegMap.standard (Shorts.word RegMap.standard x) = x := by
  rcases x with ⟨_ | _, _ | _, _ | _⟩ <;> rfl

/-- `P_START` writes 1 to the task the operation names (30 R82). -/
theorem regWrite_start (c : Config) (x : Bus) :
    Bus.regWrite c x 1 .tStartTx = startTx c x ∧ Bus.regWrite c x 1 .tStartRx = startRx x := ⟨rfl, rfl⟩

/-- The `ENABLE` codes of 10 R14. -/
theorem regWrite_enable (c : Config) (x : Bus) (hc : c.regMap = RegMap.standard) :
    Bus.regWrite c x 6 .enable = .ok { x with enable := true } ∧ Bus.regWrite c x 0 .enable = .ok { x with enable := false } := by
  constructor <;> simp [Bus.regWrite, hc, RegMap.standard]

/-- The offsets of the default map name one register each. -/
theorem standard_offsets_nodup : (RegMap.standard.offsets.map Prod.snd).Nodup ∧ (RegMap.standard.offsets.map Prod.fst).Nodup := by
  decide

end Sys2Proof.Machine
end

