-- ==== Sys2Proof/Tests/Slice0.lean ====
section
/-! SUPPORT. Tests: the checks of `WellFormed` on ill-formed terms, decoding of the spec's own words (95 sections 2.4, 2.5),
single steps against the spec's vectors, and for every statement with hypotheses a state that meets them. -/

namespace Sys2Proof.Tests

open Sys2Proof.Machine

/-! ## Small states -/

/-- A bus initialised, in a session, at rest. -/
def restBus : Bus := { Bus.reset with enable := true, irqEn := true, seq := { Bus.reset.seq with phase := .idle } }

/-- The same bus with operation `i` latched and in phase `p`. -/
def inPhase (p : Phase) (i : Instr) : Bus := { restBus with seq := { restBus.seq with phase := p, cmd := i.fields } }

/-- The bus with its wire engine in a phase, at an index, with a bus held or not. -/
def onWire (p : WirePhase) (k : Nat) (h : Bool) (x : Bus) : Bus := { x with wire := ⟨p, k, h⟩ }

/-- The reset state with bus 0 as given. -/
def on0 (x : Bus) : State := State.reset.setBus 0 x

/-- The reset state with bus 1, which shares pins, as given. -/
def on1 (x : Bus) : State := State.reset.setBus 1 x

/-- A next state that passes a check. -/
def nextIs (r : Res) (p : State → Bool) : Bool :=
  match r with
  | .next t => p t
  | .fault _ | .refused _ => false

/-- An answer other than a next state. -/
def refusedAs (r : Res) (e : Refusal) : Bool :=
  match r with
  | .refused f => f == e
  | .next _ | .fault _ => false

/-- The commands of the vectors. -/
def wr : Instr := .write 0 0 0x50 2 0x20000010
def wrNoStop : Instr := .write 0 0x04 0x50 2 0x20000010
def wrStaged : Instr := .write 0 0 0x50 2 0x00001000
def wrg : Instr := .writeReg 0 0 0x50 0x0010 2 0x20000100
def wrg16 : Instr := .writeReg 0 0x02 0x50 0xABCD 1 0x20000100
def rd : Instr := .read 0 0 0x50 2 0x20000200
def rdg : Instr := .readReg 0 0x02 0x68 0x1234 2 0x20000300

/-! ## Well-formedness and decoding -/

theorem test_wf_reserved_flags : (Instr.write 0 0x10 0x50 1 0x20000000).reject? = some .reservedFlags := by decide
theorem test_wf_reserved_address : (Instr.read 0 0 0x80 1 0x20000000).reject? = some .reservedAddress := by decide
theorem test_wf_reserved_address_top : (Instr.writeReg 0 0 0x8050 0 1 0x20000000).reject? = some .reservedAddress := by decide
theorem test_wf_accepts : wr.wf = true ∧ wrg16.wf = true ∧ rd.wf = true ∧ rdg.wf = true ∧ (Instr.init 0).wf = true := by decide
theorem test_decode_reserved_opcode : decode ⟨0x30000000, 0, 0⟩ = .error .reservedOpcode ∧
    decode ⟨0x80000050, 1, 0x20000000⟩ = .error .reservedOpcode ∧ decode ⟨0xF0000000, 0, 0⟩ = .error .reservedOpcode := by decide
theorem test_decode_reserved_fields : decode ⟨0x40100050, 1, 0x20000000⟩ = .error .reservedFlags ∧
    decode ⟨0x400000D0, 1, 0x20000000⟩ = .error .reservedAddress ∧ decode ⟨0x40008050, 1, 0x20000000⟩ = .error .reservedAddress := by
  decide
theorem test_decode_wrong_length : decodeWords [0x30000000, 0] = .error .wrongLength ∧ decodeWords [] = .error .wrongLength ∧
    decodeWords [0x10000000, 0, 0, 0] = .error .wrongLength := by decide
theorem test_decode_init : decode ⟨0x01000000, 0, 0⟩ = .ok (.init 1) ∧ decode ⟨0x00FF1234, 0xFFFFFFFF, 0xFFFFFFFF⟩ = .ok (.init 0) := by
  decide
theorem test_decode_acquire : decode ⟨0x10000000, 0, 0⟩ = .ok (.acquire 0) ∧ decode ⟨0x11000000, 0, 0⟩ = .ok (.acquire 1) := by decide
theorem test_decode_release : decode ⟨0x20000000, 0, 0⟩ = .ok (.release 0) ∧ decode ⟨0x21000000, 0, 0⟩ = .ok (.release 1) := by decide
theorem test_decode_write : decode ⟨0x40040050, 0x00000002, 0x20000010⟩ = .ok wrNoStop ∧
    decode ⟨0x40000029, 0xBEEF0003, 0x20000020⟩ = .ok (.write 0 0 0x29 3 0x20000020) := by decide
theorem test_decode_write_reg : decode ⟨0x51000051, 0x00200002, 0x20000110⟩ = .ok (.writeReg 1 0 0x51 0x20 2 0x20000110) ∧
    decode ⟨0x50020050, 0xABCD0001, 0x20000100⟩ = .ok wrg16 := by decide
theorem test_decode_read : decode ⟨0x60000050, 0x00000002, 0x20000200⟩ = .ok rd := by decide
theorem test_decode_read_reg : decode ⟨0x70000068, 0x00750001, 0x20000300⟩ = .ok (.readReg 0 0 0x68 0x75 1 0x20000300) ∧
    decode ⟨0x71020068, 0x12340002, 0x20000300⟩ = .ok (.readReg 1 0x02 0x68 0x1234 2 0x20000300) := by decide
theorem test_encode_write_reg : encode wrg16 = ⟨0x50020050, 0xABCD0001, 0x20000100⟩ := by decide
theorem test_table_word : decodeTableWord 96 0x20000100ABCD000150020050 = some wrg16 ∧ decodeTableWord 32 0x21000000 = some (.release 1) := by
  decide
theorem test_config_wf : Config.tc.wf = true ∧ Config.wf { Config.tc with nbus := 0 } = false ∧ Config.wf { Config.tc with nbus := 17 } = false := by
  decide
theorem test_text : (Instr.text wrNoStop) = "write(bus=0, addr=0x50, data=@0x20000010, len=2, flags=4)" := by decide

/-! ## Single steps (95 sections 2.1 to 2.13) -/

theorem test_init_reset : nextIs (exec (.init 0) State.reset) (fun t => (t.bus 0).seq.phase == .idle && (t.bus 0).pselScl == 26 &&
    (t.bus 0).pselSda == 27 && !(t.bus 0).enable && (t.bus 0).irqEn && (t.bus 1).seq.phase == .uninit) = true := by decide
theorem test_init_twice_refused : refusedAs (exec (.init 0) (on0 restBus)) .secondInit = true := by decide
theorem test_acquire_restores_pins : nextIs (exec (.acquire 1) (on1 { inPhase .pinLock (.acquire 1) with pselScl := 5, freq := 9 }))
    (fun t => (t.bus 1).pselScl == 30 && (t.bus 1).freq == 1 && (t.bus 1).pinLock == .held && (t.bus 1).enable) = true := by decide
theorem test_acquire_uninit_faults : nextIs (exec (.acquire 0) State.reset) (fun t => t.fault == some ⟨.busy, 0⟩) = true := by decide
theorem test_release_shared : nextIs (exec (.release 1) (on1 { restBus with pinLock := .held }))
    (fun t => !(t.bus 1).enable && (t.bus 1).pinLock == .free && (t.bus 1).result == 0) = true := by decide
theorem test_release_held_refused : refusedAs (exec (.release 0) (on0 (onWire .held 1 true restBus))) .releaseWhileHeld = true := by decide
theorem test_write_nostop_programs : nextIs (exec wrNoStop (on0 (inPhase .program wrNoStop))) (fun t => (t.bus 0).txCnt == 2 &&
    (t.bus 0).txPtr == .mem 0x20000010 && (t.bus 0).shorts == Shorts.none && (t.bus 0).seq.succ == .lastTx) = true := by decide
theorem test_write_contract_before_flags : nextIs (exec (.write 0 0x08 0x50 0 0x20000000)
    (on0 (inPhase .check (.write 0 0x08 0x50 0 0x20000000)))) (fun t => t.fault == some ⟨.zeroLength, 0⟩) = true := by decide
theorem test_write_reg_stages_high_first : nextIs (exec wrg16 { on0 (inPhase .stageCopy wrg16) with mem := [(0x20000100, 0x5A)] })
    (fun t => t.staging.take 4 == [0xAB, 0xCD, 0x5A, 0]) = true := by decide
theorem test_write_reg_over_length : nextIs (exec (.writeReg 0 0 0x50 0 253 0x20000100)
    (on0 (inPhase .check (.writeReg 0 0 0x50 0 253 0x20000100)))) (fun t => t.fault == some ⟨.overLength, 0⟩ &&
      (t.bus 0).seq.phase == .faulted) = true := by decide
theorem test_read_nostop_unsupported : nextIs (exec (.read 0 0x04 0x50 2 0x20000200) (on0 (inPhase .check (.read 0 0x04 0x50 2 0x20000200))))
    (fun t => (t.bus 0).result == 1 && (t.bus 0).seq.phase == .idle) = true := by decide
theorem test_read_last_byte_outside : nextIs (exec (.read 0 0 0x50 2 0x2000FFFF) (on0 (inPhase .check (.read 0 0 0x50 2 0x2000FFFF))))
    (fun t => t.fault == some ⟨.rxNotAddressable, 0⟩) = true := by decide
theorem test_read_reg_programs : nextIs (exec rdg (on0 (inPhase .program rdg))) (fun t => (t.bus 0).regBuf == ⟨0x12, 0x34⟩ &&
    (t.bus 0).txCnt == 2 && (t.bus 0).rxCnt == 2 && (t.bus 0).shorts == ⟨true, true, false⟩ && (t.bus 0).address == 0x68) = true := by decide
theorem test_read_reg_low_byte_only : nextIs (exec (.readReg 0 0 0x68 0xFF75 1 0x20000300)
    (on0 { inPhase .program (.readReg 0 0 0x68 0xFF75 1 0x20000300) with regBuf := ⟨1, 2⟩ })) (fun t => (t.bus 0).regBuf == ⟨0x75, 2⟩ &&
      (t.bus 0).txCnt == 1) = true := by decide
theorem test_error_beats_success : nextIs (exec rd (on0 { inPhase .classify rd with errSrc := ⟨true, true⟩, ev := ⟨true, true, true, true⟩ }))
    (fun t => (t.bus 0).result == 2 && (t.bus 0).ev == ⟨true, true, true, false⟩ && (t.bus 0).errSrc == ErrSrc.none) = true := by decide
theorem test_poll_waits : nextIs (exec wrNoStop (on0 { inPhase .poll wrNoStop with txAmt := 0xFF })) (fun t =>
    (t.bus 0).seq.phase == .poll) = true := by decide
theorem test_handler : nextIs (isrStep 0 (on0 { restBus with inten := ⟨true, false, true⟩, ev := ⟨true, false, false, true⟩ })) (fun t =>
    (t.bus 0).inten == IntEn.none && (t.bus 0).gate == .unlocked && (t.bus 0).ev == ⟨true, false, false, true⟩ && !t.isrEnabled 0) = true := by
  decide
theorem test_last_rx_does_not_fire : (on0 { restBus with inten := ⟨true, true, true⟩, ev := ⟨false, false, true, false⟩ }).isrEnabled 0 = false := by
  decide
theorem test_repeated_start : nextIs (wireStep 0 (on0 { onWire .rxAddr 0 true restBus with address := 0x50, acks := [.ack] })) (fun t =>
    (t.bus 0).wlog == [.restart, .addr 0x50 .read, .answer .ack] && (t.bus 0).wire == ⟨.rx, 0, true⟩) = true := by decide
theorem test_last_receive_stops : nextIs (wireStep 0 (on0
    { onWire .rx 1 true (inPhase .wait rd) with rxPtr := 0x20000200, rxCnt := 2, rxData := [0x22], shorts := Shorts.lrxStopOnly })) (fun t => t.mem == [(0x20000201, 0x22)] && (t.bus 0).wlog == [.data 0x22, .stop] &&
      (t.bus 0).wire == ⟨.idle, 0, false⟩ && (t.bus 0).ev == ⟨true, false, true, false⟩) = true := by decide
theorem test_presentation_latches_whole_record : nextIs (step { on0 restBus with requests := [[], [⟨0x40000050, 0xBEEF0002, 0x20000010⟩]], sched := [.requester 1] })
    (fun t => (t.bus 0).seq.cmd == ⟨4, 0, 0, 0x50, 0xBEEF, 2, 0x20000010⟩ && (t.bus 0).seq.phase == .check && t.blocked 1 && !t.blocked 0 &&
      t.requests == [[], []]) = true := by decide
theorem test_init_latches_whole_record : nextIs (step { State.reset with requests := [[⟨0x00FF1234, 0xFFFFFFFF, 7⟩]], sched := [.requester 0] })
    (fun t => (t.bus 0).seq.cmd == ⟨0, 0, 0xFF, 0x1234, 0xFFFF, 0xFFFF, 7⟩ && (t.bus 0).seq.phase == .idle && !t.blocked 0) = true := by decide
theorem test_blocked_thread_waits : nextIs (step { on0 { inPhase .wait wr with callers := [0] } with requests := [[encode rd]], sched := [.requester 0] })
    (fun t => t.requests == [[encode rd]] && t.fault == none && (t.bus 0).seq.phase == .wait) = true := by decide
theorem test_other_thread_is_busy : nextIs (step { on0 { inPhase .wait wr with callers := [0] } with requests := [[], [encode rd]], sched := [.requester 1] })
    (fun t => t.fault == some ⟨.busy, 0⟩ && (t.bus 0).seq.phase == .faulted && t.blocked 0 && t.blocked 1) = true := by decide
theorem test_pointer_has_address_width :
    nextIs (step { on0 restBus with cfg := { Config.tc with addrW := 40 }, requests := [[⟨0x40000050, 2, 0x8020000010⟩]], sched := [.requester 0] })
      (fun t => (t.bus 0).seq.cmd.ptr == 0x8020000010) = true ∧
    nextIs (step { on0 restBus with cfg := { Config.tc with addrW := 16 }, requests := [[⟨0x40000050, 2, 0x20000010⟩]], sched := [.requester 0] })
      (fun t => (t.bus 0).seq.cmd.ptr == 0x10) = true := by decide
theorem test_disabled_bus_hangs_in_wait : nextIs (exec wrNoStop (on0 { inPhase .wait wrNoStop with
    enable := false, gate := .unlocked, txAmt := 2, ev := ⟨false, true, false, false⟩ })) (fun t => (t.bus 0).seq.phase == .wait) = true := by decide
theorem test_disabled_start_ignored : nextIs (exec wr (on0 { inPhase .start wr with enable := false, txCnt := 2, txAmt := 7 })) (fun t =>
    (t.bus 0).wire == ⟨.idle, 0, false⟩ && (t.bus 0).txAmt == 7 && (t.bus 0).seq.phase == .unmask) = true := by decide
theorem test_tx_stream : txStream false [.start, .addr 0x50 .write, .answer .ack, .data 0x10, .answer .ack, .restart, .addr 0x50 .read,
    .answer .ack, .data 0x11, .stop] = [0x10] := by decide
theorem test_address_byte : addressByte 0x50 .write = 0xA0 ∧ addressByte 0x50 .read = 0xA1 ∧ masterAck 1 2 = .nack ∧ masterAck 0 2 = .ack := by
  decide
theorem test_register_view : Shorts.word RegMap.standard Shorts.writeThenRead = 0x1080 ∧
    IntEn.word RegMap.standard ⟨false, true, true⟩ = 0x01000200 ∧ (on0 restBus).regAtAddress 0 0x40003588 = some .address := by decide
theorem test_memory_canonical : Memory.write [(1, 5), (3, 7)] 1 0 = [(3, 7)] ∧ Memory.write [(1, 5), (3, 7)] 2 6 = [(1, 5), (2, 6), (3, 7)] := by
  decide

/-! ## Witnesses: for every statement with hypotheses, states and operands that meet them, clause by clause -/

/-- An answer is a next state. -/
def answersNext (r : Res) : Bool :=
  match r with
  | .next _ => true
  | .fault _ | .refused _ => false

theorem next_of_answersNext (r : Res) (h : answersNext r = true) : ∃ t, r = .next t := by
  cases r with
  | next t => exact ⟨t, rfl⟩
  | fault => cases h
  | refused => cases h

/-- The operation latched by bus `b` decodes. -/
def latchedOk (s : State) (b : BusId) : Bool :=
  match s.latched b with
  | .ok _ => true
  | .error _ => false

/-- The operation latched by bus `b` passes its contract checks. -/
def latchedPasses (s : State) (b : BusId) : Bool :=
  match s.latched b with
  | .ok i => violation s.cfg i == none
  | .error _ => true

theorem latched_of_latchedOk (s : State) (b : BusId) (h : latchedOk s b = true) : ∃ i, s.latched b = .ok i := by
  unfold latchedOk at h
  split at h
  · exact ⟨_, ‹_›⟩
  · cases h

theorem violation_of_latchedPasses (s : State) (b : BusId) (h : latchedPasses s b = true) :
    ∀ i, s.latched b = .ok i → violation s.cfg i = none := fun i hi => by
  unfold latchedPasses at h
  rw [hi] at h
  simpa using h

/-- A property of every bus of a state in which all but bus 0 are at reset. -/
theorem forall_on0 {P : Bus → Prop} (s : State) (x : Bus) (hs : s.buses = (on0 x).buses) (h0 : P x) (h1 : P Bus.reset) :
    ∀ b, P (s.bus b) := fun b => by
  have e : s.bus b = (on0 x).bus b := by unfold State.bus; rw [hs]
  rw [e, on0, State.bus_setBus]
  split
  · exact h0
  · have : ∀ c : BusId, State.reset.bus c = Bus.reset := by decide
    rw [this]; exact h1

/-- `pointersFit` in a form that evaluates, for a state in which all buses but bus 0 are at reset. -/
theorem pointersFit_on0 (s : State) (x : Bus) (hs : s.buses = (on0 x).buses) (hc : s.cfg.addrW = 32)
    (h1 : x.seq.cmd.ptr < 2 ^ 32) (h2 : x.rxPtr < 2 ^ 32)
    (h3 : (match x.txPtr with | .mem p => p | .staging | .regBuf => 0) < 2 ^ 32) : ∀ b, (s.bus b).pointersFit s.cfg.addrW := by
  rw [hc]
  refine forall_on0 (P := fun y => y.pointersFit 32) s x hs ⟨h1, h2, fun p hp => by rw [hp] at h3; exact h3⟩
    ⟨by decide, by decide, fun p hp => ?_⟩
  cases hp
  decide

/-- `programmedInv` in a form that evaluates, for a state in which all buses but bus 0 are at reset. -/
theorem programmedInv_on0 (s : State) (x : Bus) (hs : s.buses = (on0 x).buses)
    (h1 : x.wire.phase.transmitting = true → x.txProgrammed ∧ x.wire.idx < x.txCnt.toNat)
    (h2 : x.wire.phase.receiving = true → x.rxProgrammed ∧ x.wire.idx < x.rxCnt.toNat)
    (h3 : latchedOk s 0 = true) (h4 : latchedPasses s 0 = true) (h5 : x.seq.phase ≠ .start) : s.programmedInv := fun b => by
  by_cases hb : b = 0
  · subst hb
    have e : s.bus 0 = x := by
      have : s.bus 0 = (on0 x).bus 0 := by unfold State.bus; rw [hs]
      rw [this]; rfl
    simp only [e]
    exact ⟨h1, h2, fun _ => latched_of_latchedOk s 0 h3, fun _ => violation_of_latchedPasses s 0 h4, fun h => absurd h h5,
      fun h => absurd h h5⟩
  · have e : s.bus b = Bus.reset := by
      have e1 : s.bus b = (on0 x).bus b := by unfold State.bus; rw [hs]
      rw [e1, on0, State.bus_setBus_ne _ _ _ _ hb]
      have : ∀ c : BusId, State.reset.bus c = Bus.reset := by decide
      exact this b
    simp only [e]
    refine ⟨?_, ?_, ?_, ?_, ?_, ?_⟩ <;> intro hp <;> exact absurd hp (by decide)

/-- A `WRITE` with a stop whose first byte is on the wire; the wire engine's turn. -/
def writing : State :=
  { on0 { onWire .tx 1 true (inPhase .wait wr) with
      address := 0x50, txPtr := .mem 0x20000010, txCnt := 2, txAmt := 1, shorts := ⟨false, false, true⟩,
      inten := ⟨true, false, true⟩, acks := [.ack, .ack] } with
    mem := [(0x20000010, 0x11), (0x20000011, 0x22)], sched := [.wire 0] }

/-- A `READ` whose last byte is about to be received; the wire engine's turn. -/
def reading : State :=
  { on0 { onWire .rx 1 true (inPhase .wait rd) with
      address := 0x50, rxPtr := 0x20000200, rxCnt := 2, shorts := ⟨true, false, false⟩,
      inten := ⟨true, false, true⟩, rxData := [0x22] } with
    sched := [.wire 0] }

/-- A `WRITE_REG` that holds `SLOCK` and is about to copy; its sequencer's turn. -/
def copying : State :=
  { on0 { inPhase .stageCopy wrg with seq := { (inPhase .stageCopy wrg).seq with staged := true } } with
    slock := .held 0, mem := [(0x20000100, 0xAA)], sched := [.seq 0] }

/-- A `READ` whose transfer has succeeded, about to be classified; its sequencer's turn. -/
def returning : State := { on0 (inPhase .classify rd) with sched := [.seq 0] }

theorem writing_inv : writing.inv :=
  ⟨⟨by decide, by decide, List.length_replicate,
    pointersFit_on0 writing (writing.bus 0) rfl rfl (by decide) (by decide) (by decide)⟩, by decide, by decide,
   forall_on0 writing (writing.bus 0) rfl (by refine ⟨?_, ?_, ?_, ?_, ?_, ?_, ?_, ?_, ?_, ?_⟩ <;> decide)
    (by refine ⟨?_, ?_, ?_, ?_, ?_, ?_, ?_, ?_, ?_, ?_⟩ <;> decide),
   programmedInv_on0 writing (writing.bus 0) rfl (by decide) (by decide) (by decide) (by decide) (by decide)⟩
theorem reading_inv : reading.inv :=
  ⟨⟨by decide, by decide, List.length_replicate,
    pointersFit_on0 reading (reading.bus 0) rfl rfl (by decide) (by decide) (by decide)⟩, by decide, by decide,
   forall_on0 reading (reading.bus 0) rfl (by refine ⟨?_, ?_, ?_, ?_, ?_, ?_, ?_, ?_, ?_, ?_⟩ <;> decide)
    (by refine ⟨?_, ?_, ?_, ?_, ?_, ?_, ?_, ?_, ?_, ?_⟩ <;> decide),
   programmedInv_on0 reading (reading.bus 0) rfl (by decide) (by decide) (by decide) (by decide) (by decide)⟩
theorem copying_inv : copying.inv :=
  ⟨⟨by decide, by decide, List.length_replicate,
    pointersFit_on0 copying (copying.bus 0) rfl rfl (by decide) (by decide) (by decide)⟩, by decide, by decide,
   forall_on0 copying (copying.bus 0) rfl (by refine ⟨?_, ?_, ?_, ?_, ?_, ?_, ?_, ?_, ?_, ?_⟩ <;> decide)
    (by refine ⟨?_, ?_, ?_, ?_, ?_, ?_, ?_, ?_, ?_, ?_⟩ <;> decide),
   programmedInv_on0 copying (copying.bus 0) rfl (by decide) (by decide) (by decide) (by decide) (by decide)⟩
theorem returning_inv : returning.inv :=
  ⟨⟨by decide, by decide, List.length_replicate,
    pointersFit_on0 returning (returning.bus 0) rfl rfl (by decide) (by decide) (by decide)⟩, by decide, by decide,
   forall_on0 returning (returning.bus 0) rfl (by refine ⟨?_, ?_, ?_, ?_, ?_, ?_, ?_, ?_, ?_, ?_⟩ <;> decide)
    (by refine ⟨?_, ?_, ?_, ?_, ?_, ?_, ?_, ?_, ?_, ?_⟩ <;> decide),
   programmedInv_on0 returning (returning.bus 0) rfl (by decide) (by decide) (by decide) (by decide) (by decide)⟩
theorem writing_next : ∃ t, step writing = .next t := next_of_answersNext _ (by decide)
theorem reading_next : ∃ t, step reading = .next t := next_of_answersNext _ (by decide)
theorem copying_next : ∃ t, step copying = .next t := next_of_answersNext _ (by decide)

theorem witness_DecodeEncodeAgree : (Instr.writeReg 15 0x0F 0x7F 0xFFFF 0xFFFF 0xFFFFFFFF).wf = true ∧
    (Instr.read 15 0x0F 0x7F 0xFFFF 0xFFFFFFFF).wf = true ∧ (Instr.release 15).wf = true := by decide
theorem witness_DecodedWordsEncodeBack : decode ⟨0x5F0F007F, 0xFFFFFFFF, 0xFFFFFFFF⟩ = .ok (.writeReg 15 0x0F 0x7F 0xFFFF 0xFFFF 0xFFFFFFFF) ∧
    decode ⟨0x20000000, 0, 0⟩ = .ok (.release 0) := by decide
theorem witness_UnusedFieldsIgnored :
    let c : Cmd96 := ⟨0x20FFFFFF, 0xFFFFFFFF, 0xFFFFFFFF⟩; let d : Cmd96 := ⟨0x20000000, 0, 0⟩
    let e : Cmd96 := ⟨0x40000050, 0xBEEF0001, 7⟩; let f : Cmd96 := ⟨0x40000050, 1, 7⟩
    c.w0.extractLsb' 28 4 = 2 ∧ c.w0.extractLsb' 24 8 = d.w0.extractLsb' 24 8 ∧ c ≠ d ∧ e.w0.extractLsb' 28 4 = 4 ∧ e.w0 = f.w0 ∧
    e.w1.extractLsb' 0 16 = f.w1.extractLsb' 0 16 ∧ e.w2 = f.w2 ∧ e ≠ f := by decide
theorem witness_ReservedEncodingsRefused : ∃ s : State, s.sched = [.requester 0] ∧ s.blocked 0 = false ∧
    s.requests[0]? = some [⟨0x30000000, 0, 0⟩] ∧ decode ⟨0x30000000, 0, 0⟩ = .error .reservedOpcode :=
  ⟨{ on0 restBus with sched := [.requester 0], requests := [[⟨0x30000000, 0, 0⟩]] }, by decide⟩
theorem witness_StepRunsDecodedCommand_presented :
    let s : State := { on0 restBus with sched := [.requester 1], requests := [[], [encode wr]] }
    let u : State := { State.reset with sched := [.requester 0], requests := [[encode (.init 0)]] }
    s.sched = [.requester 1] ∧ s.blocked 1 = false ∧ s.requests[1]? = some [encode wr] ∧
    decode ⟨(encode wr).w0, (encode wr).w1, (encode wr).w2 % 2 ^ s.cfg.addrW⟩ = .ok wr ∧ s.hasBus 0 = true ∧ wr.opcode ≠ 0 ∧
    (s.bus 0).seq.phase = .idle ∧ u.blocked 0 = false ∧ (Instr.init 0).opcode = 0 ∧ (u.bus 0).seq.phase = .uninit := by decide
theorem witness_StepRunsDecodedCommand_busy :
    let s : State := { on0 (inPhase .wait rd) with sched := [.requester 0], requests := [[encode wr]] }
    s.blocked 0 = false ∧ s.requests[0]? = some [encode wr] ∧ decode (encode wr) = .ok wr ∧ s.hasBus 0 = true ∧ wr.opcode ≠ 0 ∧
    (s.bus 0).seq.phase ≠ .idle ∧ (s.bus 0).seq.phase ≠ .uninit ∧ s.hasBus 2 = false ∧ (Instr.acquire 2).opcode ≠ 0 ∧
    (State.reset.bus 0).seq.phase = .uninit := by decide
theorem witness_StepRunsDecodedCommand_latched : ∃ s : State, s.sched = [.seq 0] ∧ s.hasBus 0 = true ∧
    (s.bus 0).seq.phase.inFlight = true ∧ s.latched 0 = .ok wr :=
  ⟨{ on0 (inPhase .check wr) with sched := [.seq 0] }, by decide⟩
theorem witness_StepRunsDecodedCommand_placed : decodeTableWord 96 0x20000100ABCD000150020050 = some wrg16 ∧
    State.reset.answers wrg16 = true ∧ State.reset.blocked State.reset.requests.length = false ∧
    (cmdOfBits 96 0x20000100ABCD000150020050).w2 < 2 ^ State.reset.cfg.addrW := by decide
theorem witness_StepRunsDecodedCommand_unscheduled : (on0 restBus).sched = [] ∧ (on0 restBus).readyTurns = [] ∧
    (on0 (inPhase .check wr)).sched = [] ∧ (on0 (inPhase .check wr)).readyTurns = [.seq 0] := by decide
theorem witness_BlockedTurnChangesNothing : (on0 (inPhase .wait wr)).isrEnabled 0 = false ∧
    (on0 { restBus with callers := [3] }).blocked 3 = true ∧ State.reset.requests[3]? = none ∧
    (on0 (inPhase .wait wr)).seqReady 0 = false ∧ (on0 (inPhase .wait wr)).latched 0 = .ok wr ∧ wr.opcode ≠ 0 ∧
    (on0 { inPhase .wait wr with gate := .unlocked, enable := false }).seqReady 0 = false ∧
    State.reset.seqReady 0 = false ∧ (State.reset.bus 0).seq.phase.inFlight = false ∧ State.reset.latched 0 = .ok (.init 0) := by decide
theorem witness_BlockedTurnChangesNothing_wire : (State.reset.bus 0).enable = false ∧ ((on0 restBus).bus 0).wire.atRest = true ∧
    ((on0 (onWire .txAddr 0 false restBus)).bus 0).acks = [] ∧
    (onWire .tx 0 true { restBus with txCnt := 2 }).wire.idx + 1 < (onWire .tx 0 true { restBus with txCnt := 2 }).txCnt.toNat ∧
    (onWire .rx 0 true restBus).rxData = [] ∧ (onWire .rx 0 true restBus).wire.phase = .rx := by decide
theorem witness_InitEffect : State.reset.hasBus 0 = true ∧ (State.reset.bus 0).seq.phase = .uninit ∧
    State.reset.hasBus 1 = true ∧ (State.reset.bus 1).seq.phase = .uninit ∧ State.reset.hasBus 2 = false ∧
    (on0 restBus).hasBus 0 = true ∧ ((on0 restBus).bus 0).seq.phase ≠ .uninit := by decide
theorem witness_InitEffect_clean_entry : State.reset.hasBus 1 = true ∧ (State.reset.bus 1).seq.phase = .uninit ∧
    State.reset.slock = .free ∧ State.reset.fault = none := by decide
theorem witness_AcquireEffect :
    let s := on0 restBus; let u := on1 restBus; let v := on1 (inPhase .pinLock (.acquire 1))
    let w := on1 { inPhase .pinLock (.acquire 1) with pinLock := .held }
    s.hasBus 0 = true ∧ (s.bus 0).seq.phase = .idle ∧ (s.desc 0).sharesPins = false ∧
    u.hasBus 1 = true ∧ (u.bus 1).seq.phase = .idle ∧ (u.desc 1).sharesPins = true ∧
    (w.bus 1).seq.phase = .pinLock ∧ (w.bus 1).pinLock ≠ .free ∧ (v.bus 1).seq.phase = .pinLock ∧ (v.bus 1).pinLock = .free ∧
    s.hasBus 2 = false := by decide
theorem witness_ReleaseEffect :
    let s := on0 restBus; let u := on0 (onWire .held 2 true restBus)
    let v := on1 { restBus with pinLock := .held }; let w := on1 restBus
    s.hasBus 0 = true ∧ (s.bus 0).seq.phase = .idle ∧ (s.bus 0).wire.held = false ∧
    u.hasBus 0 = true ∧ (u.bus 0).seq.phase = .idle ∧ (u.bus 0).wire.held = true ∧ s.hasBus 15 = false ∧
    v.hasBus 1 = true ∧ (v.desc 1).sharesPins = true ∧ (v.bus 1).pinLock = .held ∧ (v.bus 1).seq.phase = .idle ∧
    (v.bus 1).wire.held = false ∧ (w.bus 1).pinLock = .free ∧ (w.bus 1).seq.phase = .idle ∧
    (w.bus 1).wire.held = false := by decide
theorem witness_OtherRoleConfined :
    let s := on1 (inPhase .pinLock (.acquire 1)); let u := on1 { restBus with pinLock := .held }
    s.hasBus 1 = true ∧ (s.desc 1).sharesPins = true ∧ (s.bus 1).seq.phase = .pinLock ∧ (s.bus 1).pinLock = .free ∧
    u.hasBus 1 = true ∧ (u.desc 1).sharesPins = true ∧ (u.bus 1).pinLock = .held ∧
    s.hasBus 0 = true ∧ (s.desc 0).sharesPins = false := by decide
theorem witness_CommandAccepted : wr.isTransfer = true ∧ rdg.isTransfer = true ∧ wr.wf = true ∧ rdg.wf = true ∧
    (on0 restBus).hasBus 0 = true ∧ ((on0 restBus).bus 0).seq.phase = .idle := by decide
set_option maxRecDepth 8192 in
theorem witness_ContractChecksInOrder :
    violation Config.tc (.write 0 0 0x50 0 0) = some .nullBuffer ∧ violation Config.tc (.write 0 0 0x50 0 1) = some .zeroLength ∧
    violation Config.tc (.write 0 0 0x50 255 0x20001000) = none ∧ violation Config.tc (.write 0 0 0x50 256 0x20001000) = some .overLength ∧
    violation Config.tc (.writeReg 0 0 0x50 0 252 0x20001000) = none ∧
    violation Config.tc (.writeReg 0 0 0x50 0 253 0x20001000) = some .overLength ∧
    violation Config.tc (.write 0 0 0x50 1 0xFFFFFFFF) = none ∧ violation Config.tc (.write 0 0 0x50 2 0xFFFFFFFF) = some .rangeWraps ∧
    violation Config.tc (.read 0 0 0x50 2 0x2000FFFE) = none ∧ violation Config.tc (.read 0 0 0x50 2 0x2000FFFF) = some .rxNotAddressable ∧
    violation Config.tc (.readReg 0 0 0x50 0 255 0x20000000) = none ∧
    violation Config.tc (.readReg 0 0 0x50 0 1 0x1FFFFFFF) = some .rxNotAddressable := by decide
theorem witness_ContractViolationStopsSequencer :
    let bad : Instr := .writeReg 0 0 0x50 0 253 0x20000100; let s := on0 (inPhase .check bad)
    bad.isTransfer = true ∧ bad.wf = true ∧ s.hasBus 0 = true ∧ (s.bus 0).seq.phase = .check ∧ violation s.cfg bad = some .overLength ∧
    s.hasBus 2 = false ∧ (Instr.write 2 0 0x50 1 0x20000000).wf = true ∧ (State.reset.bus 0).seq.phase = .uninit ∧ wr.opcode ≠ 0 := by
  decide
theorem witness_UnsupportedFlagReturns :
    let i : Instr := .read 0 0x04 0x50 2 0x20000200; let j : Instr := .write 0 0x08 0x50 1 0x20000000
    i.isTransfer = true ∧ i.wf = true ∧ j.wf = true ∧ (on0 (inPhase .check i)).hasBus 0 = true ∧ ((on0 (inPhase .check i)).bus 0).seq.phase = .check ∧
    violation Config.tc i = none ∧ violation Config.tc j = none ∧ i.opcode = 6 ∧ i.flags &&& 0x0D ≠ 0 ∧ j.opcode = 4 ∧
    j.flags &&& 0x09 ≠ 0 := by decide
theorem witness_StagingDecision : wr.isTransfer = true ∧ wr.wf = true ∧ (on0 (inPhase .check wr)).hasBus 0 = true ∧ ((on0 (inPhase .check wr)).bus 0).seq.phase = .check ∧
    violation Config.tc wr = none ∧ violation Config.tc wrStaged = none ∧ violation Config.tc wrg = none ∧ violation Config.tc rd = none ∧
    wr.flags &&& 0x09 = 0 ∧ wrg.flags &&& 0x09 = 0 ∧ rd.flags &&& 0x0D = 0 ∧ writeStages Config.tc 0x2000FFFE 4 = true ∧
    writeStages Config.tc 0x20000010 2 = false := by decide
theorem witness_StageLockTakenAndReleased :
    let s := on0 (inPhase .stageLock wrg)
    let u := copying.setBus 0 { copying.bus 0 with seq := { (copying.bus 0).seq with phase := .unstage, res := .dataNack } }
    wrg.opcode = 5 ∧ wrg.wf = true ∧ s.hasBus 0 = true ∧ (s.bus 0).seq.phase = .stageLock ∧ s.slock = .free ∧
    { s with slock := .held 1 }.slock = .held 1 ∧ u.hasBus 0 = true ∧ (u.bus 0).seq.phase = .unstage ∧
    (u.bus 0).seq.res = .dataNack := by decide
theorem witness_StageCopyFillsBuffer : copying.hasBus 0 = true ∧ (copying.bus 0).seq.phase = .stageCopy ∧ copying.staging.length = 256 ∧
    (0x20000100 : Nat) + 252 ≤ 2 ^ copying.cfg.addrW ∧ (Instr.writeReg 0 0 0x50 0x10 252 0x20000100).wf = true ∧
    (Instr.write 0 0 0x50 255 0x20000100).wf = true :=
  ⟨by decide, by decide, List.length_replicate, by decide, by decide, by decide⟩
theorem witness_WritesProgramTransmit :
    let s := on0 (inPhase .program wr)
    s.hasBus 0 = true ∧ (s.bus 0).seq.phase = .program ∧ (s.bus 0).seq.staged = false ∧
    ((copying.setBus 0 { copying.bus 0 with seq := { (copying.bus 0).seq with phase := .program } }).bus 0).seq.staged = true ∧
    (Instr.write 0 0 0x50 255 0x20000000).wf = true ∧ (Instr.writeReg 0 0x02 0x50 0 252 0x20000000).wf = true := by decide
theorem witness_ReadsProgramReceive : (on0 (inPhase .program rd)).hasBus 0 = true ∧ ((on0 (inPhase .program rd)).bus 0).seq.phase = .program ∧
    rd.wf = true ∧ rdg.wf = true := by decide
theorem witness_StartTaskTriggered :
    let x := { inPhase .start wr with txCnt := 2 }; let y := { inPhase .start rd with rxCnt := 2 }
    let r := onWire .tx 0 true x
    wr.isTransfer = true ∧ wr.wf = true ∧ (on0 x).hasBus 0 = true ∧ ((on0 x).bus 0).seq.phase = .start ∧ x.enable = true ∧
    x.wire.phase = .idle ∧ wr.opcode ≠ 6 ∧ x.txCnt ≠ 0 ∧ rd.wf = true ∧ rd.opcode = 6 ∧ y.rxCnt ≠ 0 ∧ y.seq.phase = .start ∧
    y.wire.phase = .idle ∧ { x with enable := false }.enable = false ∧ r.wire.phase ≠ .idle ∧ r.wire.phase ≠ .held ∧
    r.enable = true := by decide
theorem witness_FinishUnmasks :
    let x := { inPhase .unmask wrNoStop with ev := ⟨false, true, false, false⟩ }
    let y : Bus := { x with seq := { x.seq with succ := .lastTx } }
    wrNoStop.isTransfer = true ∧ wrNoStop.wf = true ∧ (on0 y).hasBus 0 = true ∧ ((on0 y).bus 0).seq.phase = .unmask ∧ y.seq.succ = .lastTx ∧ y.ev.lastTx = true := by
  decide
theorem witness_FinishWaitsPollsAcknowledges :
    let w := on0 (inPhase .wait wr); let v := on0 { inPhase .wait wr with gate := .unlocked }
    let d := on0 { inPhase .wait wr with gate := .unlocked, enable := false }
    let p := on0 (inPhase .poll wrNoStop); let q := on0 { inPhase .poll wrNoStop with txAmt := 1 }; let a := on0 (inPhase .ack wr)
    wr.isTransfer = true ∧ wr.wf = true ∧ wrNoStop.wf = true ∧ w.hasBus 0 = true ∧ (w.bus 0).seq.phase = .wait ∧ (w.bus 0).gate = .locked ∧
    (v.bus 0).seq.phase = .wait ∧ (v.bus 0).gate = .unlocked ∧ (v.bus 0).enable = true ∧ (d.bus 0).seq.phase = .wait ∧
    (d.bus 0).enable = false ∧ (p.bus 0).seq.phase = .poll ∧ (p.bus 0).txAmt = (p.bus 0).seq.txn ∧
    (q.bus 0).seq.phase = .poll ∧ ¬((q.bus 0).txAmt = (q.bus 0).seq.txn ∨ (q.bus 0).ev.error = true) ∧ (a.bus 0).seq.phase = .ack := by
  decide
theorem witness_FinishClassifies : rd.isTransfer = true ∧ rd.wf = true ∧ returning.hasBus 0 = true ∧ (returning.bus 0).seq.phase = .classify ∧
    (returning.bus 0).seq.staged = false ∧
    ((copying.setBus 0 { copying.bus 0 with seq := { (copying.bus 0).seq with phase := .classify } }).bus 0).seq.staged = true := by decide
theorem witness_HandlerMasksAndSignals :
    let s := on0 { inPhase .wait wr with inten := ⟨true, false, true⟩, ev := ⟨true, false, false, false⟩ }
    s.hasBus 0 = true ∧ (s.bus 0).irqEn = true ∧ (s.bus 0).ev.stopped = true ∧ (s.bus 0).inten.stopped = true ∧
    ¬((writing.bus 0).ev.stopped = true ∨ (writing.bus 0).ev.lastTx = true ∨ (writing.bus 0).ev.error = true) := by decide
theorem witness_HandlerFiresOnce : (returning.bus 0).inten = ⟨false, false, false⟩ ∧ (∃ t, step returning = .next t) ∧
    (returning.bus 0).seq.phase ≠ .unmask := ⟨by decide, next_of_answersNext _ (by decide), by decide⟩
theorem witness_AddressPhaseAcknowledged :
    let s := on0 { onWire .txAddr 0 false restBus with acks := [.ack] }; let u := on0 { onWire .rxAddr 0 true restBus with acks := [.ack] }
    s.hasBus 0 = true ∧ (s.bus 0).enable = true ∧ (s.bus 0).wire.phase = .txAddr ∧ (s.bus 0).acks = [.ack] ∧
    (u.bus 0).enable = true ∧ (u.bus 0).wire.phase = .rxAddr ∧ (u.bus 0).acks = [.ack] := by decide
theorem witness_AddressNackEndsTransfer :
    let s := on0 { onWire .txAddr 0 false restBus with acks := [.nack] }; let u := on0 { onWire .rxAddr 0 true restBus with acks := [.nack] }
    s.hasBus 0 = true ∧ (s.bus 0).enable = true ∧ (s.bus 0).wire.phase = .txAddr ∧ (s.bus 0).acks = [.nack] ∧
    (u.bus 0).enable = true ∧ (u.bus 0).wire.phase = .rxAddr ∧ (u.bus 0).acks = [.nack] := by decide
theorem witness_TransmitByteAcknowledged :
    let s := on0 { onWire .tx 0 true restBus with acks := [.ack], txCnt := 2, txPtr := .staging }
    let u := on0 { onWire .tx 0 true restBus with acks := [.ack], txCnt := 2, txPtr := .regBuf, regBuf := ⟨0x12, 0x34⟩ }
    s.hasBus 0 = true ∧ (s.bus 0).enable = true ∧ (s.bus 0).wire.phase = .tx ∧ (s.bus 0).wire.idx + 1 < (s.bus 0).txCnt.toNat ∧
    (s.bus 0).acks = [.ack] ∧ (s.bus 0).txPtr = .staging ∧ s.staging[(s.bus 0).wire.idx]? = some 0 ∧
    (u.bus 0).txPtr = .regBuf ∧ (u.bus 0).wire.idx = 0 ∧ (u.bus 0).regBuf.b0 = 0x12 := by decide
theorem witness_DataNackEndsTransfer :
    let s := on0 { onWire .tx 0 true restBus with acks := [.nack], txCnt := 2 }
    let u := on0 { onWire .txLast 1 true restBus with acks := [.nack], txCnt := 2 }
    s.hasBus 0 = true ∧ (s.bus 0).enable = true ∧ (s.bus 0).wire.phase = .tx ∧ 0 = (s.bus 0).wire.idx ∧ 0 + 1 < (s.bus 0).txCnt.toNat ∧
    (s.bus 0).acks = [.nack] ∧ s.txByte 0 0 = .ok 0 ∧ (u.bus 0).wire.phase = .txLast ∧ 1 + 1 = (u.bus 0).txCnt.toNat ∧
    u.txByte 0 1 = .ok 0 := by decide
theorem witness_LastByteBegins : writing.hasBus 0 = true ∧ (writing.bus 0).enable = true ∧ (writing.bus 0).wire.phase = .tx ∧
    (writing.bus 0).wire.idx + 1 = (writing.bus 0).txCnt.toNat := by decide
theorem witness_LastByteAcknowledged :
    let x := { onWire .txLast 1 true restBus with acks := [.ack], txCnt := 2, rxCnt := 1 }
    (on0 x).hasBus 0 = true ∧ x.enable = true ∧ x.wire.phase = .txLast ∧ x.txCnt ≠ 0 ∧ x.acks = [.ack] ∧ (on0 x).txByte 0 1 = .ok 0 ∧
    { x with shorts := ⟨true, true, false⟩ }.shorts.ltxSrx = true ∧ x.rxCnt ≠ 0 ∧
    { x with shorts := ⟨false, false, true⟩ }.shorts.ltxStop = true ∧ x.shorts.ltxSrx = false ∧ x.shorts.ltxStop = false ∧
    { x with shorts := ⟨false, true, true⟩ }.shorts = ⟨false, true, true⟩ := by decide
theorem witness_ReceivedByteStored : reading.hasBus 0 = true ∧ (reading.bus 0).enable = true ∧ (reading.bus 0).wire.phase = .rx ∧
    (reading.bus 0).rxData = [0x22] ∧ Memory.wf reading.mem = true ∧
    (reading.bus 0).shorts.lrxStop = true ∧ (reading.bus 0).wire.idx + 1 = (reading.bus 0).rxCnt.toNat ∧
    (onWire .rx 0 true (reading.bus 0)).wire.idx + 1 < (onWire .rx 0 true (reading.bus 0)).rxCnt.toNat := by decide
theorem witness_RegisterViewWrites : Config.tc.regMap = RegMap.standard ∧ restBus.enable = true ∧ Bus.reset.enable = false := by decide
theorem witness_CommandFrame : ∃ t, exec wrg copying = .next t := next_of_answersNext _ (by decide)
theorem witness_TransferFrame : rdg.isTransfer = true ∧ ∃ t, exec rdg (on0 (inPhase .program rdg)) = .next t :=
  ⟨by decide, next_of_answersNext _ (by decide)⟩
theorem witness_WireFrame : Memory.wf reading.mem = true ∧ ∃ t, takeTurn (Turn.wire 0) reading = .next t :=
  ⟨by decide, next_of_answersNext _ (by decide)⟩
theorem witness_BusesIndependent : (1 : BusId) ≠ 0 ∧ ∃ t, takeTurn (Turn.seq 0) copying = .next t :=
  ⟨by decide, next_of_answersNext _ (by decide)⟩
theorem witness_StagingWrittenByHolderOnly : copying.lockInv ∧ ∃ t, step copying = .next t ∧ t.staging ≠ copying.staging :=
  ⟨copying_inv.2.1, _, rfl, fun h => absurd (congrArg List.head? h) (by decide)⟩
theorem witness_MemoryWrittenByteAtATime : (Memory.wf reading.mem = true ∧
    ∃ t, step reading = .next t ∧ Memory.read t.mem 0x20000201 ≠ Memory.read reading.mem 0x20000201) ∧
    reading.blocked 0 = false ∧ 0xFFFFFFFF < 2 ^ reading.cfg.addrW ∧ 2 ^ reading.cfg.addrW ≤ 0x100000000 :=
  ⟨⟨by decide, _, rfl, by decide⟩, by decide, by decide, by decide⟩
theorem witness_ConfigurationAndFaultPersist :
    let s : State := { on0 (inPhase .faulted wr) with fault := some ⟨.busy, 0⟩ }
    let u : State := { on0 { inPhase .wait wrNoStop with enable := false, gate := .unlocked, ev := ⟨false, true, false, false⟩ } with
      sched := [.seq 0] }
    (∃ t, step s = .next t) ∧ s.fault ≠ none ∧ (s.bus 0).seq.phase = .faulted ∧ (∃ t, step u = .next t) ∧
    (u.bus 0).seq.phase = .wait ∧ (u.bus 0).enable = false :=
  ⟨next_of_answersNext _ (by decide), by decide, by decide, next_of_answersNext _ (by decide), by decide, by decide⟩
theorem witness_LastByteEventsStayLatched :
    let s : State := { on0 { inPhase .classify rd with ev := ⟨false, true, true, true⟩ } with sched := [.seq 0] }
    (∃ t, step s = .next t) ∧ (s.bus 0).seq.phase ≠ .uninit ∧ (s.bus 0).ev.lastTx = true ∧ (s.bus 0).ev.lastRx = true :=
  ⟨next_of_answersNext _ (by decide), by decide, by decide, by decide⟩
theorem witness_StepKeepsMemoryInvariant : reading.memoryInv ∧ ∃ t, step reading = .next t := ⟨reading_inv.1, reading_next⟩
theorem witness_StepKeepsLockInvariant : copying.lockInv ∧ ∃ t, step copying = .next t := ⟨copying_inv.2.1, copying_next⟩
theorem witness_StepKeepsGateInvariant : writing.gateInv ∧ ∃ t, step writing = .next t := ⟨writing_inv.2.2.1, writing_next⟩
theorem witness_StepKeepsRestInvariant : writing.cfg.txAmtZeroed = true ∧ writing.gateInv ∧ writing.restInv ∧ ∃ t, step writing = .next t :=
  ⟨by decide, writing_inv.2.2.1, writing_inv.2.2.2.1, writing_next⟩
theorem witness_StepKeepsInvariant : copying.cfg.txAmtZeroed = true ∧ copying.inv ∧ ∃ t, step copying = .next t :=
  ⟨by decide, copying_inv, copying_next⟩
theorem witness_InvariantStateRefusesOnlyNamedCases :
    let s : State := { writing with sched := [.requester 0], requests := [[⟨0x30000000, 0, 0⟩]] }
    let u : State := { writing with sched := [.store 0 (2 ^ 32) 1] }
    let w : State := { writing with sched := [.otherPinLock 1 .held] }
    s.inv ∧ step s = .refused (.reservedEncoding .reservedOpcode) ∧ u.inv ∧ step u = .fault .noSuchAddress ∧
    w.inv ∧ step w = .refused .notOwner :=
  ⟨writing_inv, rfl, writing_inv, rfl, writing_inv, rfl⟩
theorem witness_InvariantStateReturnLeavesBusUsable : returning.inv ∧ ∃ t, step returning = .next t ∧ (t.bus 0).seq.phase = .idle :=
  ⟨returning_inv, _, rfl, by decide⟩
theorem witness_TransmitRunSendsFrame :
    let s : State := { on0 { onWire .txAddr 0 false restBus with txCnt := 1, acks := [.ack, .ack], shorts := ⟨false, false, true⟩ } with
      sched := [.wire 0, .wire 0, .wire 0] }
    s.hasBus 0 = true ∧ (s.bus 0).enable = true ∧ (s.bus 0).wire.phase = .txAddr ∧ (s.bus 0).wire.idx = 0 ∧
    (s.bus 0).txCnt.toNat = [(0 : Byte)].length ∧ (s.bus 0).shorts.ltxSrx = false ∧
    (∀ (k : Nat) (d : Byte), [(0 : Byte)][k]? = some d → s.txByte 0 k = .ok d) ∧
    (s.bus 0).acks = List.replicate 2 .ack ++ [] ∧ s.sched = List.replicate 3 (Turn.wire 0) ++ [] :=
  ⟨by decide, by decide, by decide, by decide, by decide, by decide,
   fun k d h => by
    cases k with
    | zero => cases h; decide
    | succ k => simp at h,
   by decide, by decide⟩
theorem witness_ReceiveRunStoresBytes :
    let s : State := { on0 { onWire .rxAddr 0 true restBus with rxCnt := 2, rxPtr := 0xFFFFFFFE, acks := [.ack], rxData := [0x11, 0x22], shorts := ⟨true, false, false⟩ } with
      sched := [.wire 0, .wire 0, .wire 0] }
    s.hasBus 0 = true ∧ (s.bus 0).enable = true ∧ (s.bus 0).wire.phase = .rxAddr ∧ (s.bus 0).wire.idx = 0 ∧ (s.bus 0).rxCnt.toNat = 2 ∧
    (s.bus 0).shorts.lrxStop = true ∧ Memory.wf s.mem = true ∧ (s.bus 0).rxPtr + 2 ≤ 2 ^ s.cfg.addrW ∧
    (s.bus 0).acks = [.ack] ∧ (s.bus 0).rxData = [0x11, 0x22] ++ [] ∧ s.sched = List.replicate 3 (Turn.wire 0) ++ [] := by decide
/-- A session on bus 0 in which thread 0 is about to present `i`, with the slave's answers and bytes and `w` turns of the wire
engine. -/
def offering (i : Instr) (w : Nat) (acks : List Answer) (data : List Byte) (x : Bus) : State :=
  { on0 { x with acks := acks, rxData := data } with requests := [[encode i]], sched := turnsOf Config.tc i 0 w }

theorem witness_WriteCommandRuns : (offering wr 4 [.ack, .ack, .ack] [] restBus).aboutToPresent 0 wr [] ∧
    wr.stages Config.tc = false ∧ (offering wr 4 [.ack, .ack, .ack] [] restBus).sched = turnsOf Config.tc wr 0 4 ++ [] ∧
    List.replicate 3 Answer.ack ++ [] = [.ack, .ack, .ack] := by decide
theorem witness_WriteCommandRuns_noStop : (offering wrNoStop 4 [.ack, .ack, .ack] [] restBus).aboutToPresent 0 wrNoStop [] ∧
    flagNoStop wrNoStop.flags = true := by decide
theorem witness_WriteCommandRuns_staged : (offering wrStaged 4 [.ack, .ack, .ack] [] restBus).aboutToPresent 0 wrStaged [] ∧
    wrStaged.stages Config.tc = true :=
  ⟨⟨by decide, by decide, by decide, by decide, by decide, by decide, by decide, fun _ => ⟨by decide, List.length_replicate⟩⟩, by decide⟩
theorem witness_WriteRegisterCommandRuns : (offering wrg16 5 [.ack, .ack, .ack, .ack] [] restBus).aboutToPresent 0 wrg16 [] ∧
    List.replicate (3 + 1) Answer.ack ++ [] = [.ack, .ack, .ack, .ack] :=
  ⟨⟨by decide, by decide, by decide, by decide, by decide, by decide, by decide, fun _ => ⟨by decide, List.length_replicate⟩⟩, by decide⟩
theorem witness_WriteRegisterCommandRuns_noStop :
    let i : Instr := .writeReg 0 0x04 0x50 0x10 2 0x20000100
    (offering i 5 [.ack, .ack, .ack, .ack] [] restBus).aboutToPresent 0 i [] ∧ flagNoStop i.flags = true :=
  ⟨⟨by decide, by decide, by decide, by decide, by decide, by decide, by decide, fun _ => ⟨by decide, List.length_replicate⟩⟩, by decide⟩
theorem witness_ReadCommandRuns :
    let s := offering rd 3 [.ack] [0x11, 0x22] (onWire .held 2 true restBus)
    s.aboutToPresent 0 rd [] ∧ Memory.wf s.mem = true ∧ (s.bus 0).acks = [.ack] ∧ (s.bus 0).rxData = [0x11, 0x22] ++ [] ∧
    s.sched = turnsOf s.cfg rd 0 (2 + 1) ++ [] := by decide
theorem witness_ReadRegisterCommandRuns :
    let s := offering rdg 7 [.ack, .ack, .ack, .ack] [0xDE, 0xAD] restBus
    s.aboutToPresent 0 rdg [] ∧ Memory.wf s.mem = true ∧ (s.bus 0).acks = List.replicate (2 + 2) .ack ++ [] ∧
    (s.bus 0).rxData = [0xDE, 0xAD] ++ [] ∧ s.sched = turnsOf s.cfg rdg 0 (2 + 2 + 3) ++ [] := by decide
theorem witness_AddressNackReturnsAndRecovers :
    let s := offering wr 1 [.nack] [] restBus; let u := offering rd 1 [.nack] [] restBus
    s.aboutToPresent 0 wr [] ∧ (s.bus 0).acks = [.nack] ∧ s.sched = turnsOf s.cfg wr 0 1 ++ [] ∧ u.aboutToPresent 0 rd [] := by
  decide
theorem witness_AddressNackReturnsAndRecovers_second :
    let v := offering rdg 5 [.ack, .ack, .ack, .nack] [] restBus
    v.aboutToPresent 0 rdg [] ∧ (v.bus 0).acks = List.replicate (2 + 1) .ack ++ [.nack] ∧
    v.sched = turnsOf v.cfg rdg 0 (2 + 3) ++ [] := by decide
theorem witness_AddressNackReturnsAndRecovers_staged : (offering wrStaged 1 [.nack] [] restBus).aboutToPresent 0 wrStaged [] ∧
    (offering wrg 1 [.nack] [] restBus).aboutToPresent 0 wrg [] :=
  ⟨⟨by decide, by decide, by decide, by decide, by decide, by decide, by decide, fun _ => ⟨by decide, List.length_replicate⟩⟩,
   ⟨by decide, by decide, by decide, by decide, by decide, by decide, by decide, fun _ => ⟨by decide, List.length_replicate⟩⟩⟩
theorem witness_DataNackReturnsAndRecovers :
    let s := offering wrNoStop 4 [.ack, .ack, .nack] [] restBus
    s.aboutToPresent 0 wrNoStop [] ∧ (wrNoStop.frame s)[1]? = some 0 ∧ 1 + 1 = (wrNoStop.frame s).length ∧
    (s.bus 0).acks = List.replicate (1 + 1) .ack ++ [.nack] ∧ s.sched = turnsOf s.cfg wrNoStop 0 (1 + 3) ++ [] := by decide
theorem witness_DataNackReturnsAndRecovers_register :
    let u := offering rdg 2 [.ack, .nack] [] restBus
    u.aboutToPresent 0 rdg [] ∧ (rdg.frame u)[0]? = some 0x12 ∧ 0 + 1 ≠ (rdg.frame u).length ∧
    (u.bus 0).acks = List.replicate (0 + 1) .ack ++ [.nack] ∧ u.sched = turnsOf u.cfg rdg 0 (0 + 2) ++ [] := by decide
theorem witness_DataNackReturnsAndRecovers_staged :
    (offering wrg 4 [.ack, .ack, .nack] [] restBus).aboutToPresent 0 wrg [] ∧
    (wrg.frame (offering wrg 4 [.ack, .ack, .nack] [] restBus))[1]? = some 0 :=
  ⟨⟨by decide, by decide, by decide, by decide, by decide, by decide, by decide, fun _ => ⟨by decide, List.length_replicate⟩⟩, by decide⟩

end Sys2Proof.Tests
end

section
/-! PROOF. A stopped sequencer, or one that waits on a disabled bus, has no move; no move writes the configuration or clears
the fault latch (60 R184, R199; 40 R93). -/

namespace Sys2Proof.Machine

/-- The sequencer of this bus can never move by itself again: it is stopped, or it waits for a disabled wire engine. -/
def Bus.stuck (x : Bus) : Prop := x.seq.phase = .faulted ∨ (x.seq.phase = .wait ∧ x.enable = false)

/-- A command does not move a stuck sequencer: every move but the blocked one is made in another phase, or on an enabled bus. -/
theorem ExecMove.eq_self_of_stuck {i : Instr} {s t : State} (m : ExecMove i s t) (h : (s.bus i.bus).stuck) : t = s := by
  rcases h with h | ⟨h, he⟩ <;> cases m <;> simp_all

/-- A meaning leaves the fault latch alone or sets it. -/
theorem ExecMove.fault_cases {i : Instr} {s t : State} (m : ExecMove i s t) : t.fault = s.fault ∨ ∃ v, t.fault = some v := by
  cases m
  case violated => exact .inr ⟨_, rfl⟩
  all_goals exact .inl rfl

/-- Presenting a command leaves every sequencer in its phase. -/
@[simp] theorem State.issue_bus_phase (s : State) (k : Nat) (c : Cmd96) (rest : List Cmd96) (i : Instr) (b : BusId) :
    ((s.issue k c rest i).bus b).seq.phase = (s.bus b).seq.phase := by
  by_cases hb : b = i.bus
  · subst hb; simp
  · simp [hb]

/-- Presenting a command enables and disables no bus. -/
@[simp] theorem State.issue_bus_enable (s : State) (k : Nat) (c : Cmd96) (rest : List Cmd96) (i : Instr) (b : BusId) :
    ((s.issue k c rest i).bus b).enable = (s.bus b).enable := by
  by_cases hb : b = i.bus
  · subst hb; simp
  · simp [hb]

/-- A meaning leaves a stuck sequencer of any bus, its own or another's, as it was. -/
theorem ExecMove.bus_of_stuck {i : Instr} {s t : State} (m : ExecMove i s t) (b : BusId) (h : (s.bus b).stuck) :
    t.bus b = s.bus b := by
  by_cases hb : b = i.bus
  · subst hb; rw [m.eq_self_of_stuck h]
  · exact m.bus_ne b hb

/-- The wire engine of any bus leaves every bus in its phase, and as enabled as it was. -/
theorem WireMove.bus_phase_enable {s t : State} {b : BusId} (m : WireMove s b t) (c : BusId) :
    (t.bus c).seq.phase = (s.bus c).seq.phase ∧ (t.bus c).enable = (s.bus c).enable := by
  by_cases hc : c = b
  · subst hc
    obtain ⟨x, hx⟩ := m.bus_frame
    simp [hx]
  · simp [m.bus_ne c hc]

/-- No agent writes the configuration. -/
theorem AgentMove.cfg {s t : State} (m : AgentMove s t) : t.cfg = s.cfg := by
  cases m
  case present hm => exact hm.cfg
  case seq hm => exact hm.cfg
  case wire hm => exact hm.globals.1
  all_goals rfl

/-- An agent leaves the fault latch alone or sets it. -/
theorem AgentMove.fault_cases {s t : State} (m : AgentMove s t) : t.fault = s.fault ∨ ∃ v, t.fault = some v := by
  cases m
  case badBus => exact .inr ⟨_, rfl⟩
  case busy => exact .inr ⟨_, rfl⟩
  case present hm => exact hm.fault_cases
  case seq hm => exact hm.fault_cases
  case wire hm =>
    obtain ⟨-, -, -, hf, -⟩ := hm.globals
    exact .inl hf
  all_goals exact .inl rfl

/-- No agent enables or disables a bus whose sequencer is stuck, and none moves that sequencer but by the contract violation
of another command on it. -/
theorem AgentMove.of_stuck {s t : State} (m : AgentMove s t) (b : BusId) (h : (s.bus b).stuck) :
    (t.bus b).enable = (s.bus b).enable ∧
    ((t.bus b).seq.phase = (s.bus b).seq.phase ∨ ((t.bus b).seq.phase = .faulted ∧ ∃ v, t.fault = some ⟨v, b⟩)) := by
  cases m
  case stay => exact ⟨rfl, .inl rfl⟩
  case badBus => simp
  case present k c rest i hk hr hd hi ha hm =>
    have : t.bus b = _ := hm.bus_of_stuck b (by simpa [Bus.stuck] using h)
    simp [this]
  case busy k c rest i v hk hr hd hi hp =>
    by_cases hb : b = i.bus
    · subst hb; simp
    · simp [hb]
  case seq c i hc hf hl hi hm => simp [hm.bus_of_stuck b h]
  case wire c hc he hm =>
    obtain ⟨hp, he⟩ := hm.bus_phase_enable b
    exact ⟨he, .inl hp⟩
  case isr c hc => by_cases hb : b = c <;> simp [hb, Bus.handler, Bus.signalGate]
  case otherConfigure c scl sda freq hc => by_cases hb : b = c <;> simp [hb]
  case store => exact ⟨rfl, .inl rfl⟩

end Sys2Proof.Machine

open Sys2Proof Sys2Proof.Machine

/-- Settles O44: a step is one agent's move, no move writes the configuration or clears the latch, and a stuck sequencer is
moved by a contract violation only. -/
theorem configurationAndFaultPersist : Obligations.ConfigurationAndFaultPersist := by
  intro s t h
  have m := step_move s t h
  refine ⟨m.cfg, fun hf => ?fault, fun b hp => ?faulted, fun b hp he => ?wait⟩
  case fault =>
    rcases m.fault_cases with e | ⟨v, e⟩
    · rw [e]; exact hf
    · simp [e]
  case faulted =>
    rcases (m.of_stuck b (.inl hp)).2 with e | ⟨e, -⟩
    · rw [e]; exact hp
    · exact e
  case wait =>
    obtain ⟨e, hph⟩ := m.of_stuck b (.inr ⟨hp, he⟩)
    exact ⟨e.trans he, hph.imp_left fun e' => e'.trans hp⟩
end

section
/-! PROOF. The blocking phases of a sequencer and the rests of a wire engine, each said once: a turn there changes nothing
(00 R5; 10 R13; 43 R150, R163, R164). -/

namespace Sys2Proof.Machine

/-- A sequencer with a command in flight is not ready exactly when its phase blocks and the phase's condition does not hold. -/
theorem State.seqReady_eq_false {s : State} {b : BusId} (hb : s.hasBus b = true) (hf : (s.bus b).seq.phase.inFlight = true)
    (h : s.seqReady b = false) :
    ((s.bus b).seq.phase = .pinLock ∧ (s.bus b).pinLock ≠ .free) ∨ ((s.bus b).seq.phase = .stageLock ∧ s.slock ≠ .free) ∨
    ((s.bus b).seq.phase = .wait ∧ (s.bus b).waitDone = false) ∨ ((s.bus b).seq.phase = .poll ∧ (s.bus b).pollDone = false) := by
  cases hp : (s.bus b).seq.phase <;> simp_all [State.seqReady, Phase.inFlight]

/-- `FINISH` has no step while the sequencer is not ready: not in its own two blocking phases, nor in those of the locks. -/
theorem finishStep_blocked {s : State} {b : BusId} (hb : s.hasBus b = true) (hf : (s.bus b).seq.phase.inFlight = true)
    (h : s.seqReady b = false) : finishStep b s = .next s := by
  rcases State.seqReady_eq_false hb hf h with ⟨hp, -⟩ | ⟨hp, -⟩ | ⟨hp, hw⟩ | ⟨hp, hw⟩ <;> simp [finishStep, *]

/-- A command whose sequencer is not ready does nothing. -/
theorem exec_blocked {i : Instr} {s : State} (hi : i.wf = true) (h0 : i.opcode ≠ 0) (hb : s.hasBus i.bus = true)
    (hf : (s.bus i.bus).seq.phase.inFlight = true) (h : s.seqReady i.bus = false) : exec i s = .next s := by
  have hfin := finishStep_blocked hb hf h
  have hstage : s.slock ≠ .free → stageLockStep i.bus s = .next s := fun hl =>
    ((stageLockStep_cases i.bus s).resolve_left fun ⟨hl', _⟩ => hl hl').2
  have hph := State.seqReady_eq_false hb hf h
  cases i <;> simp only [exec, execAcquire, execRelease, execWrite, execWriteReg, execRead, execReadReg, entry_run _ s _ hi hb]
  case init => exact absurd rfl h0
  all_goals
    rcases hph with ⟨hp, hl⟩ | ⟨hp, hl⟩ | ⟨hp, hl⟩ | ⟨hp, hl⟩ <;> simp_all [Instr.bus]

/-- A sequencer that is not ready has no step, if the command in flight is one that decodes and is not `INIT`. -/
theorem seqStep_blocked {s : State} {b : BusId} (h : s.seqReady b = false)
    (hl : (s.bus b).seq.phase.inFlight = true → ∃ i, s.latched b = .ok i ∧ i.opcode ≠ 0) : seqStep b s = .next s := by
  unfold seqStep
  split
  · rename_i hb
    obtain ⟨hb, hf⟩ := Bool.and_eq_true_iff.1 hb
    obtain ⟨i, hi, h0⟩ := hl hf
    obtain rfl := s.latched_bus b i hi
    simpa only [hi] using exec_blocked (decodeCmd_wf _ _ hi) h0 hb hf h
  · rfl

/-- The wire engine's phase is one of rest, or the slave owes it an answer or a byte (43 R163, R164). -/
abbrev Bus.wireStalled (x : Bus) : Prop :=
  x.wire.atRest = true ∨
  (x.acks = [] ∧ (x.wire.phase = .txAddr ∨ x.wire.phase = .rxAddr ∨ x.wire.phase = .txLast)) ∨
  (x.acks = [] ∧ x.wire.phase = .tx ∧ x.wire.idx + 1 < x.txCnt.toNat) ∨ (x.rxData = [] ∧ x.wire.phase = .rx)

/-- A disabled wire engine has no step. -/
theorem wireStep_disabled {s : State} {b : BusId} (h : (s.bus b).enable = false) : wireStep b s = .next s := by
  simp [wireStep, h]

/-- A stalled wire engine has no step. -/
theorem wireStep_stalled {s : State} {b : BusId} (h : (s.bus b).wireStalled) : wireStep b s = .next s := by
  simp only [wireStep]
  split
  · rfl
  rcases h with hr | ⟨ha, hp | hp | hp⟩ | ⟨ha, hp, hi⟩ | ⟨hd, hp⟩
  · simp only [Wire.atRest, Bool.or_eq_true, beq_iff_eq] at hr
    rcases hr with hp | hp <;> simp [hp]
  · simp [hp, addressStep, ha]
  · simp [hp, addressStep, ha]
  · simp [hp, lastEnds, ha]
  · simp [hp, hi, txByteStep, ha]
  · simp [hp, rxStep, hd]

/-- A handler that is not enabled has no step. -/
theorem isrStep_disabled {s : State} {b : BusId} (h : s.isrEnabled b = false) : isrStep b s = .next s := by
  simp [isrStep, h]

/-- A blocked thread presents nothing. -/
theorem requesterStep_blocked {s : State} {k : Nat} (h : s.blocked k = true) : requesterStep k s = .next s := by
  simp [requesterStep, h]

/-- A blocked thread stores nothing. -/
theorem requesterStore_blocked {s : State} {k : Nat} (a : Nat) (v : Byte) (h : s.blocked k = true) :
    requesterStore k a v s = .next s := by
  simp [requesterStore, h]

/-- A thread with nothing to present has no step. -/
theorem requesterStep_exhausted {s : State} {k : Nat} (h : s.requests[k]? = none ∨ s.requests[k]? = some []) :
    requesterStep k s = .next s := by
  unfold requesterStep
  rcases h with h | h <;> simp [h]

end Sys2Proof.Machine

open Sys2Proof Sys2Proof.Machine

/-- Settles O7, agent by agent. -/
theorem blockedTurnChangesNothing : Obligations.BlockedTurnChangesNothing := fun _ _ _ a v =>
  ⟨fun h => ⟨requesterStep_blocked h, requesterStore_blocked a v h⟩, requesterStep_exhausted, isrStep_disabled,
    fun h => h.elim wireStep_disabled wireStep_stalled, seqStep_blocked⟩
end

section
/-! PROOF. What a step runs: a requester's turn, a sequencer's turn, and the model's own choice (00 R5; 30 R70; 41 R101,
R113). -/

namespace Sys2Proof.Machine

/-- A step on a schedule that names a turn is that turn, on the state without it. -/
theorem step_of_sched {s : State} {k : Turn} {rest : List Turn} (h : s.sched = k :: rest) :
    step s = takeTurn k { s with sched := rest } := by
  simp [step, h]

/-- A thread that is not blocked presents its oldest command. -/
theorem requesterStep_of_decode {s : State} {k : Nat} {c : Cmd96} {rest : List Cmd96} {i : Instr} (hk : s.blocked k = false)
    (hr : s.requests[k]? = some (c :: rest)) (hd : decode (c.onWires s.cfg.addrW) = .ok i) :
    requesterStep k s = present i (s.issue k (c.onWires s.cfg.addrW) rest i) := by
  simp [requesterStep, hk, hr, hd]

/-- A sequencer with a command in flight takes the next step of the command it latched. -/
theorem seqStep_of_latched {s : State} {b : BusId} {i : Instr} (hb : s.hasBus b = true)
    (hf : (s.bus b).seq.phase.inFlight = true) (hl : s.latched b = .ok i) : seqStep b s = exec i s := by
  simp [seqStep, hb, hf, hl]

/-- A presented command runs when its bus answers it. -/
theorem present_issue_of_answers {s : State} (k : Nat) (c : Cmd96) (rest : List Cmd96) {i : Instr} (h : s.answers i = true) :
    present i (s.issue k c rest i) = exec i (s.issue k c rest i) := by
  simp [present, State.answers_issue, h]

/-- A presented command that its bus does not answer is the contract violation `busyViolation` names. -/
theorem present_issue_of_not_answers {s : State} (k : Nat) (c : Cmd96) (rest : List Cmd96) {i : Instr}
    (h : s.answers i = false) :
    present i (s.issue k c rest i) = .next ((s.issue k c rest i).raise (busyViolation s.cfg i) i.bus) := by
  simp only [present, State.answers_issue, h, Bool.false_eq_true, if_false]
  rfl

/-- The bus of an operation answers it in each of the cases of 30 R70 and 70 R212. -/
theorem State.answers_eq_true_iff (s : State) (i : Instr) : s.answers i = true ↔
    s.hasBus i.bus = false ∨ i.opcode = 0 ∨ (s.bus i.bus).seq.phase = .idle ∨ (s.bus i.bus).seq.phase = .uninit := by
  simp [State.answers, or_assoc]

/-- The sequencer of an existing bus accepts `INIT` in `P_UNINIT`, every other operation in `P_IDLE` (30 R70). -/
theorem State.accepts_eq_true_iff (s : State) (i : Instr) : s.accepts i = true ↔
    s.hasBus i.bus = true ∧
      ((i.opcode = 0 ∧ (s.bus i.bus).seq.phase = .uninit) ∨ (i.opcode ≠ 0 ∧ (s.bus i.bus).seq.phase = .idle)) := by
  by_cases h0 : i.opcode = 0#4 <;> simp [State.accepts, h0]

/-- A command that its bus accepts is one that it answers. -/
theorem State.answers_of_accepts {s : State} {i : Instr} (h : s.accepts i = true) : s.answers i = true := by
  obtain ⟨-, ⟨h0, -⟩ | ⟨-, hp⟩⟩ := (s.accepts_eq_true_iff i).1 h
  · exact (s.answers_eq_true_iff i).2 (.inr (.inl h0))
  · exact (s.answers_eq_true_iff i).2 (.inr (.inr (.inl hp)))

/-- A command whose `PTR` has `ADDR_W` bits is carried unchanged (10 R11; log entry 16). -/
theorem Cmd96.onWires_of_lt {c : Cmd96} {w : Nat} (h : c.w2 < 2 ^ w) : c.onWires w = c := by
  simp [Cmd96.onWires, Nat.mod_eq_of_lt h]

/-- A table word that is an instruction is a command that decodes to it. -/
theorem decode_of_decodeTableWord {nbits w : Nat} {i : Instr} (h : decodeTableWord nbits w = some i) :
    decode (cmdOfBits nbits w) = .ok i := by
  unfold decodeTableWord at h
  split at h
  · rename_i hd
    cases h
    exact hd
  · cases h

/-- A command placed by `withFetchWord` is presented by its own thread, in the state it was placed in. -/
theorem step_withFetchWord {s : State} {nbits w : Nat} {i : Instr} (hd : decodeTableWord nbits w = some i)
    (ha : s.answers i = true) (hk : s.blocked s.requests.length = false) (hw : (cmdOfBits nbits w).w2 < 2 ^ s.cfg.addrW) :
    step (s.withFetchWord nbits w) = exec i (State.issue { s with requests := s.requests ++ [[cmdOfBits nbits w]] }
      s.requests.length (cmdOfBits nbits w) [] i) := by
  let u : State := { s with requests := s.requests ++ [[cmdOfBits nbits w]] }
  have hc : (cmdOfBits nbits w).onWires u.cfg.addrW = cmdOfBits nbits w := Cmd96.onWires_of_lt hw
  have hr : u.requests[s.requests.length]? = some [cmdOfBits nbits w] := List.getElem?_concat_length
  calc step (s.withFetchWord nbits w)
    _ = requesterStep s.requests.length u := rfl
    _ = present i (u.issue s.requests.length (cmdOfBits nbits w) [] i) := by
      rw [requesterStep_of_decode (s := u) hk hr (by rw [hc]; exact decode_of_decodeTableWord hd), hc]
    _ = exec i (u.issue s.requests.length (cmdOfBits nbits w) [] i) := present_issue_of_answers _ _ _ ha

end Sys2Proof.Machine

open Sys2Proof Sys2Proof.Machine

/-- Settles O6: the presentation's three cases are acceptance, an answer without acceptance, and no answer. -/
theorem stepRunsDecodedCommand : Obligations.StepRunsDecodedCommand := by
  refine ⟨fun s k c rest sch i hs hk hr hd => ?present, fun s sch b i hs hb hf hl => ?seq,
    fun s nbits w i => step_withFetchWord, fun s hs => ?unscheduled⟩
  case present =>
    let v : State := { s with sched := sch }
    intro u cmd
    have hstep : step s = present i (v.issue k (c.onWires s.cfg.addrW) rest i) :=
      (step_of_sched hs).trans (requesterStep_of_decode hk hr hd)
    have hissue : v.issue k (c.onWires s.cfg.addrW) rest i = u (if s.accepts i then cmd else (s.bus i.bus).seq.cmd) := rfl
    have hkept : s.accepts i = false → v.issue k (c.onWires s.cfg.addrW) rest i = u (s.bus i.bus).seq.cmd := fun ha => by
      simp [hissue, ha]
    refine ⟨fun hb hp => ?_, fun h => ?_, fun hb h0 hi hu => ?_⟩
    · have ha := (s.accepts_eq_true_iff i).2 ⟨hb, hp⟩
      rw [hstep, present_issue_of_answers (s := v) k _ rest (State.answers_of_accepts ha), hissue, if_pos ha]
    · have hans : s.answers i = true := (s.answers_eq_true_iff i).2 (by tauto)
      have ha : s.accepts i = false := by
        rw [← Bool.not_eq_true, s.accepts_eq_true_iff]
        rcases h with h | ⟨h0, hp⟩ | ⟨h0, hp⟩ <;> simp_all
      rw [hstep, present_issue_of_answers (s := v) k _ rest hans, hkept ha]
    · have hans : s.answers i = false := by
        rw [← Bool.not_eq_true, s.answers_eq_true_iff]
        simp_all
      have ha : s.accepts i = false := by
        rw [← Bool.not_eq_true, s.accepts_eq_true_iff]
        simp_all
      rw [hstep, present_issue_of_not_answers (s := v) k _ rest hans, hkept ha]
  case seq => exact (step_of_sched hs).trans (seqStep_of_latched hb hf hl)
  case unscheduled =>
    exact ⟨fun h => by simp [step, hs, unscheduledStep, h], fun t ts h => by simp [step, hs, unscheduledStep, h]⟩
end

section
/-! PROOF. `SLOCK` and the staged mark of a command move together, in `P_STAGE_LOCK` and in `P_UNSTAGE` (41 R104, R112); every
other move leaves both alone and enters no phase that the mark forbids or asks for. -/

namespace Sys2Proof.Machine

/-- The sequencer's phase agrees with its staged mark: the two clauses of `State.lockInv` that speak of one bus alone. -/
abbrev Seq.stagedFits (q : Seq) : Prop :=
  (q.phase.beforeStaging = true → q.staged = false) ∧ (q.phase = .stageCopy ∨ q.phase = .unstage → q.staged = true)

/-- The sequencer that has staged is the holder, so no other has. -/
theorem State.lockInv.staged_unique {s : State} (h : s.lockInv) {b c : BusId} (hb : (s.bus b).seq.staged = true)
    (hc : (s.bus c).seq.staged = true) : c = b := by
  have e : SLock.held c = SLock.held b := ((h c).1.1 hc).symm.trans ((h b).1.1 hb)
  injection e

/-- No sequencer has staged while the lock is free. -/
theorem State.lockInv.staged_of_free {s : State} (h : s.lockInv) (hl : s.slock = .free) (b : BusId) :
    (s.bus b).seq.staged = false := by
  rw [← Bool.not_eq_true, (h b).1, hl]
  nofun

/-- A change of one bus that leaves the lock and the staged mark alone keeps the invariant if the new phase fits the mark. -/
theorem State.lockInv.of_bus {s t : State} (h : s.lockInv) (b : BusId) (hl : t.slock = s.slock)
    (hne : ∀ c, c ≠ b → t.bus c = s.bus c) (hs : (t.bus b).seq.staged = (s.bus b).seq.staged)
    (hp : (t.bus b).seq.stagedFits) : t.lockInv := fun c => by
  by_cases hc : c = b
  · subst hc
    exact ⟨by rw [hs, hl]; exact (h c).1, hp⟩
  · rw [hne c hc, hl]
    exact h c

/-- The same, for an update of the bus in place. -/
theorem State.lockInv.updBus {s : State} (h : s.lockInv) (b : BusId) (f : Bus → Bus)
    (hs : (f (s.bus b)).seq.staged = (s.bus b).seq.staged) (hp : (f (s.bus b)).seq.stagedFits) : (s.updBus b f).lockInv :=
  h.of_bus b rfl (fun c hc => by simp [hc]) (by simpa using hs) (by simpa using hp)

/-- A change of one bus that writes the lock keeps the invariant if no other sequencer had staged or holds the lock after. -/
theorem State.lockInv.of_lock {s t : State} (h : s.lockInv) (b : BusId) (hne : ∀ c, c ≠ b → t.bus c = s.bus c)
    (hoff : ∀ c, c ≠ b → (s.bus c).seq.staged = false ∧ t.slock ≠ .held c)
    (hb : ((t.bus b).seq.staged = true ↔ t.slock = .held b) ∧ (t.bus b).seq.stagedFits) : t.lockInv := fun c => by
  by_cases hc : c = b
  · subst hc
    exact hb
  · obtain ⟨hs, hl⟩ := hoff c hc
    rw [hne c hc]
    exact ⟨iff_of_false (by simp [hs]) hl, (h c).2⟩

/-- Taking the free lock marks the command as staged, and no other command is. -/
theorem State.lockInv.take {s : State} (h : s.lockInv) (b : BusId) (hl : s.slock = .free) :
    ((s.takeSLock b).toPhase b .stageCopy).lockInv := by
  refine h.of_lock b (fun c hc => ?_) (fun c hc => ⟨h.staged_of_free hl c, ?_⟩) ?_
  · simp [State.takeSLock, State.toPhase, hc]
  · simp [State.takeSLock, State.toPhase, Ne.symm hc]
  · simp [State.takeSLock, State.toPhase, Seq.stagedFits, Phase.beforeStaging]

/-- The holder's release unmarks its command, and no other command was staged. -/
theorem State.lockInv.drop {s : State} (h : s.lockInv) (b : BusId) (hb : (s.bus b).seq.staged = true) (r : Result) :
    ((s.dropSLock b).ret b r).lockInv := by
  refine h.of_lock b (fun c hc => ?_) (fun c hc => ⟨?_, nofun⟩) ?_
  · simp [State.dropSLock, State.ret, hc]
  · exact Bool.eq_false_iff.2 fun hs => hc (h.staged_unique hb hs)
  · simp [State.dropSLock, State.ret, Seq.stagedFits]

/-- A sequencer in a phase before the staging may go, unstaged as it is, to any phase but the two that ask for the mark. -/
theorem Seq.stagedFits.of_beforeStaging {q r : Seq} (h : q.stagedFits) (hq : q.phase.beforeStaging = true)
    (hs : r.staged = q.staged) (hc : r.phase ≠ .stageCopy) (hu : r.phase ≠ .unstage) : r.stagedFits :=
  ⟨fun _ => hs.trans (h.1 hq), fun hp => (hp.elim hc hu).elim⟩

/-- A phase in which a command may have staged or not fits every mark. -/
theorem Seq.stagedFits_of_past {q : Seq} (hb : q.phase.beforeStaging = false) (hc : q.phase ≠ .stageCopy)
    (hu : q.phase ≠ .unstage) : q.stagedFits :=
  ⟨fun hp => by simp [hb] at hp, fun hp => (hp.elim hc hu).elim⟩

/-- Step 5 of `FINISH` goes to `P_UNSTAGE` exactly with a staged command. -/
theorem Bus.finishClassify_stagedFits (x : Bus) :
    x.finishClassify.seq.staged = x.seq.staged ∧ x.finishClassify.seq.stagedFits := by
  unfold Bus.finishClassify
  split
  · rename_i hs
    exact ⟨rfl, nofun, fun _ => hs⟩
  · rename_i hs
    exact ⟨rfl, fun _ => Bool.eq_false_iff.2 hs, nofun⟩

/-- The start tasks leave the sequencer alone. -/
theorem startTx_seq {c : Config} {x y : Bus} (h : startTx c x = .ok y) : y.seq = x.seq := by
  rcases startTx_ok c x y h with ⟨-, rfl⟩ | ⟨-, -, -, rfl⟩ <;> rfl

theorem startRx_seq {x y : Bus} (h : startRx x = .ok y) : y.seq = x.seq := by
  rcases startRx_ok x y h with ⟨-, rfl⟩ | ⟨-, -, -, rfl⟩ <;> rfl

/-- Only `P_STAGE_LOCK` and `P_UNSTAGE` write the lock and the staged mark; every other move keeps them and fits its phase. -/
theorem ExecMove.staged_cases {i : Instr} {s t : State} (m : ExecMove i s t) (h : (s.bus i.bus).seq.stagedFits) :
    (s.slock = .free ∧ t = (s.takeSLock i.bus).toPhase i.bus .stageCopy) ∨
    ((s.bus i.bus).seq.phase = .unstage ∧ t = (s.dropSLock i.bus).ret i.bus (s.bus i.bus).seq.res) ∨
    (t.slock = s.slock ∧ (t.bus i.bus).seq.staged = (s.bus i.bus).seq.staged ∧ (t.bus i.bus).seq.stagedFits) := by
  have early : ∀ {q : Seq}, (s.bus i.bus).seq.phase.beforeStaging = true → q.staged = (s.bus i.bus).seq.staged →
      q.phase ≠ .stageCopy → q.phase ≠ .unstage → q.stagedFits := h.of_beforeStaging
  cases m
  case stageLock hp hl => exact .inl ⟨hl, rfl⟩
  case unstage hp => exact .inr (.inl ⟨hp, rfl⟩)
  all_goals refine .inr (.inr ⟨rfl, ?_⟩)
  case blocked => exact ⟨rfl, h⟩
  all_goals simp only [State.bus_updBus_self, State.bus_setBus_self, State.bus_mk, State.toPhase]
  case init hp | acquireNow hp _ | acquireWaits hp _ | acquireTakes hp _ | release hp _ | accept hp | unsupported hp _ =>
    exact ⟨rfl, early (by rw [hp]; rfl) rfl nofun nofun⟩
  case checked hp _ _ =>
    refine ⟨rfl, ?_⟩
    split <;> exact early (by rw [hp]; rfl) rfl nofun nofun
  case startTx hx => exact ⟨by simp [startTx_seq hx], Seq.stagedFits_of_past rfl nofun nofun⟩
  case startRx hx => exact ⟨by simp [startRx_seq hx], Seq.stagedFits_of_past rfl nofun nofun⟩
  case wake =>
    refine ⟨rfl, ?_⟩
    unfold Bus.wake
    split <;> exact Seq.stagedFits_of_past rfl nofun nofun
  case classify => exact Bus.finishClassify_stagedFits _
  case violated | stageCopy | programTx | programRx | programTxRx | unmask | polled | ackStopped =>
    exact ⟨rfl, Seq.stagedFits_of_past rfl nofun nofun⟩

/-- A meaning keeps the lock invariant. -/
theorem ExecMove.lockInv {i : Instr} {s t : State} (m : ExecMove i s t) (h : s.lockInv) : t.lockInv := by
  obtain ⟨-, hfit⟩ := h i.bus
  rcases m.staged_cases hfit with ⟨hl, rfl⟩ | ⟨hp, rfl⟩ | ⟨hl, hs, hf⟩
  · exact h.take i.bus hl
  · exact h.drop i.bus (hfit.2 (.inr hp)) _
  · exact h.of_bus i.bus hl m.bus_ne hs hf

/-- Presenting a command keeps the lock invariant: it latches a record and a caller, no more. -/
theorem State.lockInv.issue {s : State} (h : s.lockInv) (k : Nat) (c : Cmd96) (rest : List Cmd96) (i : Instr) :
    (s.issue k c rest i).lockInv :=
  State.lockInv.updBus (s := { s with requests := s.requests.set k rest }) h i.bus _ rfl (h i.bus).2

/-- A move of any agent keeps the lock invariant. -/
theorem AgentMove.lockInv {s t : State} (m : AgentMove s t) (h : s.lockInv) : t.lockInv := by
  cases m
  case stay => exact h
  case badBus k c rest i hk hr hd hb => exact h.issue k _ rest i
  case present k c rest i hk hr hd hb ha hm => exact hm.lockInv (h.issue k _ rest i)
  case busy k c rest i v hk hr hd hb hp =>
    exact (h.issue k _ rest i).updBus i.bus (fun x => x.toPhase .faulted) rfl (Seq.stagedFits_of_past rfl nofun nofun)
  case seq b i hb hf hl hi hm => exact hm.lockInv h
  case wire b hb he hm =>
    obtain ⟨-, -, hl, -⟩ := hm.globals
    obtain ⟨x, hx⟩ := hm.bus_frame
    exact h.of_bus b hl hm.bus_ne (by rw [hx]) (by rw [hx]; exact (h b).2)
  case isr b hb => exact h.updBus b _ rfl (h b).2
  case otherConfigure b scl sda freq hb => exact h.updBus b _ rfl (h b).2
  case store k a v hk ha => exact h

end Sys2Proof.Machine

open Sys2Proof Sys2Proof.Machine

/-- Settles O47: a step is one agent's move, and only the moves of `P_STAGE_LOCK` and `P_UNSTAGE` write the lock, with the
mark. -/
theorem stepKeepsLockInvariant : Obligations.StepKeepsLockInvariant := fun s t h hstep =>
  (step_move s t hstep).lockInv h
end

section
/-! PROOF. What no command changes: its moves write neither memory nor the inputs of the world outside, and none but `INIT`
writes the wire log, the interrupt path, the last-byte events, the held bus or the external calls (10 R38, R39; 00 R5). -/

namespace Sys2Proof.Machine

/-- From `x` to `y` the slave's answers are as they were, and the requesters stay blocked or are unblocked by a return. -/
structure Bus.inputsKept (x y : Bus) : Prop where
  acks    : y.acks = x.acks
  rxData  : y.rxData = x.rxData
  callers : y.callers = x.callers ∨ (y.callers = [] ∧ y.seq.phase = .idle)

/-- From `x` to `y` the wire log, the interrupt path, the last-byte events and the held bus are as they were. -/
structure Bus.signalsKept (x y : Bus) : Prop where
  wlog   : y.wlog = x.wlog
  irqEn  : y.irqEn = x.irqEn
  lastTx : y.ev.lastTx = x.ev.lastTx
  lastRx : y.ev.lastRx = x.ev.lastRx
  held   : y.wire.held = x.wire.held

/-- `P_START` writes `TXAMT`, and of the wire record the phase and the index. -/
theorem startTx_kept {c : Config} {x y : Bus} (h : startTx c x = .ok y) (p : Phase) :
    x.inputsKept (y.toPhase p) ∧ x.signalsKept (y.toPhase p) := by
  rcases startTx_ok c x y h with ⟨-, rfl⟩ | ⟨-, -, -, rfl⟩ <;> exact ⟨⟨rfl, rfl, .inl rfl⟩, ⟨rfl, rfl, rfl, rfl, rfl⟩⟩

theorem startRx_kept {x y : Bus} (h : startRx x = .ok y) (p : Phase) :
    x.inputsKept (y.toPhase p) ∧ x.signalsKept (y.toPhase p) := by
  rcases startRx_ok x y h with ⟨-, rfl⟩ | ⟨-, -, -, rfl⟩ <;> exact ⟨⟨rfl, rfl, .inl rfl⟩, ⟨rfl, rfl, rfl, rfl, rfl⟩⟩

/-- Step 5 of `FINISH` clears the error and its source, and returns unless the command has staged. -/
theorem Bus.finishClassify_kept (x : Bus) : x.inputsKept x.finishClassify ∧ x.signalsKept x.finishClassify := by
  unfold Bus.finishClassify
  split
  · exact ⟨⟨rfl, rfl, .inl rfl⟩, ⟨rfl, rfl, rfl, rfl, rfl⟩⟩
  · exact ⟨⟨rfl, rfl, .inr ⟨rfl, rfl⟩⟩, ⟨rfl, rfl, rfl, rfl, rfl⟩⟩

/-- A meaning keeps the inputs of its own bus; it keeps the signals and the external calls too, unless it is `INIT` on a bus
before its initialisation. -/
theorem ExecMove.kept_cases {i : Instr} {s t : State} (m : ExecMove i s t) :
    (i.opcode = 0 ∧ (s.bus i.bus).seq.phase = .uninit ∧ (s.bus i.bus).inputsKept (t.bus i.bus)) ∨
    (t.extCalls = s.extCalls ∧ (s.bus i.bus).inputsKept (t.bus i.bus) ∧ (s.bus i.bus).signalsKept (t.bus i.bus)) := by
  cases m
  case init ho hp => exact .inl ⟨ho, hp, by simpa using ⟨rfl, rfl, .inr ⟨rfl, rfl⟩⟩⟩
  all_goals refine .inr ⟨rfl, ?_⟩
  case blocked => exact ⟨⟨rfl, rfl, .inl rfl⟩, ⟨rfl, rfl, rfl, rfl, rfl⟩⟩
  all_goals
    simp only [State.bus_updBus_self, State.bus_setBus_self, State.bus_mk, State.toPhase, State.takeSLock, State.dropSLock,
      State.ret]
  case startTx hx => exact startTx_kept hx _
  case startRx hx => exact startRx_kept hx _
  case classify => exact Bus.finishClassify_kept _
  case acquireNow | acquireTakes | release | unsupported | unstage =>
    exact ⟨⟨rfl, rfl, .inr ⟨rfl, rfl⟩⟩, ⟨rfl, rfl, rfl, rfl, rfl⟩⟩
  case violated | acquireWaits | accept | checked | stageLock | stageCopy | programTx | programRx | programTxRx | unmask | wake |
      polled | ackStopped =>
    exact ⟨⟨rfl, rfl, .inl rfl⟩, ⟨rfl, rfl, rfl, rfl, rfl⟩⟩

end Sys2Proof.Machine

open Sys2Proof Sys2Proof.Machine

/-- Settles O38: the violation of a bus that does not exist writes the latch alone, and every other answer is a move of the
meaning. -/
theorem commandFrame : Obligations.CommandFrame := by
  intro i s t h
  rcases exec_move i s t h with ⟨-, rfl⟩ | ⟨-, m⟩
  · simp
  · obtain ⟨hmem, hreq, hsched, hdraws⟩ := m.globals
    obtain ⟨hacks, hrx, hcallers⟩ := m.kept_cases.elim (fun h => h.2.2) fun h => h.2.1
    have other : i.opcode ≠ 0 → t.extCalls = s.extCalls ∧ _ ∧ (s.bus i.bus).signalsKept (t.bus i.bus) := fun h0 =>
      m.kept_cases.resolve_left fun h => h0 h.1
    refine ⟨m.cfg, fun a => by rw [hmem], hreq, hsched, hdraws, m.bus_ne, fun h0 => (other h0).1, hacks, hrx, hcallers,
      fun h0 => ?_⟩
    obtain ⟨-, -, hlog, hirq, htx, hlrx, hheld⟩ := other h0
    exact ⟨hlog, hirq, htx, hlrx, hheld⟩
end

section
/-! PROOF. The frame of a turn of one bus, put together from its fields; and what the wire engine does to the log and to memory
(10 R38, R24, R36; 43 R157, R165). -/

namespace Sys2Proof.Machine

/-- States that agree on every bus but `b` differ there alone. -/
theorem State.buses_eq_setBus {s t : State} {b : BusId} (h : ∀ c, c ≠ b → t.bus c = s.bus c) :
    t.buses = (s.setBus b (t.bus b)).buses := by
  refine Vector.ext fun k hk => ?_
  have e : t.bus ⟨k, hk⟩ = (s.setBus b (t.bus b)).bus ⟨k, hk⟩ := by
    by_cases hc : (⟨k, hk⟩ : BusId) = b
    · rw [hc, State.bus_setBus_self]
    · rw [h _ hc, State.bus_setBus_ne _ _ _ _ hc]
  exact e

/-- From `s` to `t` the buses other than `b`, the configuration, the inputs and the external calls are as they were. -/
structure State.othersKept (s t : State) (b : BusId) : Prop where
  bus_ne   : ∀ c, c ≠ b → t.bus c = s.bus c
  cfg      : t.cfg = s.cfg
  requests : t.requests = s.requests
  sched    : t.sched = s.sched
  extCalls : t.extCalls = s.extCalls

theorem State.othersKept.refl (s : State) (b : BusId) : s.othersKept s b := ⟨fun _ _ => rfl, rfl, rfl, rfl, rfl⟩

/-- What is left to write: bus `b`, the staging buffer, its lock, memory, the fault latch and the count of free values. -/
theorem State.othersKept.eq_setBus {s t : State} {b : BusId} (h : s.othersKept t b) :
    t = { s.setBus b (t.bus b) with
      staging := t.staging, slock := t.slock, mem := t.mem, fault := t.fault, draws := t.draws } := by
  calc t
    _ = ⟨t.cfg, t.buses, t.staging, t.slock, t.mem, t.fault, t.requests, t.sched, t.extCalls, t.draws⟩ := rfl
    _ = _ := by rw [State.buses_eq_setBus h.bus_ne, h.cfg, h.requests, h.sched, h.extCalls]; rfl

/-- Every move of the wire engine appends to the log. -/
theorem WireMove.wlog_prefix {s t : State} {b : BusId} (m : WireMove s b t) : (s.bus b).wlog <+: (t.bus b).wlog := by
  cases m
  case addressAck => simp [Bus.addressed]
  case addressNack rest stop d hp ha => cases stop <;> simp [Bus.nacked, Bus.addressed]
  case byteAck => simp
  case byteNack v rest i stop amt d hp ha hv ht => cases stop <;> simp [Bus.nacked]
  case lastBegins => simp
  case lastAck v rest y hp h0 ha hv hy =>
    rcases Bus.afterTransmit_ok _ _ hy with ⟨-, -, -, rfl⟩ | ⟨-, -, rfl⟩ | ⟨-, -, rfl⟩ <;> simp
  case received => simp [State.storeReceived]
  case receivedLast => simp [State.storeReceived]

/-- A receive stores one byte, at `RXPTR + i`; every other move of the wire engine leaves memory alone (43 R157). -/
theorem WireMove.mem_cases {s t : State} {b : BusId} (m : WireMove s b t) :
    ((s.bus b).wire.phase = .rx ∧
      ∃ v, t.mem = Memory.write s.mem (Config.byteAddr s.cfg (s.bus b).rxPtr (s.bus b).wire.idx) v) ∨
    ((s.bus b).wire.phase ≠ .rx ∧ t.mem = s.mem) := by
  cases m
  case received v rest hp hi hd => exact .inl ⟨hp, v, rfl⟩
  case receivedLast v rest hp hi hd hl => exact .inl ⟨hp, v, rfl⟩
  case addressAck rest hp ha => exact .inr ⟨by rcases hp with hp | hp <;> simp [hp], rfl⟩
  case addressNack rest stop d hp ha => exact .inr ⟨by rcases hp with hp | hp <;> simp [hp], rfl⟩
  case byteNack v rest i stop amt d hp ha hv ht => exact .inr ⟨by rcases hp with ⟨hp, -⟩ | ⟨hp, -⟩ <;> simp [hp], rfl⟩
  case byteAck hp _ _ _ => exact .inr ⟨by simp [hp], rfl⟩
  case lastBegins hp _ => exact .inr ⟨by simp [hp], rfl⟩
  case lastAck hp _ _ _ _ => exact .inr ⟨by simp [hp], rfl⟩

/-- A move of the wire engine writes nothing of another bus, of the inputs or of the external calls. -/
theorem WireMove.othersKept {s t : State} {b : BusId} (m : WireMove s b t) : s.othersKept t b := by
  obtain ⟨hcfg, -, -, -, hreq, hsched, hext⟩ := m.globals
  exact ⟨m.bus_ne, hcfg, hreq, hsched, hext⟩

/-- A move of the wire engine writes its own bus, memory and the count of free values. -/
theorem WireMove.eq_setBus {s t : State} {b : BusId} (m : WireMove s b t) :
    t = { s.setBus b (t.bus b) with mem := t.mem, draws := t.draws } := by
  obtain ⟨-, hstaging, hslock, hfault, -⟩ := m.globals
  have e := m.othersKept.eq_setBus
  rwa [hstaging, hslock, hfault] at e

end Sys2Proof.Machine

open Sys2Proof Sys2Proof.Machine

/-- Settles O40: a turn of the wire engine changes nothing or is one of its moves, and only a receive stores a byte. -/
theorem wireFrame : Obligations.WireFrame := by
  intro s t b _ h
  rcases wireStep_move b s t h with rfl | ⟨-, -, m⟩
  · exact ⟨(State.setBus_bus _ b).symm, List.prefix_rfl, fun _ _ _ => rfl, fun _ => rfl⟩
  obtain ⟨x, hx⟩ := m.bus_frame
  refine ⟨?frame, m.wlog_prefix, fun a hp ha => ?byte, fun hp => ?other⟩
  case frame =>
    have e := m.eq_setBus
    rw [hx] at e ⊢
    exact e
  case byte =>
    obtain ⟨-, v, hm⟩ := m.mem_cases.resolve_right fun h => h.1 hp
    rw [hm]
    exact Memory.read_write_ne _ _ _ v ha
  case other => exact (m.mem_cases.resolve_left fun h => hp h.1).2
end

section
/-! PROOF. Who writes the staging buffer and who writes memory: what each turn can do to either, said once (10 R30, R36, R38). -/

namespace Sys2Proof.Machine

/-- The meaning of a command leaves memory alone. -/
theorem exec_mem {i : Instr} {s t : State} (h : exec i s = .next t) : t.mem = s.mem := by
  rcases exec_move i s t h with ⟨-, rfl⟩ | ⟨-, m⟩
  · rfl
  · exact m.globals.1

/-- The meaning of a command writes the staging buffer in `P_STAGE_COPY` alone, which it leaves for `P_PROGRAM`. -/
theorem exec_staging_cases {i : Instr} {s t : State} (h : exec i s = .next t) :
    t.staging = s.staging ∨
    (s.hasBus i.bus = true ∧ i.opcode ≠ 0 ∧ (s.bus i.bus).seq.phase = .stageCopy ∧ (t.bus i.bus).seq.phase = .program) := by
  rcases exec_move i s t h with ⟨-, rfl⟩ | ⟨hb, m⟩
  · exact .inl rfl
  · cases m
    case stageCopy frame ho hp hl => exact .inr ⟨hb, by rcases ho with ho | ho <;> simp [ho], hp, by simp⟩
    all_goals exact .inl rfl

/-- A violation writes neither memory nor the staging buffer. -/
theorem State.raise_frame (s : State) (c : ContractCheck) (b : BusId) :
    (s.raise c b).mem = s.mem ∧ (s.raise c b).staging = s.staging := by
  unfold State.raise
  split <;> exact ⟨rfl, rfl⟩

/-- A command that is presented runs no copy: its sequencer is not in `P_STAGE_COPY`. -/
theorem present_frame {i : Instr} {s t : State} (h : present i s = .next t) : t.mem = s.mem ∧ t.staging = s.staging := by
  unfold present at h
  split at h
  · rename_i ha
    refine ⟨exec_mem h, (exec_staging_cases h).resolve_right ?_⟩
    rintro ⟨hb, h0, hp, -⟩
    rcases (s.answers_eq_true_iff i).1 ha with hn | hn | hn | hn <;> simp_all
  · cases h
    exact s.raise_frame _ _

/-- A requester's turn changes nothing or is the presentation of a command. -/
theorem requesterStep_next {k : Nat} {s t : State} (h : requesterStep k s = .next t) :
    t = s ∨ ∃ c rest i, present i (s.issue k c rest i) = .next t := by
  unfold requesterStep at h
  split at h
  · cases h; exact .inl rfl
  · split at h
    · cases h; exact .inl rfl
    · cases h; exact .inl rfl
    · split at h
      · cases h
      · exact .inr ⟨_, _, _, h⟩

/-- A requester's presentation writes neither memory nor the staging buffer. -/
theorem requesterStep_frame {k : Nat} {s t : State} (h : requesterStep k s = .next t) :
    t.mem = s.mem ∧ t.staging = s.staging := by
  rcases requesterStep_next h with rfl | ⟨c, rest, i, h⟩
  · exact ⟨rfl, rfl⟩
  · obtain ⟨hmem, hstaging⟩ := present_frame h
    exact ⟨hmem, hstaging⟩

/-- A sequencer's turn changes nothing or is a step of the meaning of a command in flight on its bus. -/
theorem seqStep_next {b : BusId} {s t : State} (h : seqStep b s = .next t) :
    t = s ∨ ∃ i, i.bus = b ∧ (s.bus b).seq.phase.inFlight = true ∧ exec i s = .next t := by
  unfold seqStep at h
  split at h
  · rename_i hb
    split at h
    · cases h
    · exact .inr ⟨_, s.latched_bus b _ ‹_›, (Bool.and_eq_true_iff.1 hb).2, h⟩
  · cases h; exact .inl rfl

/-- A handler's turn changes nothing or runs the handler on its bus. -/
theorem isrStep_next {b : BusId} {s t : State} (h : isrStep b s = .next t) : t = s ∨ t = s.updBus b Bus.handler := by
  unfold isrStep at h
  split at h <;> cases h
  · exact .inr rfl
  · exact .inl rfl

/-- A turn of the other role changes nothing or writes the three registers of its bus. -/
theorem otherConfigure_next {b : BusId} {scl sda freq : Nat} {s t : State} (h : otherConfigure b scl sda freq s = .next t) :
    t = s ∨ t = s.updBus b (fun x => { x with pselScl := scl, pselSda := sda, freq := freq }) := by
  unfold otherConfigure at h
  split at h <;> cases h
  · exact .inr rfl
  · exact .inl rfl

/-- A requester's store changes nothing or writes the byte it names. -/
theorem requesterStore_next {k a : Nat} {v : Byte} {s t : State} (h : requesterStore k a v s = .next t) :
    t = s ∨ t = { s with mem := Memory.write s.mem a v } := by
  unfold requesterStore at h
  split at h
  · cases h; exact .inl rfl
  · split at h <;> cases h
    exact .inr rfl

/-- Only a sequencer in `P_STAGE_COPY` writes the staging buffer, in a turn that ends in `P_PROGRAM`. -/
theorem takeTurn_staging_cases {k : Turn} {s t : State} (h : takeTurn k s = .next t) :
    t.staging = s.staging ∨
    ∃ b, k = .seq b ∧ (s.bus b).seq.phase = .stageCopy ∧ (t.bus b).seq.phase = .program := by
  cases k with
  | requester k => exact .inl (requesterStep_frame h).2
  | seq b =>
    rcases seqStep_next h with rfl | ⟨i, rfl, -, h⟩
    · exact .inl rfl
    · exact (exec_staging_cases h).imp_right fun ⟨_, _, hp, hq⟩ => ⟨_, rfl, hp, hq⟩
  | wire b =>
    rcases wireStep_move b s t h with rfl | ⟨-, -, m⟩
    · exact .inl rfl
    · obtain ⟨-, hstaging, -⟩ := m.globals
      exact .inl hstaging
  | isr b => rcases isrStep_next h with rfl | rfl <;> exact .inl rfl
  | otherConfigure b scl sda freq => rcases otherConfigure_next h with rfl | rfl <;> exact .inl rfl
  | otherPinLock b l => cases h
  | store k a v => rcases requesterStore_next h with rfl | rfl <;> exact .inl rfl

/-- Only a receiving wire engine, at `RXPTR + i`, and a requester's store, at the byte it names, write memory. -/
theorem takeTurn_mem_cases {k : Turn} {s t : State} (h : takeTurn k s = .next t) :
    t.mem = s.mem ∨
    ∃ a v, t.mem = Memory.write s.mem a v ∧
      ((∃ b, k = .wire b ∧ (s.bus b).wire.phase = .rx ∧ a = Config.byteAddr s.cfg (s.bus b).rxPtr (s.bus b).wire.idx) ∨
        ∃ j, k = .store j a v) := by
  cases k with
  | requester k => exact .inl (requesterStep_frame h).1
  | seq b =>
    rcases seqStep_next h with rfl | ⟨i, rfl, -, h⟩
    · exact .inl rfl
    · exact .inl (exec_mem h)
  | wire b =>
    rcases wireStep_move b s t h with rfl | ⟨-, -, m⟩
    · exact .inl rfl
    · rcases m.mem_cases with ⟨hp, v, hm⟩ | ⟨-, hm⟩
      · exact .inr ⟨_, v, hm, .inl ⟨b, rfl, hp, rfl⟩⟩
      · exact .inl hm
  | isr b => rcases isrStep_next h with rfl | rfl <;> exact .inl rfl
  | otherConfigure b scl sda freq => rcases otherConfigure_next h with rfl | rfl <;> exact .inl rfl
  | otherPinLock b l => cases h
  | store k a v =>
    rcases requesterStore_next h with rfl | rfl
    · exact .inl rfl
    · exact .inr ⟨a, v, rfl, .inr ⟨k, rfl⟩⟩

end Sys2Proof.Machine

open Sys2Proof Sys2Proof.Machine

/-- Settles O42: only a sequencer in `P_STAGE_COPY` writes the buffer, and there the lock invariant makes it the holder. -/
theorem stagingWrittenByHolderOnly : Obligations.StagingWrittenByHolderOnly := by
  intro s t hinv h hne
  rcases step_turn s t h with rfl | ⟨k, hk, h⟩
  · exact absurd rfl hne
  · obtain ⟨b, rfl, hp, hq⟩ := (takeTurn_staging_cases h).resolve_left hne
    obtain ⟨hheld, -, hstaged⟩ := hinv b
    exact ⟨b, hk, hheld.1 (hstaged (.inl hp)), hp, hq⟩

/-- Settles O43: a turn leaves memory alone or writes one byte, and a write leaves every other byte alone. -/
theorem memoryWrittenByteAtATime : Obligations.MemoryWrittenByteAtATime := by
  refine ⟨fun s t _ h => ?step, fun s k a v hk => ⟨fun ha hm => ?store, fun ha => ?outside⟩⟩
  case step =>
    rcases step_turn s t h with rfl | ⟨k, hk, h⟩
    · exact ⟨0, fun x hx => absurd rfl hx⟩
    · rcases takeTurn_mem_cases h with hm | ⟨a, v, hm, hturn⟩
      · exact ⟨0, fun x hx => absurd (by rw [hm]) hx⟩
      · refine ⟨a, fun x hx => ⟨?_, ?_⟩⟩
        · by_contra hxa
          exact hx (by rw [hm]; exact Memory.read_write_ne _ _ _ v hxa)
        · rcases hturn with ⟨b, rfl, hp, ha⟩ | ⟨j, rfl⟩
          · exact .inl ⟨b, hk, hp, ha⟩
          · exact .inr ⟨j, v, hk⟩
  case store =>
    exact ⟨Memory.write s.mem a v, by simp [takeTurn, requesterStore, hk, ha], Memory.read_write_self _ _ _ hm,
      fun x hx => Memory.read_write_ne _ _ _ v hx⟩
  case outside => simp [takeTurn, requesterStore, hk, ha]
end

section
/-! PROOF. The state of another bus is neither read nor written (10 R39): every operation of the sequencer, the wire engine and
the handler of bus `b` commutes with replacing the state of a bus `c ≠ b`, first the updates of the state, then the steps. -/

namespace Sys2Proof.Machine

@[simp] theorem mapNext_next (f : State → State) (s : State) : mapNext f (.next s) = .next (f s) := rfl
@[simp] theorem mapNext_fault (f : State → State) (r : Fault) : mapNext f (.fault r) = .fault r := rfl
@[simp] theorem mapNext_refused (f : State → State) (r : Refusal) : mapNext f (.refused r) = .refused r := rfl

section
variable {b c : BusId} (hc : c ≠ b) (s : State) (x : Bus)
include hc

/-! ## The updates of the state -/

theorem State.updBus_setBus (f : Bus → Bus) : (s.setBus c x).updBus b f = (s.updBus b f).setBus c x := by
  simp [State.updBus, Ne.symm hc, State.setBus_comm s c b x _ hc]

theorem State.toPhase_setBus (p : Phase) : (s.setBus c x).toPhase b p = (s.toPhase b p).setBus c x :=
  State.updBus_setBus hc s x _

theorem State.ret_setBus (r : Result) : (s.setBus c x).ret b r = (s.ret b r).setBus c x :=
  State.updBus_setBus hc s x _

theorem State.raise_setBus (v : ContractCheck) : (s.setBus c x).raise v b = (s.raise v b).setBus c x := by
  unfold State.raise
  by_cases hb : s.hasBus b = true
  · simpa [hb] using State.toPhase_setBus hc { s with fault := some ⟨v, b⟩ } x .faulted
  · simp [hb]

theorem State.takeSLock_setBus : (s.setBus c x).takeSLock b = (s.takeSLock b).setBus c x := by
  simp [State.takeSLock, State.updBus_setBus hc]

theorem State.dropSLock_setBus : (s.setBus c x).dropSLock b = (s.dropSLock b).setBus c x := by
  simp [State.dropSLock, State.updBus_setBus hc]

theorem State.txByte_setBus (i : Nat) : (s.setBus c x).txByte b i = s.txByte b i := by
  simp [State.txByte, Ne.symm hc, State.stagingByte]

theorem State.nack_setBus (k : NackKind) : (s.setBus c x).nack b k = (s.nack b k).setBus c x := by
  cases hn : s.cfg.nackStop
  case stop => simp [State.nack, hn, State.updBus_setBus hc]
  case hold => simp [State.nack, hn, State.updBus_setBus hc]
  case either => simp [State.nack, hn, State.updBus_setBus hc] <;> rfl

theorem State.dataNack_setBus (i : Nat) : (s.setBus c x).dataNack b i = (s.dataNack b i).setBus c x := by
  let amt : Byte := BitVec.ofNat 8 (if Config.freeBit s.draws then i else i + 1)
  let f : Bus → Bus := fun y => { y with txAmt := amt }
  calc (s.setBus c x).dataNack b i
    _ = State.nack { (s.setBus c x).updBus b f with draws := s.draws + 1 } b .dnack := rfl
    _ = (State.setBus { s.updBus b f with draws := s.draws + 1 } c x).nack b .dnack := by
      rw [State.updBus_setBus hc]; rfl
    _ = (s.dataNack b i).setBus c x := State.nack_setBus hc _ x .dnack

theorem State.storeReceived_setBus (d : Byte) (rest : List Byte) :
    (s.setBus c x).storeReceived b d rest = (s.storeReceived b d rest).setBus c x := by
  simp [State.storeReceived, Ne.symm hc, State.setBus_comm s c b x _ hc]

/-! ## The steps of the sequencer -/

/-- A step that updates the bus in place. -/
theorem next_updBus_setBus (f : Bus → Bus) :
    (.next ((s.setBus c x).updBus b f) : Res) = mapNext (fun t => t.setBus c x) (.next (s.updBus b f)) := by
  rw [State.updBus_setBus hc, mapNext_next]

theorem unstageStep_setBus : unstageStep b (s.setBus c x) = mapNext (fun t => t.setBus c x) (unstageStep b s) := by
  simp [unstageStep, State.dropSLock_setBus hc, State.ret_setBus hc, Ne.symm hc]

theorem finishStep_setBus : finishStep b (s.setBus c x) = mapNext (fun t => t.setBus c x) (finishStep b s) := by
  simp only [finishStep, State.bus_setBus_ne _ _ _ _ (Ne.symm hc)]
  cases (s.bus b).seq.phase
  case unmask => exact next_updBus_setBus hc s x _
  case ack => exact next_updBus_setBus hc s x _
  case classify => exact next_updBus_setBus hc s x _
  case wait => by_cases hw : (s.bus b).waitDone = true <;> simp [hw, State.updBus_setBus hc]
  case poll => by_cases hd : (s.bus b).pollDone = true <;> simp [hd, State.toPhase_setBus hc]
  all_goals rfl

theorem stageLockStep_setBus : stageLockStep b (s.setBus c x) = mapNext (fun t => t.setBus c x) (stageLockStep b s) := by
  unfold stageLockStep
  cases hl : s.slock <;> simp [hl, State.takeSLock_setBus hc, State.toPhase_setBus hc]

theorem stageCopyStep_setBus (frame : List Byte) :
    stageCopyStep b frame (s.setBus c x) = mapNext (fun t => t.setBus c x) (stageCopyStep b frame s) := by
  unfold stageCopyStep State.fillStaging
  by_cases hl : frame.length ≤ Config.stagingCap
  · simpa [hl] using State.toPhase_setBus hc { s with staging := frame ++ s.staging.drop frame.length } x .program
  · simp [hl]

theorem startStep_setBus (r : Except Refusal Bus) :
    startStep b r (s.setBus c x) = mapNext (fun t => t.setBus c x) (startStep b r s) := by
  cases r with
  | ok y => simp [startStep, State.setBus_comm s c b x _ hc]
  | error e => rfl

/-! ## The handler and the wire engine -/

theorem isrStep_setBus : isrStep b (s.setBus c x) = mapNext (fun t => t.setBus c x) (isrStep b s) := by
  unfold isrStep State.isrEnabled
  simp only [State.bus_setBus_ne _ _ _ _ (Ne.symm hc), State.setBus_hasBus]
  split
  · exact next_updBus_setBus hc s x _
  · rfl

theorem addressStep_setBus : addressStep b (s.setBus c x) = mapNext (fun t => t.setBus c x) (addressStep b s) := by
  simp only [addressStep, State.bus_setBus_ne _ _ _ _ (Ne.symm hc)]
  cases (s.bus b).acks with
  | nil => rfl
  | cons a rest => cases a <;> simp [State.setBus_comm s c b x _ hc, State.nack_setBus hc]

theorem txByteStep_setBus : txByteStep b (s.setBus c x) = mapNext (fun t => t.setBus c x) (txByteStep b s) := by
  simp only [txByteStep, State.bus_setBus_ne _ _ _ _ (Ne.symm hc), State.txByte_setBus hc]
  cases (s.bus b).acks with
  | nil => rfl
  | cons a rest =>
    cases s.txByte b (s.bus b).wire.idx with
    | error e => rfl
    | ok d => cases a <;> simp [State.setBus_comm s c b x _ hc, State.dataNack_setBus hc]

theorem lastEnds_setBus : lastEnds b (s.setBus c x) = mapNext (fun t => t.setBus c x) (lastEnds b s) := by
  simp only [lastEnds, State.bus_setBus_ne _ _ _ _ (Ne.symm hc), State.txByte_setBus hc]
  cases (s.bus b).acks with
  | nil => rfl
  | cons a rest =>
    by_cases h0 : (s.bus b).txCnt = 0
    · simp [h0]
    · simp only [h0, if_false]
      cases s.txByte b ((s.bus b).txCnt.toNat - 1) with
      | error e => rfl
      | ok d =>
        cases a with
        | nack => simp [State.setBus_comm s c b x _ hc, State.dataNack_setBus hc]
        | ack =>
          dsimp only
          cases Bus.afterTransmit { (s.bus b).sendByte d .ack rest with txAmt := (s.bus b).txCnt } with
          | ok y => simp [State.setBus_comm s c b x _ hc]
          | error e => rfl

theorem rxStep_setBus : rxStep b (s.setBus c x) = mapNext (fun t => t.setBus c x) (rxStep b s) := by
  simp only [rxStep, State.bus_setBus_ne _ _ _ _ (Ne.symm hc), State.storeReceived_setBus hc]
  cases (s.bus b).rxData with
  | nil => rfl
  | cons d rest =>
    by_cases hlt : (s.bus b).wire.idx + 1 < (s.bus b).rxCnt.toNat
    · simp [hlt]
    · by_cases heq : (s.bus b).wire.idx + 1 = (s.bus b).rxCnt.toNat
      · by_cases hs : (s.bus b).shorts.lrxStop = true <;> simp [heq, hs, State.updBus_setBus hc]
      · simp [hlt, heq]

theorem wireStep_setBus : wireStep b (s.setBus c x) = mapNext (fun t => t.setBus c x) (wireStep b s) := by
  simp only [wireStep, State.bus_setBus_ne _ _ _ _ (Ne.symm hc), State.setBus_hasBus]
  cases hon : s.hasBus b && (s.bus b).enable
  case false => rfl
  simp only [Bool.not_true, Bool.false_eq_true, if_false]
  cases (s.bus b).wire.phase
  case idle | held => rfl
  case txAddr | rxAddr => exact addressStep_setBus hc s x
  case txLast => exact lastEnds_setBus hc s x
  case rx => exact rxStep_setBus hc s x
  case tx =>
    dsimp only
    by_cases hlt : (s.bus b).wire.idx + 1 < (s.bus b).txCnt.toNat
    · simp only [if_pos hlt]
      exact txByteStep_setBus hc s x
    · by_cases heq : (s.bus b).wire.idx + 1 = (s.bus b).txCnt.toNat
      · simp only [if_neg hlt, if_pos heq]
        exact next_updBus_setBus hc s x _
      · simp only [if_neg hlt, if_neg heq, mapNext_refused]

end

section
variable {c : BusId} (i : Instr) (hc : c ≠ i.bus) (s : State) (x : Bus)
include hc

theorem busyStep_setBus : busyStep i (s.setBus c x) = mapNext (fun t => t.setBus c x) (busyStep i s) := by
  simp [busyStep, State.raise_setBus hc]

theorem acceptStep_setBus : acceptStep i (s.setBus c x) = mapNext (fun t => t.setBus c x) (acceptStep i s) :=
  next_updBus_setBus hc s x _

theorem checkStep_setBus (mask f : Byte) (stages : Bool) :
    checkStep i mask f stages (s.setBus c x) = mapNext (fun t => t.setBus c x) (checkStep i mask f stages s) := by
  simp only [checkStep, State.setBus_cfg]
  cases violation s.cfg i with
  | some v => simp [State.raise_setBus hc]
  | none =>
    by_cases hf : rejected mask f = true
    · simp [hf, State.ret_setBus hc]
    · simp [hf, State.toPhase_setBus hc]

/-- The entry check ignores another bus if the meaning does. -/
theorem entry_setBus {run run' : Res} (h : run' = mapNext (fun t => t.setBus c x) run) :
    entry i (s.setBus c x) run' = mapNext (fun t => t.setBus c x) (entry i s run) := by
  subst h
  simp only [entry, State.setBus_hasBus]
  cases i.reject? with
  | some e => rfl
  | none =>
    by_cases hb : s.hasBus i.bus = true
    · simp [hb]
    · simp [hb, State.raise_setBus hc]

end

/-- The meaning of a command ignores every other bus. -/
theorem exec_setBus {c : BusId} (i : Instr) (hc : c ≠ i.bus) (s : State) (x : Bus) :
    exec i (s.setBus c x) = mapNext (fun t => t.setBus c x) (exec i s) := by
  have hb := s.bus_setBus_ne c i.bus x (Ne.symm hc)
  cases i <;> refine entry_setBus _ hc s x ?_ <;> dsimp only [Instr.bus] at hb hc <;> rw [hb]
  case init b =>
    cases (s.bus b).seq.phase
    case uninit => simp [State.updBus_setBus hc]
    all_goals rfl
  case acquire b =>
    cases (s.bus b).seq.phase
    case uninit => exact busyStep_setBus (.acquire b) hc s x
    case idle => by_cases hs : (s.desc b).sharesPins = true <;> simp [hs, State.updBus_setBus hc]
    case pinLock => by_cases hl : (s.bus b).pinLock = .free <;> simp [hl, State.updBus_setBus hc]
    all_goals rfl
  case release b =>
    cases (s.bus b).seq.phase
    case uninit => exact busyStep_setBus (.release b) hc s x
    case idle => by_cases hh : (s.bus b).wire.held = true <;> simp [hh, State.updBus_setBus hc]
    all_goals rfl
  case write b _ _ _ _ | writeReg b _ _ _ _ _ =>
    cases (s.bus b).seq.phase
    case uninit => exact busyStep_setBus _ hc s x
    case idle => exact acceptStep_setBus _ hc s x
    case check => exact checkStep_setBus _ hc s x _ _ _
    case stageLock => exact stageLockStep_setBus hc s x
    case stageCopy => exact stageCopyStep_setBus hc s x _
    case program => exact next_updBus_setBus hc s x _
    case start => exact startStep_setBus hc s x _
    case unstage => exact unstageStep_setBus hc s x
    all_goals exact finishStep_setBus hc s x
  case read b _ _ _ _ | readReg b _ _ _ _ _ =>
    cases (s.bus b).seq.phase
    case uninit => exact busyStep_setBus _ hc s x
    case idle => exact acceptStep_setBus _ hc s x
    case check => exact checkStep_setBus _ hc s x _ _ _
    case program => exact next_updBus_setBus hc s x _
    case start => exact startStep_setBus hc s x _
    all_goals exact finishStep_setBus hc s x

/-- A sequencer's turn ignores every other bus: the command it latched is one of its own bus. -/
theorem seqStep_setBus {b c : BusId} (hc : c ≠ b) (s : State) (x : Bus) :
    seqStep b (s.setBus c x) = mapNext (fun t => t.setBus c x) (seqStep b s) := by
  have hlatched : (s.setBus c x).latched b = s.latched b := by simp [State.latched, Ne.symm hc]
  simp only [seqStep, State.bus_setBus_ne _ _ _ _ (Ne.symm hc), State.setBus_hasBus, hlatched]
  by_cases hf : (s.hasBus b && (s.bus b).seq.phase.inFlight) = true
  · simp only [hf, if_true]
    cases hl : s.latched b with
    | error e => rfl
    | ok i => exact exec_setBus i (by rwa [s.latched_bus b i hl]) s x
  · simp [hf]

/-! ## What such a turn writes -/

/-- A command in flight makes no external call: only `INIT` does, before the initialisation. -/
theorem ExecMove.extCalls {i : Instr} {s t : State} (m : ExecMove i s t) (h : (s.bus i.bus).seq.phase.inFlight = true) :
    t.extCalls = s.extCalls := by
  rcases m.kept_cases with ⟨-, hp, -⟩ | ⟨he, -⟩
  · simp [hp, Phase.inFlight] at h
  · exact he

theorem seqStep_othersKept {b : BusId} {s t : State} (h : seqStep b s = .next t) : s.othersKept t b := by
  rcases seqStep_next h with rfl | ⟨i, rfl, hf, h⟩
  · exact .refl t b
  · rcases exec_move i s t h with ⟨-, rfl⟩ | ⟨-, m⟩
    · exact ⟨fun _ _ => rfl, rfl, rfl, rfl, rfl⟩
    · obtain ⟨-, hr, hs, -⟩ := m.globals
      exact ⟨m.bus_ne, m.cfg, hr, hs, m.extCalls hf⟩

theorem wireStep_othersKept {b : BusId} {s t : State} (h : wireStep b s = .next t) : s.othersKept t b := by
  rcases wireStep_move b s t h with rfl | ⟨-, -, m⟩
  · exact .refl t b
  · exact m.othersKept

theorem isrStep_othersKept {b : BusId} {s t : State} (h : isrStep b s = .next t) : s.othersKept t b := by
  rcases isrStep_next h with rfl | rfl
  · exact .refl t b
  · exact ⟨fun c hc => by simp [hc], rfl, rfl, rfl, rfl⟩

end Sys2Proof.Machine

open Sys2Proof Sys2Proof.Machine

/-- Settles O41, agent by agent: what each reads and writes is its own bus and the shared parts named. -/
theorem busesIndependent : Obligations.BusesIndependent := by
  intro s b k hk
  refine ⟨fun c x hc => ?reads, fun t h => ?writes⟩
  case reads =>
    rcases hk with rfl | rfl | rfl
    · exact seqStep_setBus hc s x
    · exact wireStep_setBus hc s x
    · exact isrStep_setBus hc s x
  case writes =>
    have hkept : s.othersKept t b := by
      rcases hk with rfl | rfl | rfl
      · exact seqStep_othersKept h
      · exact wireStep_othersKept h
      · exact isrStep_othersKept h
    exact hkept.eq_setBus
end

section
/-! PROOF. Memory, the staging buffer and the pointers stay in bounds: a byte is stored inside the address space, a copy keeps
the buffer's length, and a pointer comes from the command interface, which carries `ADDR_W` bits (10 R11, R18, R20, R30, R36;
20 R50). -/

namespace Sys2Proof

/-- Latching an operation leaves the latch's pointer or takes the operation's. -/
theorem Instr.over_ptr (i : Instr) (c : Cmd) : (i.over c).ptr = c.ptr ∨ (i.over c).ptr = i.ptr := by
  cases i
  case init | acquire | release => exact .inl rfl
  case write | writeReg | read | readReg => exact .inr rfl

/-- `INIT` names no buffer. -/
theorem Instr.ptr_of_opcode_zero {i : Instr} (h : i.opcode = 0) : i.ptr = 0 := by
  cases i
  case init | acquire | release => rfl
  case write | writeReg | read | readReg => simp [Instr.opcode] at h

end Sys2Proof

namespace Sys2Proof.Machine

/-! ## Memory and the staging buffer -/

/-- An agent leaves memory alone or writes one byte of the address space. -/
theorem AgentMove.mem_cases {s t : State} (m : AgentMove s t) :
    t.mem = s.mem ∨ ∃ a v, a < 2 ^ s.cfg.addrW ∧ t.mem = Memory.write s.mem a v := by
  cases m
  case present hm => exact .inl hm.globals.1
  case seq hm => exact .inl hm.globals.1
  case wire hm =>
    rcases hm.mem_cases with ⟨-, v, hv⟩ | ⟨-, hv⟩
    · exact .inr ⟨_, v, Config.byteAddr_lt _ _ _, hv⟩
    · exact .inl hv
  case store k a v hk ha => exact .inr ⟨a, v, ha, rfl⟩
  case stay | badBus | busy | isr | otherConfigure => exact .inl rfl

/-- A meaning leaves a full staging buffer full: the copy overwrites the head of it by a frame that fits. -/
theorem ExecMove.staging_length {i : Instr} {s t : State} (m : ExecMove i s t) (h : s.staging.length = Config.stagingCap) :
    t.staging.length = Config.stagingCap := by
  cases m
  case stageCopy frame ho hp hl =>
    rw [List.length_append, List.length_drop, h]
    exact Nat.add_sub_of_le hl
  all_goals exact h

/-- An agent leaves a full staging buffer full. -/
theorem AgentMove.staging_length {s t : State} (m : AgentMove s t) (h : s.staging.length = Config.stagingCap) :
    t.staging.length = Config.stagingCap := by
  cases m
  case present hm => exact hm.staging_length h
  case seq hm => exact hm.staging_length h
  case wire hm =>
    obtain ⟨-, hstaging, -⟩ := hm.globals
    rw [hstaging, h]
  case stay | badBus | busy | isr | otherConfigure | store => exact h

/-! ## The pointers -/

/-- The pointer of a latched operation is in bounds if the latch's is. -/
theorem State.latched_ptr_lt {s : State} {i : Instr} {w : Nat} (h : (s.bus i.bus).pointersFit w)
    (hl : s.latched i.bus = .ok i) : i.ptr < 2 ^ w := by
  obtain ⟨hcmd, -⟩ := h
  rcases s.latched_ptr _ i hl with hp | hp <;> rw [hp]
  · exact hcmd
  · exact Nat.two_pow_pos w

theorem Bus.pointersFit.latch {x : Bus} {i : Instr} {w : Nat} (h : x.pointersFit w) (hi : i.ptr < 2 ^ w) :
    (x.latch i).pointersFit w := by
  obtain ⟨hcmd, hregs⟩ := h
  refine ⟨?_, hregs⟩
  rw [Bus.latch_seq]
  rcases i.over_ptr x.seq.cmd with hp | hp <;> rw [hp]
  · exact hcmd
  · exact hi

/-- A sequencer that accepts a command latches a pointer of as many bits as the interface carries (log entry 16). -/
theorem Bus.pointersFit.called {x : Bus} {w : Nat} (h : x.pointersFit w) (k : Nat) (a : Bool) (c : Cmd96) :
    (x.called k a (unpack (c.onWires w))).pointersFit w := by
  obtain ⟨hcmd, hregs⟩ := h
  refine ⟨?_, hregs⟩
  cases a
  · exact hcmd
  · exact Nat.mod_lt _ (Nat.two_pow_pos w)

theorem Bus.pointersFit.programTx {x : Bus} {src : TxSource} {p w : Nat} (h : x.pointersFit w) (hp : p < 2 ^ w)
    (hs : src = .staging ∨ src = .mem p) (a : Half) (n : Nat) (f : Bool) : (x.programTx a src n f).pointersFit w := by
  obtain ⟨hcmd, hrx, -⟩ := h
  refine ⟨hcmd, hrx, fun q hq => ?_⟩
  rcases hs with rfl | rfl <;> cases hq
  exact hp

/-- A meaning keeps the pointers of its bus in bounds: what it latches or programs is the pointer of its operation. -/
theorem ExecMove.pointersFit {i : Instr} {s t : State} {w : Nat} (m : ExecMove i s t)
    (hi : (s.bus i.bus).seq.phase ≠ .uninit → i.ptr < 2 ^ w) (h : (s.bus i.bus).pointersFit w) :
    (t.bus i.bus).pointersFit w := by
  have ptr_lt : ∀ {p : Phase}, (s.bus i.bus).seq.phase = p → p ≠ .uninit → i.ptr < 2 ^ w := fun e hp => hi (e ▸ hp)
  have ⟨hcmd, _, htx⟩ := h
  cases m
  case blocked => exact h
  all_goals simp only [State.bus_updBus_self, State.bus_setBus_self, State.bus_mk, State.toPhase, State.takeSLock,
    State.dropSLock, State.ret]
  case acquireNow hp _ | acquireWaits hp _ | release hp _ | accept hp => exact h.latch (ptr_lt hp nofun)
  case programTx hp hs _ => exact h.programTx (ptr_lt hp nofun) hs _ _ _
  case programRx hp _ => exact ⟨hcmd, ptr_lt hp nofun, htx⟩
  case programTxRx hp _ => exact ⟨hcmd, ptr_lt hp nofun, nofun⟩
  case startTx hx => rcases startTx_ok _ _ _ hx with ⟨-, rfl⟩ | ⟨-, -, -, rfl⟩ <;> exact h
  case startRx hx => rcases startRx_ok _ _ hx with ⟨-, rfl⟩ | ⟨-, -, -, rfl⟩ <;> exact h
  case classify =>
    unfold Bus.finishClassify
    split <;> exact h
  case violated | init | acquireTakes | unsupported | checked | stageLock | stageCopy | unmask | wake | polled | ackStopped |
      unstage =>
    exact h

/-- The wire engine programs no pointer. -/
theorem WireMove.pointersFit {b : BusId} {s t : State} {w : Nat} (m : WireMove s b t) (h : (s.bus b).pointersFit w) :
    (t.bus b).pointersFit w := by
  obtain ⟨x, hx⟩ := m.bus_frame
  rw [hx]
  exact h

/-- A step keeps the pointers of every bus in bounds. -/
theorem step_pointersFit {s t : State} (h : step s = .next t) (hs : ∀ b, (s.bus b).pointersFit s.cfg.addrW) :
    ∀ b, (t.bus b).pointersFit s.cfg.addrW := by
  refine step_keeps_bus (P := fun x => x.pointersFit s.cfg.addrW) h hs ?exec (fun _ hx => hx)
    (fun _ _ _ _ hx m => m.pointersFit hx) (fun _ hx _ => hx) (fun _ k a c hx _ => hx.called k a c) (fun _ _ _ _ hx => hx)
  case exec =>
    intro i u v _ hu hlatched m
    refine m.pointersFit (fun hp => ?_) (hu i.bus)
    by_cases h0 : i.opcode = 0
    · rw [i.ptr_of_opcode_zero h0]
      exact Nat.two_pow_pos _
    · exact State.latched_ptr_lt (hu i.bus) (hlatched h0 hp)

end Sys2Proof.Machine

open Sys2Proof Sys2Proof.Machine

/-- Settles O46: a step is one agent's move, which stores at most one byte, inside the address space, and programs no pointer
but one it latched. -/
theorem stepKeepsMemoryInvariant : Obligations.StepKeepsMemoryInvariant := by
  rintro s t ⟨hwf, hin, hstaging, hptr⟩ h
  have m := step_move s t h
  rw [State.memoryInv, show t.cfg = s.cfg from m.cfg]
  obtain ⟨hwf', hin'⟩ : Memory.wf t.mem = true ∧ ∀ c ∈ t.mem, c.1 < 2 ^ s.cfg.addrW := by
    rcases m.mem_cases with hmem | ⟨a, v, ha, hmem⟩ <;> rw [hmem]
    · exact ⟨hwf, hin⟩
    · exact ⟨Memory.write_wf _ a v hwf, Memory.write_within _ a _ v hin ha⟩
  exact ⟨hwf', hin', m.staging_length hstaging, step_pointersFit h hptr⟩
end

section
/-! PROOF. What a write does in `P_STAGE_LOCK` and in `P_UNSTAGE`, the two phases of `SLOCK` (20 R66; 41 R104, R112). -/

namespace Sys2Proof.Machine

/-- In `P_STAGE_LOCK` and in `P_UNSTAGE` the two writes mean the same. -/
theorem exec_staging_phases {i : Instr} {s : State} (ho : i.opcode = 4 ∨ i.opcode = 5) (hi : i.wf = true)
    (hb : s.hasBus i.bus = true) :
    ((s.bus i.bus).seq.phase = .stageLock → exec i s = stageLockStep i.bus s) ∧
    ((s.bus i.bus).seq.phase = .unstage → exec i s = unstageStep i.bus s) := by
  cases i
  case init | acquire | release | read | readReg => simp [Instr.opcode] at ho
  case write | writeReg =>
    constructor <;> intro hp <;> dsimp only [Instr.bus] at hp <;>
      simp only [exec, execWrite, execWriteReg, entry_run _ s _ hi hb, hp, Instr.bus]

/-- A free `SLOCK` is taken, and the command marked as staged. -/
theorem stageLockStep_of_free {s : State} (b : BusId) (h : s.slock = .free) : stageLockStep b s =
    .next { s.setBus b { s.bus b with seq := { (s.bus b).seq with staged := true, phase := .stageCopy } } with
      slock := .held b } := by
  simp [stageLockStep, h, State.takeSLock, State.toPhase, State.updBus, Bus.toPhase]

/-- A held `SLOCK` is waited for. -/
theorem stageLockStep_of_held {s : State} (b : BusId) {c : BusId} (h : s.slock = .held c) : stageLockStep b s = .next s := by
  simp [stageLockStep, h]

/-- `P_UNSTAGE` frees `SLOCK`, unmarks the command and returns its result. -/
theorem unstageStep_eq (b : BusId) (s : State) : unstageStep b s =
    .next { s.setBus b { s.bus b with
      seq := { (s.bus b).seq with staged := false, phase := .idle }, result := (s.bus b).seq.res.code, callers := [] } with
      slock := .free } := by
  simp [unstageStep, State.dropSLock, State.ret, State.updBus, Bus.ret, Bus.toPhase]

end Sys2Proof.Machine

open Sys2Proof Sys2Proof.Machine

/-- Settles O19: both writes go through the staging-lock step and the unstage step, and each of those is an equation. -/
theorem stageLockTakenAndReleased : Obligations.StageLockTakenAndReleased := by
  intro i s ho hi hb
  obtain ⟨hlock, hunstage⟩ := exec_staging_phases ho hi hb
  refine ⟨fun hp hl => ?_, fun hp c hl => ?_, fun hp => ⟨(s.bus i.bus).seq.res.code, ?_, ?_⟩⟩
  · rw [hlock hp, stageLockStep_of_free _ hl]
  · rw [hlock hp, stageLockStep_of_held _ hl]
  · rw [hunstage hp, unstageStep_eq]
  · refine ⟨fun hr => ?_, fun hr => ?_, fun hr => ?_⟩ <;> rw [hr] <;> rfl
end

section
/-! PROOF. The decoder of 30 R70, R71, R79: the words of a command are its fields and no more, an operation's field that it does
not use is not read, and what makes an encoding reserved. -/

namespace Sys2Proof

/-- A field of a field is a field of the word. -/
theorem extractLsb'_extractLsb' {n : Nat} (w : BitVec n) (i m : Nat) {j k : Nat} (h : j + k ≤ m) :
    (w.extractLsb' i m).extractLsb' j k = w.extractLsb' (i + j) k := by
  ext a ha
  simp [show j + a < m by omega, Nat.add_assoc]

/-- A word is its two halves. -/
theorem word_eq_of_halves {v w : Word} (hh : v.extractLsb' 16 16 = w.extractLsb' 16 16)
    (hl : v.extractLsb' 0 16 = w.extractLsb' 0 16) : v = w :=
  calc v
    _ = v.extractLsb' 16 16 ++ v.extractLsb' 0 16 := (BitVec.extractLsb'_append_extractLsb' (w := 16) (len := 16)).symm
    _ = w.extractLsb' 16 16 ++ w.extractLsb' 0 16 := by rw [hh, hl]
    _ = w := BitVec.extractLsb'_append_extractLsb' (w := 16) (len := 16)

/-- The upper half of `w0` is `OP`, `BUS` and `FLAGS` (30 R70). -/
theorem high_half_fields (w : Word) :
    w.extractLsb' 28 4 ++ w.extractLsb' 24 4 ++ w.extractLsb' 16 8 = w.extractLsb' 16 16 := by
  rw [BitVec.extractLsb'_append_extractLsb'_eq_extractLsb' (by rfl),
    BitVec.extractLsb'_append_extractLsb'_eq_extractLsb' (by rfl)]

/-- The seven fields are all there is in a command: none of the 96 bits is outside them (30 R70). -/
theorem unpack_injective {c d : Cmd96} (h : unpack c = unpack d) : c = d := by
  obtain ⟨w0, w1, w2⟩ := c
  obtain ⟨v0, v1, v2⟩ := d
  simp only [unpack, Cmd.mk.injEq, Fin.mk.injEq, BitVec.toNat_inj] at h
  obtain ⟨hop, hbus, hflags, haddr, hreg, hlen, hptr⟩ := h
  have h0 : w0 = v0 := word_eq_of_halves (by rw [← high_half_fields, hop, hbus, hflags, high_half_fields]) haddr
  rw [h0, word_eq_of_halves hreg hlen, hptr]

/-- Packing the fields of a command gives its words back. -/
theorem pack_unpack (c : Cmd96) : pack (unpack c) = c := unpack_injective (unpack_pack _)

/-- An operation that is not reserved passes its field check. -/
theorem checked_of_wf {i : Instr} (h : i.wf = true) : checked i = .ok i := by
  simp only [Instr.wf, Option.isNone_iff_eq_none] at h
  simp [checked, h]

/-- The words of an operation decode to it, up to its reserved-encoding check. -/
theorem decode_encode (i : Instr) : decode (encode i) = checked i := by
  rw [decode, encode, unpack_pack, decodeCmd_fields]

/-- The opcode of a decoded operation is the record's `OP`. -/
theorem decodeCmd_opcode {c : Cmd} {i : Instr} (h : decodeCmd c = .ok i) : i.opcode = c.op := by
  rw [← over_of_decodeCmd i c h]
  cases i <;> rfl

/-- `WRITE_REG` and `READ_REG` use every field, so their record is the one they were decoded from (30 R71). -/
theorem fields_of_decodeCmd {c : Cmd} {i : Instr} (h : decodeCmd c = .ok i) (ho : i.opcode = 5 ∨ i.opcode = 7) :
    i.fields = c := by
  rw [← over_of_decodeCmd i c h]
  cases i
  case writeReg | readReg => rfl
  all_goals simp [Instr.opcode] at ho

/-- A lifecycle operation reads `OP` and `BUS` alone (30 R71). -/
theorem decodeCmd_eq_of_lifecycle {c d : Cmd} (h : c.op = 0 ∨ c.op = 1 ∨ c.op = 2) (hop : c.op = d.op)
    (hbus : c.bus = d.bus) : decodeCmd c = decodeCmd d := by
  rcases h with h | h | h <;> simp [decodeCmd, ← hop, h, hbus]

/-- `WRITE` and `READ` do not read `REG` (30 R71). -/
theorem decodeCmd_reg_unused {c : Cmd} (h : c.op = 4 ∨ c.op = 6) (r : Half) : decodeCmd { c with reg := r } = decodeCmd c := by
  rcases h with h | h <;> simp [decodeCmd, h]

/-- The field check names the reserved field it finds. -/
theorem checked_eq_error_iff {i : Instr} {e : Reject} : checked i = .error e ↔ i.reject? = some e := by
  unfold checked
  split <;> simp_all

/-- A transfer has a reserved field exactly when `FLAGS[7:4]` or `ADDR[15:7]` is not 0 (30 R79). -/
theorem exists_transferReject_iff (f : Byte) (a : Half) :
    (∃ e, transferReject f a = some e) ↔ f.extractLsb' 4 4 ≠ 0 ∨ a.extractLsb' 7 9 ≠ 0 := by
  unfold transferReject
  split
  · rename_i hf
    exact iff_of_true ⟨_, rfl⟩ (.inl hf)
  · rename_i hf
    split
    · rename_i ha
      exact iff_of_true ⟨_, rfl⟩ (.inr ha)
    · rename_i ha
      exact iff_of_false nofun (not_or.2 ⟨hf, ha⟩)

/-- The reserved records (30 R79): a reserved opcode, or a transfer with a reserved field. -/
theorem exists_decodeCmd_error_iff (c : Cmd) : (∃ e, decodeCmd c = .error e) ↔
    c.op = 3 ∨ 8 ≤ c.op.toNat ∨ (4 ≤ c.op.toNat ∧ (c.flags.extractLsb' 4 4 ≠ 0 ∨ c.addr.extractLsb' 7 9 ≠ 0)) := by
  have h3 : c.op = 3 ↔ c.op.toNat = 3 := BitVec.toNat_inj.symm
  rw [h3, ← exists_transferReject_iff]
  unfold decodeCmd
  split
  case h_1 ho | h_2 ho | h_3 ho | h_4 ho | h_5 ho | h_6 ho | h_7 ho => simp [checked_eq_error_iff, Instr.reject?, ho]
  case h_8 =>
    have : c.op.toNat = 3 ∨ 8 ≤ c.op.toNat := by grind
    exact iff_of_true ⟨_, rfl⟩ (this.imp_right .inl)

/-- No reserved encoding is told by `PTR`: the field check of an operation does not read it. -/
theorem decodeCmd_error_ptr {c : Cmd} {e : Reject} (h : decodeCmd c = .error e) (p : Nat) :
    decodeCmd { c with ptr := p } = .error e := by
  unfold decodeCmd at h
  split at h
  case h_8 => simp_all [decodeCmd]
  all_goals
    rename_i ho
    simp only [decodeCmd, ho]
    have hr := checked_eq_error_iff.1 h
    exact checked_eq_error_iff.2 hr

/-- A reserved encoding is carried as one, whatever the width of `PTR` (10 R11; log entry 16). -/
theorem decode_onWires_error {c : Cmd96} {e : Reject} (h : decode c = .error e) (w : Nat) :
    decode (c.onWires w) = .error e := decodeCmd_error_ptr h _

end Sys2Proof

namespace Sys2Proof.Machine

/-- A thread that is not blocked and presents a reserved encoding is refused (30 R79; 93 U8). -/
theorem requesterStep_of_reserved {s : State} {k : Nat} {c : Cmd96} {rest : List Cmd96} {e : Reject}
    (hk : s.blocked k = false) (hr : s.requests[k]? = some (c :: rest)) (hd : decode c = .error e) :
    requesterStep k s = .refused (.reservedEncoding e) := by
  simp [requesterStep, hk, hr, decode_onWires_error hd]

end Sys2Proof.Machine

open Sys2Proof Sys2Proof.Machine

/-- Settles O1: packing loses nothing, and the record of an operation decodes to it. -/
theorem decodeEncodeAgree : Obligations.DecodeEncodeAgree := fun i hi => (decode_encode i).trans (checked_of_wf hi)

/-- Settles O2: a decoded operation holds the fields it was decoded from, and the words are those fields. -/
theorem decodedWordsEncodeBack : Obligations.DecodedWordsEncodeBack := by
  intro c i h
  have hi : i.wf = true := decodeCmd_wf _ _ h
  refine ⟨hi, decodeCmd_opcode h, ?bus, (decode_encode i).trans (checked_of_wf hi), fun ho => ?words⟩
  case bus => rw [decodeCmd_bus _ _ h]; rfl
  case words => rw [encode, fields_of_decodeCmd h ho, pack_unpack]

/-- Settles O3: the two cases are the lifecycle operations, whose `OP` and `BUS` are one byte of `w0`, and `WRITE` and `READ`,
whose records differ in `REG` alone. -/
theorem unusedFieldsIgnored : Obligations.UnusedFieldsIgnored := by
  intro c d
  refine ⟨fun ho h => ?lifecycle, fun ho h0 hlen h2 => ?reg⟩
  case lifecycle =>
    have field (j : Nat) (hj : j + 4 ≤ 8) : c.w0.extractLsb' (24 + j) 4 = d.w0.extractLsb' (24 + j) 4 := by
      rw [← extractLsb'_extractLsb' c.w0 24 8 hj, h, extractLsb'_extractLsb' d.w0 24 8 hj]
    exact decodeCmd_eq_of_lifecycle ho (field 4 (by decide)) (Fin.ext (congrArg BitVec.toNat (field 0 (by decide))))
  case reg =>
    have hd : unpack d = { unpack c with reg := (unpack d).reg } := by simp [unpack, h0, hlen, h2]
    exact (decodeCmd_reg_unused ho _).symm.trans (congrArg decodeCmd hd.symm)

/-- Settles O4: the reserved fields of the record are bits of `w0`, and the turn decodes the command that is presented. -/
theorem reservedEncodingsRefused : Obligations.ReservedEncodingsRefused := by
  refine ⟨fun c => ?_, fun s k c rest sch e hs hk hr hd => ?_⟩
  · have hflags : (unpack c).flags.extractLsb' 4 4 = c.w0.extractLsb' 20 4 := extractLsb'_extractLsb' c.w0 16 8 (by decide)
    have haddr : (unpack c).addr.extractLsb' 7 9 = c.w0.extractLsb' 7 9 := extractLsb'_extractLsb' c.w0 0 16 (by decide)
    rw [← hflags, ← haddr]
    exact exists_decodeCmd_error_iff (unpack c)
  · exact (step_of_sched hs).trans (requesterStep_of_reserved hk hr hd)

/-- Settles O5: each of the ten words is decoded. -/
theorem sampleWordsDecode : Obligations.SampleWordsDecode := by
  unfold Obligations.SampleWordsDecode
  decide
end

section
/-! PROOF. What a transfer does in `P_IDLE` and in `P_START` (30 R70, R82), and the two start tasks case by case (43 R150, R151,
R156, R168). -/

namespace Sys2Proof.Machine

/-- A wire engine is at rest in its two resting phases. -/
theorem Wire.atRest_eq_true_iff (w : Wire) : w.atRest = true ↔ w.phase = .idle ∨ w.phase = .held := by
  simp [Wire.atRest]

/-- In `P_IDLE` the four transfers are accepted alike; in `P_START` `READ` triggers the receive and the others the transmit. -/
theorem exec_transfer_phases {i : Instr} {s : State} (ht : i.isTransfer = true) (hi : i.wf = true)
    (hb : s.hasBus i.bus = true) :
    ((s.bus i.bus).seq.phase = .idle → exec i s = acceptStep i s) ∧
    ((s.bus i.bus).seq.phase = .start → exec i s =
      startStep i.bus (if i.opcode = 6 then startRx (s.bus i.bus) else startTx s.cfg (s.bus i.bus)) s) := by
  cases i
  case init | acquire | release => cases ht
  case write | writeReg | read | readReg =>
    constructor <;> intro hp <;> dsimp only [Instr.bus] at hp <;>
      simp only [exec, execWrite, execWriteReg, execRead, execReadReg, entry_run _ s _ hi hb, hp]
    all_goals rfl

/-- A start task on a disabled bus has no effect (43 R150). -/
theorem startTx_of_disabled (c : Config) {x : Bus} (h : x.enable = false) : startTx c x = .ok x := by simp [startTx, h]

theorem startRx_of_disabled {x : Bus} (h : x.enable = false) : startRx x = .ok x := by simp [startRx, h]

/-- A start task on a running transfer is refused (43 R168). -/
theorem startTx_of_running (c : Config) {x : Bus} (h : x.enable = true) (hw : x.wire.atRest = false) :
    startTx c x = .error .startWhileRunning := by simp [startTx, h, hw]

theorem startRx_of_running {x : Bus} (h : x.enable = true) (hw : x.wire.atRest = false) :
    startRx x = .error .startWhileRunning := by simp [startRx, h, hw]

/-- The start-transmit task sets a transmit going (43 R151). -/
theorem startTx_of_rest (c : Config) {x : Bus} (h : x.enable = true) (hw : x.wire.atRest = true) (hn : x.txCnt ≠ 0) :
    startTx c x = .ok { x with
      txAmt := if c.txAmtZeroed then 0 else x.txAmt, wire := { x.wire with phase := .txAddr, idx := 0 } } := by
  simp_all [startTx]

/-- The start-receive task sets a receive going (43 R156). -/
theorem startRx_of_rest {x : Bus} (h : x.enable = true) (hw : x.wire.atRest = true) (hn : x.rxCnt ≠ 0) :
    startRx x = .ok { x with wire := { x.wire with phase := .rxAddr, idx := 0 } } := by
  simp_all [startRx]

end Sys2Proof.Machine

open Sys2Proof Sys2Proof.Machine

/-- Settles O14: the record latched is the old one with the operation's fields over it. -/
theorem commandAccepted : Obligations.CommandAccepted := by
  intro i s ht hi hb hp
  refine ⟨i.over (s.bus i.bus).seq.cmd, (decodeCmd_over i _).trans (checked_of_wf hi), fun ho => ?reg,
    ((exec_transfer_phases ht hi hb).1 hp).trans rfl⟩
  cases i
  case write | read => rfl
  all_goals simp [Instr.opcode] at ho

/-- Settles O23: the step is the start task of the operation, and the task has three answers. -/
theorem startTaskTriggered : Obligations.StartTaskTriggered := by
  intro i s ht hi hb hp x q
  have hexec := (exec_transfer_phases ht hi hb).2 hp
  refine ⟨fun he => ?disabled, fun he hw ho hn => ?transmit, fun he hw ho hn => ?receive, fun he hni hnh => ?running⟩
  case disabled => rw [hexec, startRx_of_disabled he, startTx_of_disabled _ he, ite_self]; rfl
  case transmit => rw [hexec, if_neg ho, startTx_of_rest _ he (x.wire.atRest_eq_true_iff.2 hw) hn]; rfl
  case receive => rw [hexec, if_pos ho, startRx_of_rest he (x.wire.atRest_eq_true_iff.2 hw) hn]; rfl
  case running =>
    have hw : x.wire.atRest = false := by
      rw [← Bool.not_eq_true, x.wire.atRest_eq_true_iff]
      exact not_or.2 ⟨hni, hnh⟩
    rw [hexec, startRx_of_running he hw, startTx_of_running _ he hw, ite_self]; rfl
end

section
/-! PROOF. Writes to the register view (10 R37, 30 R83): the tasks and the event flags under any map, the bit fields under the
default map. -/

namespace Sys2Proof.Machine

/-- The stop task runs `STOP` on an enabled bus and has no effect on a disabled one (43 R150, R159). -/
theorem regWrite_stop (c : Config) (x : Bus) : Bus.regWrite c x 1 .tStop = .ok (if x.enable then x.stop else x) := rfl

/-- Writing 0 to an event flag acknowledges it, and no other (30 R83). -/
theorem regWrite_ackEvents (c : Config) (x : Bus) :
    Bus.regWrite c x 0 .evStopped = .ok { x with ev := { x.ev with stopped := false } } ∧
    Bus.regWrite c x 0 .evError = .ok { x with ev := { x.ev with error := false } } ∧
    Bus.regWrite c x 0 .evLastRx = .ok { x with ev := { x.ev with lastRx := false } } ∧
    Bus.regWrite c x 0 .evLastTx = .ok { x with ev := { x.ev with lastTx := false } } := ⟨rfl, rfl, rfl, rfl⟩

/-- The four registers of bit fields are written through the map's own bit functions. -/
theorem regWrite_bitFields (c : Config) (x : Bus) (w : Word) :
    Bus.regWrite c x w .errSrc = .ok { x with errSrc := x.errSrc.clearBits c.regMap w } ∧
    Bus.regWrite c x w .intenSet = .ok { x with inten := x.inten.setBits c.regMap w } ∧
    Bus.regWrite c x w .intenClr = .ok { x with inten := x.inten.clearBits c.regMap w } ∧
    Bus.regWrite c x w .shorts = .ok { x with shorts := Shorts.ofWord c.regMap w } := ⟨rfl, rfl, rfl, rfl⟩

end Sys2Proof.Machine

open Sys2Proof Sys2Proof.Machine

/-- Settles O37: tasks and events need no map; the bit positions of the fields are those of the default map. -/
theorem registerViewWrites : Obligations.RegisterViewWrites := by
  intro c x w hm
  obtain ⟨htx, hrx⟩ := regWrite_start c x
  obtain ⟨hstopped, herror, hlastRx, hlastTx⟩ := regWrite_ackEvents c x
  obtain ⟨herrSrc, hset, hclr, hshorts⟩ := regWrite_bitFields c x w
  rw [hm] at herrSrc hset hclr hshorts
  exact ⟨htx, hrx, fun he => by rw [regWrite_stop, he]; rfl, fun he => by rw [regWrite_stop, he]; rfl,
    hstopped, herror, hlastRx, hlastTx, herrSrc, hset, hclr, hshorts⟩
end

section
/-! PROOF. What each lifecycle operation does in the phase it is in (40 R90, R91, R92), and where the other protocol role may act
(40 R94). -/

namespace Sys2Proof.Machine

/-- An operation on a bus that does not exist is `bad_bus` (30 R77, 41 R101). -/
theorem exec_badBus {i : Instr} {s : State} (hi : i.wf = true) (hb : s.hasBus i.bus = false) :
    exec i s = .next (s.raise .badBus i.bus) := by
  have hraise : s.raise .badBus i.bus = { s with fault := some ⟨.badBus, i.bus⟩ } := by simp [State.raise, hb]
  rw [hraise]
  cases i <;> exact entry_badBus _ s _ hi hb

/-! ## `INIT` -/

/-- `INIT` in `P_UNINIT` initialises the bus, makes its calls and returns. -/
theorem exec_init_of_uninit {s : State} {b : BusId} (hb : s.hasBus b = true) (hp : (s.bus b).seq.phase = .uninit) :
    exec (.init b) s = .next { s.updBus b (fun x => (x.initialised (s.desc b)).ret .ok) with
      extCalls := s.extCalls ++ initCalls b (s.desc b) } := by
  simp only [exec, execInit, entry_run (.init b) s _ rfl hb, hp]

/-- `INIT` in any other phase is refused (93 U1). -/
theorem exec_init_of_not_uninit {s : State} {b : BusId} (hb : s.hasBus b = true) (hp : (s.bus b).seq.phase ≠ .uninit) :
    exec (.init b) s = .refused .secondInit := by
  simp only [exec, execInit, entry_run (.init b) s _ rfl hb]
  cases h : (s.bus b).seq.phase
  case uninit => exact absurd h hp
  all_goals rfl

/-! ## `ACQUIRE` -/

/-- `ACQUIRE` in `P_IDLE` goes to take the pin lock, or where pins are not shared acquires the bus and returns. -/
theorem exec_acquire_of_idle {s : State} {b : BusId} (hb : s.hasBus b = true) (hp : (s.bus b).seq.phase = .idle) :
    exec (.acquire b) s =
      if (s.desc b).sharesPins then .next (s.updBus b (fun x => (x.latch (.acquire b)).toPhase .pinLock))
      else .next (s.updBus b (fun x => ((x.latch (.acquire b)).acquired (s.desc b)).ret .ok)) := by
  simp only [exec, execAcquire, entry_run (.acquire b) s _ rfl hb, hp]

/-- `ACQUIRE` in `P_PINLOCK` has no step while the lock is held (20 R67). -/
theorem exec_acquire_of_pinLock_held {s : State} {b : BusId} (hb : s.hasBus b = true)
    (hp : (s.bus b).seq.phase = .pinLock) (hl : (s.bus b).pinLock ≠ .free) : exec (.acquire b) s = .next s :=
  exec_blocked rfl (by rw [Instr.opcode]; decide) hb (by rw [Instr.bus, hp]; rfl) (by simp [State.seqReady, Instr.bus, hp, hl])

/-- `ACQUIRE` in `P_PINLOCK` takes the free lock, acquires the bus and returns. -/
theorem exec_acquire_of_pinLock_free {s : State} {b : BusId} (hb : s.hasBus b = true)
    (hp : (s.bus b).seq.phase = .pinLock) (hl : (s.bus b).pinLock = .free) :
    exec (.acquire b) s = .next (s.updBus b (fun x => (Bus.acquired { x with pinLock := .held } (s.desc b)).ret .ok)) := by
  simp only [exec, execAcquire, entry_run (.acquire b) s _ rfl hb, hp, hl, if_true]

/-! ## `RELEASE` -/

/-- Releasing a bus disables it and frees a pin lock that it shares and holds. -/
theorem Bus.released_eq (x : Bus) (d : Desc) :
    x.released d = { x with
      enable := false, pinLock := if d.sharesPins = true ∧ x.pinLock = .held then .free else x.pinLock } := by
  simp [Bus.released]

/-- `RELEASE` in `P_IDLE` is refused on a held bus (93 U2) and otherwise releases the bus and returns. -/
theorem exec_release_of_idle {s : State} {b : BusId} (hb : s.hasBus b = true) (hp : (s.bus b).seq.phase = .idle) :
    exec (.release b) s =
      if (s.bus b).wire.held then .refused .releaseWhileHeld
      else .next (s.updBus b (fun x => ((x.latch (.release b)).released (s.desc b)).ret .ok)) := by
  simp only [exec, execRelease, entry_run (.release b) s _ rfl hb, hp]

/-! ## The other protocol role -/

/-- The other role of an existing bus may act exactly between sessions on shared pins. -/
theorem State.otherMayAct_eq_true_iff {s : State} {b : BusId} (hb : s.hasBus b = true) :
    s.otherMayAct b = true ↔ (s.desc b).sharesPins = true ∧ (s.bus b).pinLock = .free := by
  simp [State.otherMayAct, hb]

/-- Where it may act, the other role writes the three registers of its bus. -/
theorem otherConfigure_of_mayAct {s : State} {b : BusId} (scl sda freq : Nat) (h : s.otherMayAct b = true) :
    otherConfigure b scl sda freq s =
      .next (s.setBus b { s.bus b with pselScl := scl, pselSda := sda, freq := freq }) := if_pos h

/-- Where it may not, it has no step. -/
theorem otherConfigure_of_not_mayAct {s : State} {b : BusId} (scl sda freq : Nat) (h : ¬ s.otherMayAct b = true) :
    otherConfigure b scl sda freq s = .next s := if_neg h

/-- An `ACQUIRE` that takes the pin lock writes the three registers from the descriptor, so it gives the same state whatever the
other role wrote to them. -/
theorem exec_acquire_after_otherConfigure {s : State} {b : BusId} (scl sda freq : Nat) (hb : s.hasBus b = true)
    (hp : (s.bus b).seq.phase = .pinLock) (hl : (s.bus b).pinLock = .free) :
    exec (.acquire b) (s.setBus b { s.bus b with pselScl := scl, pselSda := sda, freq := freq }) = exec (.acquire b) s := by
  rw [exec_acquire_of_pinLock_free hb hp hl,
    exec_acquire_of_pinLock_free (by simpa using hb) (by simpa using hp) (by simpa using hl)]
  simp only [State.updBus, State.bus_setBus_self, State.setBus_setBus, State.setBus_desc]
  rfl

end Sys2Proof.Machine

open Sys2Proof Sys2Proof.Machine

/-- Settles O10: the four cases are the phases of `INIT`; the clean entry is read off the state it leaves. -/
theorem initEffect : Obligations.InitEffect := by
  intro s b
  refine ⟨exec_init_of_uninit, exec_badBus (i := .init b) rfl, exec_init_of_not_uninit, fun hb hp hs hf => ?clean⟩
  case clean =>
    refine ⟨_, exec_init_of_uninit hb hp, ?_⟩
    simp +contextual [State.cleanEntry, Bus.initialised, hs, hf]

/-- Settles O11: the phases of `ACQUIRE`, `P_IDLE` by whether the bus shares its pins. -/
theorem acquireEffect : Obligations.AcquireEffect := by
  intro s b
  refine ⟨fun hb hp hd => ?alone, fun hb hp hd => ?shared, exec_acquire_of_pinLock_held, exec_acquire_of_pinLock_free,
    exec_badBus (i := .acquire b) rfl⟩
  case alone => rw [exec_acquire_of_idle hb hp, hd]; rfl
  case shared => rw [exec_acquire_of_idle hb hp, hd]; rfl

/-- Settles O12: `RELEASE` in `P_IDLE`, by whether the bus is held. -/
theorem releaseEffect : Obligations.ReleaseEffect := by
  intro s b
  refine ⟨fun hb hp hh => ?released, fun hb hp hh => ?held, exec_badBus (i := .release b) rfl⟩
  case released =>
    rw [exec_release_of_idle hb hp, hh]
    simp only [Bus.released_eq]
    rfl
  case held => rw [exec_release_of_idle hb hp, hh]; rfl

/-- Settles O13: the other role acts exactly between sessions, and what it writes `ACQUIRE` overwrites. -/
theorem otherRoleConfined : Obligations.OtherRoleConfined := by
  intro s b scl sda freq hb
  have hmay := State.otherMayAct_eq_true_iff hb
  refine ⟨fun hd hl => otherConfigure_of_mayAct scl sda freq (hmay.2 ⟨hd, hl⟩),
    fun h => otherConfigure_of_not_mayAct scl sda freq fun hact => ?session, fun _ => rfl, fun hp hl hd => ?acquire⟩
  case session =>
    obtain ⟨hd, hl⟩ := hmay.1 hact
    rcases h with h | h
    · exact absurd (hd.symm.trans h) (by decide)
    · exact absurd (hl.symm.trans h) (by decide)
  case acquire =>
    exact ⟨_, _, otherConfigure_of_mayAct scl sda freq (hmay.2 ⟨hd, hl⟩),
      (exec_acquire_after_otherConfigure scl sda freq hb hp hl).trans (exec_acquire_of_pinLock_free hb hp hl),
      exec_acquire_of_pinLock_free hb hp hl⟩
end

section
/-! PROOF. What a transfer does in `P_CHECK`, `P_STAGE_COPY`, `P_PROGRAM` and in the phases of `FINISH`, one equation per phase
(41 R100 to R109; 42 R131 to R135), and the contract checks row by row (41 R101). -/

namespace Sys2Proof

/-- The registers after `P_PROGRAM` of an operation: the row of the dispatch table (30 R82, 41 R105 to R109). -/
def Instr.programmed (i : Instr) (x : Machine.Bus) : Machine.Bus :=
  match i with
  | .init _ | .acquire _ | .release _ => x
  | .write _ f a n p => x.programTx a (if x.seq.staged then .staging else .mem p) n.toNat (Machine.flagNoStop f)
  | .writeReg _ f a _ n _ => x.programTx a .staging (Machine.regCount f + n.toNat) (Machine.flagNoStop f)
  | .read _ _ a n p => x.programRx a p n.toNat
  | .readReg _ f a r n p => x.programTxRx a f r p n.toNat

end Sys2Proof

namespace Sys2Proof.Machine

section
variable {i : Instr} {s : State} (ht : i.isTransfer = true) (hi : i.wf = true) (hb : s.hasBus i.bus = true)
include ht hi hb

/-- In `P_CHECK` the four transfers differ in their reject mask and their staging decision. -/
theorem exec_check (hp : (s.bus i.bus).seq.phase = .check) :
    exec i s = checkStep i i.rejects i.flags (i.stages s.cfg) s := by
  cases i
  case init | acquire | release => cases ht
  case write | writeReg | read | readReg =>
    dsimp only [Instr.bus] at hp
    simp only [exec, execWrite, execWriteReg, execRead, execReadReg, entry_run _ s _ hi hb, hp, Instr.rejects, Instr.flags,
      Instr.stages]

/-- In `P_PROGRAM` the row of the dispatch table is programmed. -/
theorem exec_program (hp : (s.bus i.bus).seq.phase = .program) :
    exec i s = .next (s.setBus i.bus (i.programmed (s.bus i.bus))) := by
  cases i
  case init | acquire | release => cases ht
  case write | writeReg | read | readReg =>
    dsimp only [Instr.bus] at hp
    simp only [exec, execWrite, execWriteReg, execRead, execReadReg, entry_run _ s _ hi hb, hp]
    rfl

/-- In the five phases of `FINISH` the four transfers do the same. -/
theorem exec_finish (hp : (s.bus i.bus).seq.phase = .unmask ∨ (s.bus i.bus).seq.phase = .wait ∨
      (s.bus i.bus).seq.phase = .poll ∨ (s.bus i.bus).seq.phase = .ack ∨ (s.bus i.bus).seq.phase = .classify) :
    exec i s = finishStep i.bus s := by
  cases i
  case init | acquire | release => cases ht
  case write | writeReg | read | readReg =>
    dsimp only [Instr.bus] at hp ⊢
    rcases hp with hp | hp | hp | hp | hp <;>
      simp only [exec, execWrite, execWriteReg, execRead, execReadReg, entry_run _ s _ hi hb, hp]

end

section
variable {s : State} {b : BusId}

theorem finishStep_of_unmask (hp : (s.bus b).seq.phase = .unmask) :
    finishStep b s = .next (s.setBus b (s.bus b).unmask) := by
  simp only [finishStep, hp]
  rfl

theorem finishStep_of_wait (hp : (s.bus b).seq.phase = .wait) (hw : (s.bus b).waitDone = true) :
    finishStep b s = .next (s.setBus b (s.bus b).wake) := by
  simp only [finishStep, hp, hw]
  rfl

theorem finishStep_of_poll (hp : (s.bus b).seq.phase = .poll) (hd : (s.bus b).pollDone = true) :
    finishStep b s = .next (s.setBus b ((s.bus b).toPhase .ack)) := by
  simp only [finishStep, hp, hd]
  rfl

theorem finishStep_of_ack (hp : (s.bus b).seq.phase = .ack) :
    finishStep b s = .next (s.setBus b (s.bus b).ackStopped) := by
  simp only [finishStep, hp]
  rfl

theorem finishStep_of_classify (hp : (s.bus b).seq.phase = .classify) :
    finishStep b s = .next (s.setBus b (s.bus b).finishClassify) := by
  simp only [finishStep, hp]
  rfl

end

/-- In `P_STAGE_COPY` the two writes copy their frame. -/
theorem exec_stageCopy {i : Instr} {s : State} (ho : i.opcode = 4 ∨ i.opcode = 5) (hi : i.wf = true)
    (hb : s.hasBus i.bus = true) (hp : (s.bus i.bus).seq.phase = .stageCopy) :
    exec i s = stageCopyStep i.bus (i.frame s) s := by
  cases i
  case init | acquire | release | read | readReg => simp [Instr.opcode] at ho
  case write | writeReg =>
    dsimp only [Instr.bus] at hp
    simp only [exec, execWrite, execWriteReg, entry_run _ s _ hi hb, hp, Instr.bus, Instr.frame]

/-- A frame that fits is copied to the head of the staging buffer, and the phase is `P_PROGRAM`. -/
theorem stageCopyStep_of_fits {frame : List Byte} (b : BusId) (s : State) (h : frame.length ≤ Config.stagingCap) :
    stageCopyStep b frame s = .next { s.setBus b ((s.bus b).toPhase .program) with
      staging := frame ++ s.staging.drop frame.length } := by
  simp only [stageCopyStep, State.fillStaging, h, if_true]
  rfl

/-- The staging buffer after the copy of a frame of register bytes, none of them for `WRITE`, and a payload that does not wrap:
the payload follows the register bytes in address order, and the bytes after it are as they were (41 R105, R106). -/
theorem staging_after_copy (s : State) (regs : List Byte) (p n : Nat) (h : p + n ≤ 2 ^ s.cfg.addrW) :
    let frame := regs ++ s.memBytes p n
    (∀ k, k < n → (frame ++ s.staging.drop frame.length)[regs.length + k]? = some (Memory.read s.mem (p + k))) ∧
    (∀ k, regs.length + n ≤ k → (frame ++ s.staging.drop frame.length)[k]? = s.staging[k]?) := by
  intro frame
  have hlen : frame.length = regs.length + n := by simp [frame]
  obtain ⟨hhead, htail⟩ := staging_after_fill frame s.staging
  refine ⟨fun k hk => (hhead _ (by omega)).trans ?_, fun k hk => htail k (by omega)⟩
  rw [List.getElem?_append_right (by omega), Nat.add_sub_cancel_left]
  exact s.memBytes_getElem? p n k hk h

/-- The check step when the contract checks pass: a rejected flag returns, else the staging decision names the phase. -/
theorem checkStep_of_rejected {i : Instr} {s : State} {mask f : Byte} (stages : Bool) (h : violation s.cfg i = none)
    (hf : rejected mask f = true) :
    checkStep i mask f stages s = .next (s.setBus i.bus ((s.bus i.bus).ret .unsupported)) := by
  simp only [checkStep, h, hf]
  rfl

theorem checkStep_of_accepted {i : Instr} {s : State} {mask f : Byte} (stages : Bool) (h : violation s.cfg i = none)
    (hf : rejected mask f = false) :
    checkStep i mask f stages s = .next (s.setBus i.bus ((s.bus i.bus).toPhase (if stages then .stageLock else .program))) := by
  simp only [checkStep, h, hf]
  rfl

@[simp] theorem regBytes_length (f : Byte) (r : Half) : (regBytes f r).length = regCount f := by
  unfold regBytes regCount
  split <;> rfl

/-- The counts that are programmed, as bytes (30 R82). -/
theorem ofNat_regCount (f : Byte) : BitVec.ofNat 8 (regCount f) = if f.getLsbD 1 then 2 else 1 := by
  unfold regCount flagReg16
  split <;> rfl

theorem ofNat_regCount_add (f : Byte) (n : Half) :
    BitVec.ofNat 8 (regCount f + n.toNat) = n.setWidth 8 + if f.getLsbD 1 then 2 else 1 := by
  rw [Nat.add_comm, BitVec.ofNat_add, BitVec.ofNat_toNat, ofNat_regCount]

/-- At most two register bytes. -/
theorem regCount_le (f : Byte) : regCount f ≤ 2 := by
  unfold regCount
  split <;> omega

/-- A flag is rejected exactly when a bit of the mask is set. -/
theorem rejected_eq_true_iff (mask f : Byte) : rejected mask f = true ↔ f &&& mask ≠ 0 := decide_eq_true_iff

theorem rejected_eq_false_iff (mask f : Byte) : rejected mask f = false ↔ f &&& mask = 0 :=
  decide_eq_false_iff_not.trans not_not

/-- The reject masks: `0x09` for the writes and `0x0D` for the reads (41 R102). -/
theorem rejects_cases {i : Instr} (ht : i.isTransfer = true) :
    ((i.opcode = 4 ∨ i.opcode = 5) ∧ i.rejects = 0x09) ∨ ((i.opcode = 6 ∨ i.opcode = 7) ∧ i.rejects = 0x0D) := by
  cases i
  case init | acquire | release => cases ht
  case write => exact .inl ⟨.inl rfl, rfl⟩
  case writeReg => exact .inl ⟨.inr rfl, rfl⟩
  case read => exact .inr ⟨.inl rfl, rfl⟩
  case readReg => exact .inr ⟨.inr rfl, rfl⟩

/-! ## The contract checks, row by row (41 R101) -/

section
variable (c : Config) (lenMax : Nat) (rx : Bool) {n : Half} {p : Nat}

theorem operandViolation_null : operandViolation c lenMax rx n 0 = some .nullBuffer := rfl

variable (hp : p ≠ 0)
include hp

theorem operandViolation_zeroLength : operandViolation c lenMax rx 0 p = some .zeroLength := by
  simp [operandViolation, hp]

variable (hn : n ≠ 0)
include hn

theorem operandViolation_overLength (hl : lenMax < n.toNat) : operandViolation c lenMax rx n p = some .overLength := by
  simp_all [operandViolation]

variable {lenMax} (hl : n.toNat ≤ lenMax)
include hl

theorem operandViolation_rangeWraps (hw : 2 ^ c.addrW < p + n.toNat) :
    operandViolation c lenMax rx n p = some .rangeWraps := by
  simp_all [operandViolation, Nat.not_lt.2 hl]

/-- The last row: a range that does not wrap is in order unless it is a destination and not directly addressable. -/
theorem operandViolation_of_range (hw : p + n.toNat ≤ 2 ^ c.addrW) : operandViolation c lenMax rx n p =
    if rx && !Config.directlyAddressable c p n.toNat then some .rxNotAddressable else none := by
  simp_all [operandViolation, Nat.not_lt.2 hl, Nat.not_lt.2 hw]

end

end Sys2Proof.Machine

open Sys2Proof Sys2Proof.Machine

/-- Settles O15: the four operations check the same table with their own limit, and each row is one branch of the check. -/
theorem contractChecksInOrder : Obligations.ContractChecksInOrder := by
  intro c b f a r n p row
  have table (lenMax : Nat) (rx : Bool) : row lenMax rx (operandViolation c lenMax rx n p) := by
    refine ⟨fun hp => ?null, fun hp hn => ?zero, fun hp hn => operandViolation_overLength c lenMax rx hp hn,
      fun hp hn => operandViolation_rangeWraps c rx hp hn, fun hp hn hl hw => ?last⟩
    case null => rw [hp]; exact operandViolation_null c lenMax rx
    case zero => rw [hn]; exact operandViolation_zeroLength c lenMax rx hp
    case last =>
      rw [operandViolation_of_range c rx hp hn hl hw, ← Config.directlyAddressable_eq_false_iff c p _ hw]
      cases rx <;> simp
  exact ⟨table 255 false, table 252 false, table 255 true, table 255 true⟩

/-- Settles O17: the check step returns when a bit of the mask is set. -/
theorem unsupportedFlagReturns : Obligations.UnsupportedFlagReturns := by
  intro i s ht hi hb hp hv hw hr
  have hrej : rejected i.rejects i.flags = true := by
    rw [rejected_eq_true_iff]
    rcases rejects_cases ht with ⟨ho, hm⟩ | ⟨ho, hm⟩ <;> rw [hm]
    · exact hw ho
    · exact hr ho
  rw [exec_check ht hi hb hp, checkStep_of_rejected _ hv hrej]
  rfl

/-- Settles O18: the check step goes where the operation's staging decision says. -/
theorem stagingDecision : Obligations.StagingDecision := by
  intro i s ht hi hb hp hv hw hr
  refine ⟨if i.stages s.cfg then .stageLock else .program, ?step, by split <;> simp, ?writeReg, ?read, ?readReg, ?write⟩
  case step =>
    have hrej : rejected i.rejects i.flags = false := by
      rw [rejected_eq_false_iff]
      rcases rejects_cases ht with ⟨ho, hm⟩ | ⟨ho, hm⟩ <;> rw [hm]
      · exact hw ho
      · exact hr ho
    rw [exec_check ht hi hb hp, checkStep_of_accepted _ hv hrej]
    rfl
  case writeReg => rintro b f a r n q rfl; rfl
  case read => rintro b f a n q rfl; rfl
  case readReg => rintro b f a r n q rfl; rfl
  case write =>
    rintro b f a n q rfl
    obtain ⟨-, -, hrange⟩ := operandViolation_none s.cfg _ _ n q hv
    rw [← Config.directlyAddressable_eq_false_iff s.cfg q _ hrange]
    simp [Instr.stages, writeStages]

/-- Settles O20: the copy puts the frame at the head of the buffer, and the frame is the register bytes and the payload. -/
theorem stageCopyFillsBuffer : Obligations.StageCopyFillsBuffer := by
  intro s b f a r n p hb hp hstaging hrange
  have hlen := regCount_le f
  refine ⟨fun hi hn => ?writeReg, fun hi hn => ?write⟩
  case writeReg =>
    refine ⟨_, (exec_stageCopy (i := .writeReg b f a r n p) (.inr rfl) hi hb hp).trans
      (stageCopyStep_of_fits b s (by simp [Instr.frame, Config.stagingCap]; omega)), fun hf => ?two, fun hf => ?one, rfl⟩ <;>
      simp only [Instr.frame]
    case two =>
      have hregs : regBytes f r = [regHigh r, regLow r] := if_pos hf
      rw [hregs]
      obtain ⟨hpayload, htail⟩ := staging_after_copy s [regHigh r, regLow r] p n.toNat hrange
      exact ⟨rfl, rfl, hpayload, htail⟩
    case one =>
      have hregs : regBytes f r = [regLow r] := if_neg (by simpa [flagReg16] using hf)
      rw [hregs]
      obtain ⟨hpayload, htail⟩ := staging_after_copy s [regLow r] p n.toNat hrange
      exact ⟨rfl, hpayload, htail⟩
  case write =>
    obtain ⟨hpayload, htail⟩ := staging_after_copy s [] p n.toNat hrange
    simp only [List.length_nil, Nat.zero_add] at hpayload htail
    exact ⟨_, (exec_stageCopy (i := .write b f a n p) (.inl rfl) hi hb hp).trans
      (stageCopyStep_of_fits b s (by simp [Instr.frame, Config.stagingCap]; omega)), hpayload, htail, rfl⟩

/-- Settles O21: the rows of the two writes; a count of at most 8 bits is the operand's low byte. -/
theorem writesProgramTransmit : Obligations.WritesProgramTransmit := by
  intro s b f a r n p hb hp tail
  refine ⟨fun hi hs _ => ?staged, fun hi hs _ => ?direct, fun hi _ => ?writeReg⟩
  case staged =>
    rw [exec_program (i := .write b f a n p) rfl hi hb hp]
    simp only [Instr.programmed, Instr.bus, hs, if_true, Bus.programTx, BitVec.ofNat_toNat]
    rfl
  case direct =>
    rw [exec_program (i := .write b f a n p) rfl hi hb hp]
    simp only [Instr.programmed, Instr.bus, hs, Bus.programTx, BitVec.ofNat_toNat]
    rfl
  case writeReg =>
    rw [exec_program (i := .writeReg b f a r n p) rfl hi hb hp]
    simp only [Instr.programmed, Instr.bus, Bus.programTx, ofNat_regCount_add]
    rfl

/-- Settles O22: the rows of the two reads. -/
theorem readsProgramReceive : Obligations.ReadsProgramReceive := by
  intro s b f a r n p hb hp
  refine ⟨fun hi => ?read, fun hi => ?readReg⟩
  case read =>
    rw [exec_program (i := .read b f a n p) rfl hi hb hp]
    simp only [Instr.programmed, Instr.bus, Bus.programRx, BitVec.ofNat_toNat]
    rfl
  case readReg =>
    rw [exec_program (i := .readReg b f a r n p) rfl hi hb hp]
    simp only [Instr.programmed, Instr.bus, Bus.programTxRx, BitVec.ofNat_toNat, ofNat_regCount]
    rfl
end

section
/-! PROOF. What the moves of a transfer leave alone on their own bus (41 R105 to R108), and how every return leaves the bus
(41 R114, 42 R136). -/

namespace Sys2Proof.Machine

/-- From `x` to `y` the enable, the pin-select and frequency fields and the pin lock are as they were. -/
structure Bus.lineKept (x y : Bus) : Prop where
  enable  : y.enable = x.enable
  pselScl : y.pselScl = x.pselScl
  pselSda : y.pselSda = x.pselSda
  freq    : y.freq = x.freq
  pinLock : y.pinLock = x.pinLock

/-- From `x` to `y` the transmit registers and the register buffer are as they were. -/
structure Bus.transmitKept (x y : Bus) : Prop where
  txPtr  : y.txPtr = x.txPtr
  txCnt  : y.txCnt = x.txCnt
  txAmt  : y.txAmt = x.txAmt
  regBuf : y.regBuf = x.regBuf

/-- From `x` to `y` the receive registers and the register buffer are as they were. -/
structure Bus.receiveKept (x y : Bus) : Prop where
  rxPtr  : y.rxPtr = x.rxPtr
  rxCnt  : y.rxCnt = x.rxCnt
  regBuf : y.regBuf = x.regBuf

/-- The registers that a change of bus `x` to `y` by operation `i` leaves alone. -/
structure Bus.transferKept (i : Instr) (x y : Bus) : Prop where
  line     : x.lineKept y
  transmit : i.opcode = 6 → x.transmitKept y
  receive  : i.opcode = 4 ∨ i.opcode = 5 → x.receiveKept y

/-- A change that leaves alone all of them. -/
theorem Bus.transferKept.of_all {i : Instr} {x y : Bus} (hl : x.lineKept y) (ht : x.transmitKept y) (hr : x.receiveKept y) :
    x.transferKept i y := ⟨hl, fun _ => ht, fun _ => hr⟩

/-- A lifecycle operation is no transfer. -/
theorem opcode_of_isTransfer {i : Instr} (ht : i.isTransfer = true) : i.opcode ≠ 0 ∧ i.opcode ≠ 1 ∧ i.opcode ≠ 2 := by
  cases i
  case init | acquire | release => cases ht
  case write | writeReg | read | readReg => simp [Instr.opcode]

/-- The start tasks write `TXAMT` and the wire record alone. -/
theorem startTx_transferKept {i : Instr} {c : Config} {x y : Bus} (ho : i.opcode ≠ 6) (h : startTx c x = .ok y) (p : Phase) :
    x.transferKept i (y.toPhase p) := by
  rcases startTx_ok c x y h with ⟨-, rfl⟩ | ⟨-, -, -, rfl⟩ <;>
    exact ⟨⟨rfl, rfl, rfl, rfl, rfl⟩, fun h => absurd h ho, fun _ => ⟨rfl, rfl, rfl⟩⟩

theorem startRx_transferKept {i : Instr} {x y : Bus} (h : startRx x = .ok y) (p : Phase) : x.transferKept i (y.toPhase p) := by
  rcases startRx_ok x y h with ⟨-, rfl⟩ | ⟨-, -, -, rfl⟩ <;>
    exact .of_all ⟨rfl, rfl, rfl, rfl, rfl⟩ ⟨rfl, rfl, rfl, rfl⟩ ⟨rfl, rfl, rfl⟩

/-- Step 5 of `FINISH` writes no register of either direction. -/
theorem Bus.finishClassify_transferKept (i : Instr) (x : Bus) : x.transferKept i x.finishClassify := by
  unfold Bus.finishClassify
  split <;> exact .of_all ⟨rfl, rfl, rfl, rfl, rfl⟩ ⟨rfl, rfl, rfl, rfl⟩ ⟨rfl, rfl, rfl⟩

/-- A move of a transfer writes the registers of its own direction alone. -/
theorem ExecMove.transferKept {i : Instr} {s t : State} (ht : i.isTransfer = true) (m : ExecMove i s t) :
    (s.bus i.bus).transferKept i (t.bus i.bus) := by
  obtain ⟨h0, h1, h2⟩ := opcode_of_isTransfer ht
  have ne_read : ∀ {P : Prop}, (i.opcode = 4 ∨ i.opcode = 5) → i.opcode = 6 → P := fun ho h => by simp [h] at ho
  cases m
  case init ho _ => exact absurd ho h0
  case acquireNow ho _ _ | acquireWaits ho _ _ | acquireTakes ho _ _ => exact absurd ho h1
  case release ho _ _ => exact absurd ho h2
  case blocked => exact .of_all ⟨rfl, rfl, rfl, rfl, rfl⟩ ⟨rfl, rfl, rfl, rfl⟩ ⟨rfl, rfl, rfl⟩
  all_goals
    simp only [State.bus_updBus_self, State.bus_setBus_self, State.bus_mk, State.toPhase, State.takeSLock, State.dropSLock,
      State.ret]
  case programTx ho _ _ _ => exact ⟨⟨rfl, rfl, rfl, rfl, rfl⟩, ne_read ho, fun _ => ⟨rfl, rfl, rfl⟩⟩
  case programRx ho _ _ => exact ⟨⟨rfl, rfl, rfl, rfl, rfl⟩, fun _ => ⟨rfl, rfl, rfl, rfl⟩, fun h => ne_read h ho⟩
  case programTxRx ho _ _ =>
    exact ⟨⟨rfl, rfl, rfl, rfl, rfl⟩, fun h => by simp [ho] at h, fun h => by simp [ho] at h⟩
  case startTx ho _ hx => exact startTx_transferKept (by rcases ho with ho | ho | ho <;> simp [ho]) hx _
  case startRx hx => exact startRx_transferKept hx _
  case classify => exact Bus.finishClassify_transferKept i _
  case violated | accept | unsupported | checked | stageLock | stageCopy | unmask | wake | polled | ackStopped | unstage =>
    exact .of_all ⟨rfl, rfl, rfl, rfl, rfl⟩ ⟨rfl, rfl, rfl, rfl⟩ ⟨rfl, rfl, rfl⟩

/-- A move of a read writes no staging byte, no `SLOCK` and no staged mark: only a write stages. -/
theorem ExecMove.staging_of_read {i : Instr} {s t : State} (ho : i.opcode = 6 ∨ i.opcode = 7) (m : ExecMove i s t) :
    t.staging = s.staging ∧ t.slock = s.slock ∧ (t.bus i.bus).seq.staged = (s.bus i.bus).seq.staged := by
  have ne_write : ∀ {P : Prop}, (i.opcode = 4 ∨ i.opcode = 5) → P := fun h => by
    rcases ho with ho | ho <;> simp [ho] at h
  cases m
  case blocked => exact ⟨rfl, rfl, rfl⟩
  case stageLock ho _ _ => exact ne_write ho
  case stageCopy ho _ _ => exact ne_write ho
  case unstage ho _ => exact ne_write ho
  all_goals
    refine ⟨rfl, rfl, ?_⟩
    simp only [State.bus_updBus_self, State.bus_setBus_self, State.bus_mk, State.toPhase]
  case startTx hx => simp [startTx_seq hx]
  case startRx hx => simp [startRx_seq hx]
  case classify x => exact (Bus.finishClassify_stagedFits _).1
  all_goals rfl

/-! ## How a return leaves the bus -/

/-- Nothing runs on the wire of the bus, and nothing is signalled, unmasked or latched as a stop. -/
structure Bus.quiet (x : Bus) : Prop where
  inten   : x.inten = IntEn.none
  gate    : x.gate = .locked
  stopped : x.ev.stopped = false
  wire    : x.wire.atRest = true

/-- A quiet bus with no error latched: what `State.recovered` asks for besides the phase and the lock. -/
structure Bus.settled (x : Bus) : Prop extends x.quiet where
  error  : x.ev.error = false
  errSrc : x.errSrc = ErrSrc.none

/-- The phases in which the invariant leaves no error latched, of those from which a command returns. -/
def Phase.beforeReturn : Phase → Bool
  | .idle | .check | .pinLock | .unstage => true
  | .uninit | .stageLock | .stageCopy | .program | .start | .unmask | .wait | .poll | .ack | .classify | .faulted => false

/-- Outside `P_WAIT` the gate invariant leaves the gate locked and every source masked (42 R137). -/
theorem Bus.gateInv.masked {x : Bus} (h : x.gateInv) (hf : x.seq.phase ≠ .faulted) (hw : x.seq.phase ≠ .wait) :
    x.inten = IntEn.none ∧ x.gate = .locked := by
  obtain ⟨hgate, hmask⟩ := h hf
  refine ⟨by_contra fun hn => hw (hmask hn), ?_⟩
  cases hg : x.gate
  · rfl
  · exact absurd (hgate hg).1 hw

theorem Bus.settled_of_inv {x : Bus} (hg : x.gateInv) (hr : x.restInv) (hp : x.seq.phase.beforeReturn = true) :
    x.settled := by
  obtain ⟨hinten, hgate⟩ := hg.masked (fun h => by simp [h, Phase.beforeReturn] at hp)
    (fun h => by simp [h, Phase.beforeReturn] at hp)
  obtain ⟨hbefore, -, -, -, -, -, -, -, -, hunstage⟩ := hr
  have rest : x.wire.atRest = true ∧ x.ev.stopped = false ∧ x.ev.error = false ∧ x.errSrc = ErrSrc.none := by
    cases hx : x.seq.phase <;> simp only [hx, Phase.beforeReturn] at hp
    case idle | check | pinLock => exact hbefore (by rw [hx]; rfl)
    case unstage => exact hunstage hx
    all_goals cases hp
  obtain ⟨hwire, hstopped, herror, hsrc⟩ := rest
  exact ⟨⟨hinten, hgate, hstopped, hwire⟩, herror, hsrc⟩

theorem Bus.quiet_of_classify {x : Bus} (hg : x.gateInv) (hr : x.restInv) (hp : x.seq.phase = .classify) : x.quiet := by
  obtain ⟨hinten, hgate⟩ := hg.masked (by simp [hp]) (by simp [hp])
  obtain ⟨-, -, -, -, -, -, -, -, hclassify, -⟩ := hr
  obtain ⟨hwire, hstopped⟩ := hclassify hp
  exact ⟨hinten, hgate, hstopped, hwire⟩

/-- A bus in a phase from which a command returns is settled, but for the error that step 5 of `FINISH` clears. -/
structure Bus.returnReady (x : Bus) : Prop where
  settled : x.seq.phase.beforeReturn = true → x.settled
  quiet   : x.seq.phase = .classify → x.quiet

theorem Bus.returnReady_of_inv {x : Bus} (hg : x.gateInv) (hr : x.restInv) : x.returnReady :=
  ⟨Bus.settled_of_inv hg hr, Bus.quiet_of_classify hg hr⟩

theorem Bus.returnReady.of_phase {x : Bus} (h : x.returnReady) {p : Phase} (e : x.seq.phase = p)
    (hp : p.beforeReturn = true) : x.settled := h.settled (by rw [e]; exact hp)

/-- Presenting a command latches a record and a caller, no more. -/
theorem Bus.returnReady.called {x : Bus} (h : x.returnReady) (k : Nat) (a : Bool) (c : Cmd) : (x.called k a c).returnReady :=
  ⟨fun hp => have ⟨⟨h1, h2, h3, h4⟩, h5, h6⟩ := h.settled hp; ⟨⟨h1, h2, h3, h4⟩, h5, h6⟩,
    fun hp => have ⟨h1, h2, h3, h4⟩ := h.quiet hp; ⟨h1, h2, h3, h4⟩⟩

theorem Bus.returnReady.issue {s : State} (h : ∀ b, (s.bus b).returnReady) (k : Nat) (c : Cmd96) (rest : List Cmd96)
    (i : Instr) : ∀ b, ((s.issue k c rest i).bus b).returnReady :=
  forall_bus i.bus h (fun b hb => by simp [hb]) (by simpa using (h i.bus).called k _ _)

/-- Step 5 of `FINISH` clears the error and its source. -/
theorem Bus.quiet.finishClassify {x : Bus} (h : x.quiet) (hi : x.finishClassify.seq.phase = .idle) :
    x.finishClassify.settled := by
  obtain ⟨hinten, hgate, hstopped, hwire⟩ := h
  unfold Bus.finishClassify at hi ⊢
  split at hi
  · cases hi
  · rename_i hst
    rw [if_neg hst]
    exact ⟨⟨hinten, hgate, hstopped, hwire⟩, rfl, rfl⟩

/-- A move of a meaning that ends in `P_IDLE` leaves its bus settled, if the bus was so in the phases before a return, and
quiet in `P_CLASSIFY`, which clears the error. -/
theorem ExecMove.settled {i : Instr} {s t : State} (m : ExecMove i s t) (hs : (s.bus i.bus).returnReady)
    (hi : (t.bus i.bus).seq.phase = .idle) : (t.bus i.bus).settled := by
  have keep : ∀ {x y : Bus}, x.settled → y.inten = x.inten → y.gate = x.gate → y.ev = x.ev → y.wire = x.wire →
      y.errSrc = x.errSrc → y.settled := fun ⟨⟨h1, h2, h3, h4⟩, h5, h6⟩ e1 e2 e3 e4 e5 =>
    ⟨⟨e1.trans h1, e2.trans h2, by rw [e3, h3], by rw [e4, h4]⟩, by rw [e3, h5], e5.trans h6⟩
  cases m
  case blocked => exact hs.of_phase hi rfl
  all_goals
    simp only [State.bus_updBus_self, State.bus_setBus_self, State.bus_mk, State.toPhase, State.takeSLock, State.dropSLock,
      State.ret] at hi ⊢
  case init => exact ⟨⟨rfl, rfl, rfl, rfl⟩, rfl, rfl⟩
  case acquireNow hp _ => exact keep (hs.of_phase hp rfl) rfl rfl rfl rfl rfl
  case acquireTakes hp _ => exact keep (hs.of_phase hp rfl) rfl rfl rfl rfl rfl
  case release hp _ => exact keep (hs.of_phase hp rfl) rfl rfl rfl rfl rfl
  case unsupported hp _ => exact keep (hs.of_phase hp rfl) rfl rfl rfl rfl rfl
  case unstage hp => exact keep (hs.of_phase hp rfl) rfl rfl rfl rfl rfl
  case classify hp => exact (hs.quiet hp).finishClassify hi
  case checked => split at hi <;> cases hi
  case wake => unfold Bus.wake at hi; split at hi <;> cases hi
  all_goals cases hi

/-- A move of any agent leaves a bus that is then in `P_IDLE` settled. -/
theorem AgentMove.settled {s t : State} (m : AgentMove s t) (hs : ∀ b, (s.bus b).returnReady) (b : BusId)
    (hi : (t.bus b).seq.phase = .idle) : (t.bus b).settled := by
  have exec : ∀ {i : Instr} {u : State}, (∀ c, (u.bus c).returnReady) → ExecMove i u t → (t.bus b).settled := fun {i u} hu hm => by
    by_cases hb : b = i.bus
    · subst hb; exact hm.settled (hu _) hi
    · rw [hm.bus_ne b hb] at hi ⊢; exact (hu b).of_phase hi rfl
  cases m
  case stay => exact (hs b).of_phase hi rfl
  case badBus k c rest i _ _ _ _ => exact (Bus.returnReady.issue hs k _ rest i b).of_phase hi rfl
  case present k c rest i _ _ _ _ _ hm => exact exec (Bus.returnReady.issue hs k _ rest i) hm
  case busy k c rest i v _ _ _ _ _ =>
    by_cases hb : b = i.bus
    · subst hb; simp at hi
    · simp only [State.bus_mk, State.bus_updBus_ne _ _ _ _ hb] at hi ⊢
      exact (Bus.returnReady.issue hs k _ rest i b).of_phase hi rfl
  case seq c i _ _ _ _ hm => exact exec hs hm
  case wire c _ _ hm =>
    by_cases hb : b = c
    · subst hb
      obtain ⟨x, hx⟩ := hm.bus_frame
      have hset := (hs b).of_phase (by simpa [hx] using hi) rfl
      obtain ⟨hrun, -⟩ := hm.progress
      exact absurd (hset.wire.symm.trans hrun) (by decide)
    · rw [hm.bus_ne b hb] at hi ⊢; exact (hs b).of_phase hi rfl
  case isr c hc =>
    by_cases hb : b = c
    · subst hb
      have hset := (hs b).of_phase (by simpa [Bus.handler, Bus.signalGate] using hi) rfl
      simp [State.isrEnabled, Bus.irq, hset.inten, IntEn.none] at hc
    · simp only [State.bus_updBus_ne _ _ _ _ hb] at hi ⊢; exact (hs b).of_phase hi rfl
  case otherConfigure c scl sda freq _ =>
    by_cases hb : b = c
    · subst hb
      simp only [State.bus_updBus_self] at hi ⊢
      obtain ⟨⟨h1, h2, h3, h4⟩, h5, h6⟩ := (hs b).of_phase hi rfl
      exact ⟨⟨h1, h2, h3, h4⟩, h5, h6⟩
    · simp only [State.bus_updBus_ne _ _ _ _ hb] at hi ⊢; exact (hs b).of_phase hi rfl
  case store => exact (hs b).of_phase hi rfl

end Sys2Proof.Machine

open Sys2Proof Sys2Proof.Machine

/-- Settles O39: the violation of a bus that does not exist writes no bus, and a move of a transfer writes the registers of its
own direction. -/
theorem transferFrame : Obligations.TransferFrame := by
  intro i s t ht h
  rcases exec_move i s t h with ⟨-, rfl⟩ | ⟨-, m⟩
  · simp
  · obtain ⟨⟨henable, hscl, hsda, hfreq, hpin⟩, htx, hrx⟩ := m.transferKept ht
    refine ⟨henable, hscl, hsda, hfreq, hpin, fun ho => m.staging_of_read ho, fun ho => ?_, fun ho => ?_⟩
    · obtain ⟨hptr, hcnt, hamt, hbuf⟩ := htx ho
      exact ⟨hptr, hcnt, hamt, hbuf⟩
    · obtain ⟨hptr, hcnt, hbuf⟩ := hrx ho
      exact ⟨hptr, hcnt, hbuf⟩

/-- Settles O52: the invariant leaves every bus ready for a return, so one that a step leaves in `P_IDLE` is settled; and a
sequencer in `P_IDLE` has not staged, so it does not hold the lock. -/
theorem invariantStateReturnLeavesBusUsable : Obligations.InvariantStateReturnLeavesBusUsable := by
  rintro s t b ⟨-, hlock, hgate, hrest, -⟩ h hp
  obtain ⟨⟨hinten, hgate', hstopped, hwire⟩, herror, hsrc⟩ :=
    (step_move s t h).settled (fun c => Bus.returnReady_of_inv (hgate c) (hrest c)) b hp
  obtain ⟨hheld, hunstaged, -⟩ := stepKeepsLockInvariant s t hlock h b
  refine ⟨hp, hinten, hgate', hstopped, herror, hsrc, fun hl => ?_, hwire⟩
  have hstaged := hheld.2 hl
  rw [hunstaged (by rw [hp]; rfl)] at hstaged
  cases hstaged
end

section
/-! PROOF. Runs by their turns: a list of turns leads from one state to another whatever is scheduled after it, and such runs
are put one after the other (00 R5; log entry 4). -/

namespace Sys2Proof.Machine

theorem run_succ (M : Host.Core) (n : Nat) {s t : M.State} (h : M.step s = .next t) : M.run (n + 1) s = M.run n t := by
  rw [Host.Core.run.eq_def]
  simp only [h]

/-- A run that has taken `n` steps goes on from where it is. -/
theorem run_add (M : Host.Core) {n m : Nat} {s t : M.State} (h : M.run n s = .next t) : M.run (n + m) s = M.run m t := by
  induction n generalizing s with
  | zero => cases h; rw [Nat.zero_add]
  | succ n ih =>
    cases hstep : M.step s with
    | next u =>
      rw [run_succ M n hstep] at h
      rw [Nat.add_right_comm, run_succ M (n + m) hstep]
      exact ih h
    | fault r => rw [Host.Core.run.eq_def] at h; simp [hstep] at h
    | refused r => rw [Host.Core.run.eq_def] at h; simp [hstep] at h

/-- The turns `ks`, scheduled next, lead from `s` to `t`, whatever is scheduled after them. -/
def State.turnsTo (s : State) (ks : List Turn) (t : State) : Prop :=
  ∀ sch, Host.Core.run Sys2Proof.core ks.length { s with sched := ks ++ sch } = .next { t with sched := sch }

variable {s t u : State} {ks ls : List Turn} {k : Turn} {n m : Nat}

/-- One turn, which does not depend on what is scheduled after it. -/
theorem State.turnsTo.single (h : ∀ sch, takeTurn k { s with sched := sch } = .next { t with sched := sch }) :
    s.turnsTo [k] t := fun sch => run_succ Sys2Proof.core 0 (s := { s with sched := k :: sch }) (h sch)

theorem State.turnsTo.trans (h : s.turnsTo ks t) (h' : t.turnsTo ls u) : s.turnsTo (ks ++ ls) u := fun sch => by
  rw [List.length_append, List.append_assoc]
  exact (run_add Sys2Proof.core (h (ls ++ sch))).trans (h' sch)

/-- The turns of one agent, counted. -/
theorem State.turnsTo.replicate_add (h : s.turnsTo (List.replicate n k) t) (h' : t.turnsTo (List.replicate m k) u) :
    s.turnsTo (List.replicate (n + m) k) u := by
  rw [List.replicate_add]
  exact h.trans h'

/-- The run of a state whose schedule begins with the turns. -/
theorem State.turnsTo.run {sch : List Turn} (h : s.turnsTo ks t) (hs : s.sched = ks ++ sch) :
    Host.Core.run Sys2Proof.core ks.length s = .next { t with sched := sch } := by
  have := h sch
  rwa [← hs] at this

end Sys2Proof.Machine
end

section
/-! PROOF. A transfer command from its presentation to `P_WAIT`, in the order of `turnsOf`: presentation, check, staging,
programming, start and unmask (41 R100 to R109; 42 R131). -/

namespace Sys2Proof

/-- `LEN` of an operation; the lifecycle operations have none. -/
def Instr.len : Instr → Half
  | .init _ | .acquire _ | .release _ => 0
  | .write _ _ _ n _ | .writeReg _ _ _ _ n _ | .read _ _ _ n _ | .readReg _ _ _ _ n _ => n

/-- The record of a well-formed operation decodes to it. -/
theorem decodeCmd_fields_of_wf {i : Instr} (h : i.wf = true) : decodeCmd i.fields = .ok i :=
  (decodeCmd_fields i).trans (checked_of_wf h)

/-- The words of an operation carry its record, and `PTR` as it is. -/
@[simp] theorem unpack_encode (i : Instr) : unpack (encode i) = i.fields := unpack_pack _
theorem encode_w2 (i : Instr) : (encode i).w2 = i.ptr := by cases i <;> rfl

end Sys2Proof

namespace Sys2Proof.Machine

/-- The operands of a transfer that passes its contract checks: a payload, of at most 255 bytes, 252 for `WRITE_REG`, whose
range does not wrap (41 R101). -/
theorem operands_of_violation_none {c : Config} {i : Instr} (ht : i.isTransfer = true) (h : violation c i = none) :
    0 < i.len.toNat ∧ i.len.toNat ≤ 255 ∧ (i.opcode = 5 → i.len.toNat ≤ 252) ∧ i.ptr + i.len.toNat ≤ 2 ^ c.addrW := by
  cases i
  case init | acquire | release => cases ht
  case write | read | readReg =>
    obtain ⟨h0, hl, hr⟩ := operandViolation_none _ _ _ _ _ h
    exact ⟨h0, hl, fun ho => by simp [Instr.opcode] at ho, hr⟩
  case writeReg =>
    obtain ⟨h0, hl, hr⟩ := operandViolation_none _ _ _ _ _ h
    exact ⟨h0, Nat.le_trans hl (by decide), fun _ => hl, hr⟩

/-- Only a write stages. -/
theorem opcode_of_stages {i : Instr} {c : Config} (h : i.stages c = true) : i.opcode = 4 ∨ i.opcode = 5 := by
  cases i
  case write => exact .inl rfl
  case writeReg => exact .inr rfl
  all_goals cases h

/-! ## The turns of the sequencer -/

/-- The sequencer of `i`'s bus runs the transfer `i` and is in phase `p`. -/
structure State.running (s : State) (i : Instr) (p : Phase) : Prop where
  transfer : i.isTransfer = true
  wf       : i.wf = true
  hasBus   : s.hasBus i.bus = true
  cmd      : (s.bus i.bus).seq.cmd = i.fields
  phase    : (s.bus i.bus).seq.phase = p

variable {i : Instr} {s : State} {p : Phase}

/-- The command goes on in another phase when its bus is changed. -/
theorem State.running.setBus (h : s.running i p) {y : Bus} {p' : Phase} (hc : y.seq.cmd = (s.bus i.bus).seq.cmd)
    (hp : y.seq.phase = p') : (s.setBus i.bus y).running i p' :=
  ⟨h.transfer, h.wf, h.hasBus, by simpa [hc] using h.cmd, by simpa using hp⟩

/-- The turn of the sequencer is the operation's step. -/
theorem State.running.seqStep (h : s.running i p) (hf : p.inFlight = true) : seqStep i.bus s = exec i s := by
  refine seqStep_of_latched h.hasBus (by rw [h.phase]; exact hf) ?_
  have hbus : ({ i.fields with bus := i.bus } : Cmd) = i.fields := by cases i <;> rfl
  rw [State.latched, h.cmd, hbus]
  exact decodeCmd_fields_of_wf h.wf

/-- A command runs whatever is scheduled. -/
theorem State.running.resched (h : s.running i p) (sch : List Turn) : State.running { s with sched := sch } i p :=
  ⟨h.transfer, h.wf, h.hasBus, h.cmd, h.phase⟩

/-- A step of the operation, which does not depend on the schedule, is a turn of the sequencer. -/
theorem State.running.turn {t : State} (h : s.running i p) (hf : p.inFlight = true)
    (hexec : ∀ sch, State.running { s with sched := sch } i p → exec i { s with sched := sch } = .next { t with sched := sch }) :
    s.turnsTo [.seq i.bus] t :=
  .single fun sch => ((h.resched sch).seqStep hf).trans (hexec sch (h.resched sch))

theorem State.running.check (h : s.running i .check) (hv : violation s.cfg i = none) (hf : rejected i.rejects i.flags = false) :
    s.turnsTo [.seq i.bus] (s.setBus i.bus ((s.bus i.bus).toPhase (if i.stages s.cfg then .stageLock else .program))) :=
  h.turn rfl fun _ h => (exec_check h.transfer h.wf h.hasBus h.phase).trans (checkStep_of_accepted _ hv hf)

theorem State.running.stageLock (h : s.running i .stageLock) (ho : i.opcode = 4 ∨ i.opcode = 5) (hl : s.slock = .free) :
    s.turnsTo [.seq i.bus] { s.setBus i.bus
      { s.bus i.bus with seq := { (s.bus i.bus).seq with staged := true, phase := .stageCopy } } with slock := .held i.bus } :=
  h.turn rfl fun _ h => ((exec_staging_phases ho h.wf h.hasBus).1 h.phase).trans (stageLockStep_of_free _ hl)

theorem State.running.stageCopy (h : s.running i .stageCopy) (ho : i.opcode = 4 ∨ i.opcode = 5)
    (hl : (i.frame s).length ≤ Config.stagingCap) :
    s.turnsTo [.seq i.bus] { s.setBus i.bus ((s.bus i.bus).toPhase .program) with
      staging := i.frame s ++ s.staging.drop (i.frame s).length } :=
  h.turn rfl fun _ h => (exec_stageCopy ho h.wf h.hasBus h.phase).trans (stageCopyStep_of_fits _ _ hl)

theorem State.running.program (h : s.running i .program) :
    s.turnsTo [.seq i.bus] (s.setBus i.bus (i.programmed (s.bus i.bus))) :=
  h.turn rfl fun _ h => exec_program h.transfer h.wf h.hasBus h.phase

theorem State.running.start {x : Bus} (h : s.running i .start)
    (hx : (if i.opcode = 6 then startRx (s.bus i.bus) else startTx s.cfg (s.bus i.bus)) = .ok x) :
    s.turnsTo [.seq i.bus] (s.setBus i.bus (x.toPhase .unmask)) :=
  h.turn rfl fun sch h => ((exec_transfer_phases h.transfer h.wf h.hasBus).2 h.phase).trans
    (congrArg (fun r => startStep i.bus r { s with sched := sch }) hx)

/-- A step of `FINISH` is a turn of the sequencer. -/
theorem State.running.finish {t : State} (h : s.running i p)
    (hp : p = .unmask ∨ p = .wait ∨ p = .poll ∨ p = .ack ∨ p = .classify)
    (hstep : ∀ sch, State.running { s with sched := sch } i p →
      finishStep i.bus { s with sched := sch } = .next { t with sched := sch }) : s.turnsTo [.seq i.bus] t :=
  h.turn (by rcases hp with rfl | rfl | rfl | rfl | rfl <;> rfl) fun sch h =>
    (exec_finish h.transfer h.wf h.hasBus (by rw [h.phase]; exact hp)).trans (hstep sch h)

theorem State.running.unmask (h : s.running i .unmask) :
    s.turnsTo [.seq i.bus] (s.setBus i.bus (s.bus i.bus).unmask) :=
  h.finish (.inl rfl) fun _ h => finishStep_of_unmask h.phase

/-! ## From the presentation to `P_WAIT` -/

/-- The bus of a command that has been presented by thread `k` and has passed its checks and its staging. -/
def Bus.readied (c : Config) (i : Instr) (k : Nat) (x : Bus) : Bus :=
  { x with callers := k :: x.callers, seq := { x.seq with cmd := i.fields, staged := i.stages c, phase := .program } }

/-- The bus of a command in `P_WAIT`, its start task triggered and its sources unmasked, from the bus in `P_PROGRAM`. -/
def Bus.launched (c : Config) (i : Instr) (x : Bus) : Bus :=
  let y := i.programmed x
  { x with
    address := y.address, txPtr := y.txPtr, txCnt := y.txCnt, rxPtr := y.rxPtr, rxCnt := y.rxCnt, shorts := y.shorts
    regBuf := y.regBuf, txAmt := if i.opcode ≠ 6 ∧ c.txAmtZeroed = true then 0 else x.txAmt
    inten := x.inten.unmask y.seq.succ, wire := ⟨if i.opcode = 6 then .rxAddr else .txAddr, 0, x.wire.held⟩
    seq := { x.seq with phase := .wait, succ := y.seq.succ, txn := y.seq.txn } }

/-- The state in which thread `k` has presented `i`, with `q` to present after it, and the transfer has been started. -/
def State.launched (s : State) (i : Instr) (k : Nat) (q : List Cmd96) : State :=
  { s.setBus i.bus (((s.bus i.bus).readied s.cfg i k).launched s.cfg i) with
    requests := s.requests.set k q
    slock := if i.stages s.cfg then .held i.bus else s.slock
    staging := if i.stages s.cfg then i.frame s ++ s.staging.drop (i.frame s).length else s.staging }

/-- `P_PROGRAM` writes the registers of the dispatch table and goes to `P_START`. -/
theorem programmed_phase (ht : i.isTransfer = true) (x : Bus) :
    (i.programmed x).seq.phase = .start ∧ (i.programmed x).seq.cmd = x.seq.cmd ∧ (i.programmed x).enable = x.enable ∧
    (i.programmed x).wire = x.wire := by
  cases i
  case init | acquire | release => cases ht
  case write | writeReg | read | readReg => exact ⟨rfl, rfl, rfl, rfl⟩

theorem Byte.toNat_ofNat {n : Nat} (h : n ≤ 255) : (BitVec.ofNat 8 n : Byte).toNat = n := by
  rw [BitVec.toNat_ofNat]
  exact Nat.mod_eq_of_lt (Nat.lt_succ_of_le h)

/-- The counts that `P_PROGRAM` writes are those of the frame and of the payload. -/
theorem programmed_counts (ht : i.isTransfer = true) (hv : violation s.cfg i = none) (x : Bus) :
    (i.opcode ≠ 6 → (i.programmed x).txCnt.toNat = (i.frame s).length ∧ 0 < (i.frame s).length ∧
      (i.frame s).length ≤ Config.stagingCap) ∧
    (i.opcode = 6 ∨ i.opcode = 7 → (i.programmed x).rxCnt.toNat = i.len.toNat ∧ (i.programmed x).rxPtr = i.ptr) := by
  obtain ⟨h0, hl, hl5, -⟩ := operands_of_violation_none ht hv
  have cap : Config.stagingCap = 256 := rfl
  cases i
  case init | acquire | release => cases ht
  case write =>
    refine ⟨fun _ => ?_, fun h => by simp [Instr.opcode] at h⟩
    simp only [Instr.frame, State.memBytes_length]
    exact ⟨Byte.toNat_ofNat hl, h0, Nat.le_succ_of_le hl⟩
  case writeReg f _ _ n _ =>
    have hr := regCount_le f
    have hl := hl5 rfl
    simp only [Instr.len] at h0 hl
    refine ⟨fun _ => ?_, fun h => by simp [Instr.opcode] at h⟩
    simp only [Instr.frame, List.length_append, regBytes_length, State.memBytes_length]
    exact ⟨Byte.toNat_ofNat (by omega), by omega, by omega⟩
  case read =>
    exact ⟨fun h => absurd rfl h, fun _ => ⟨Byte.toNat_ofNat hl, rfl⟩⟩
  case readReg f _ _ _ _ =>
    have hr := regCount_le f
    have hr0 : 0 < regCount f := by unfold regCount; split <;> decide
    simp only [Instr.frame, regBytes_length]
    exact ⟨fun _ => ⟨Byte.toNat_ofNat (by omega), hr0, by omega⟩,
      fun _ => ⟨Byte.toNat_ofNat hl, rfl⟩⟩

/-- The start task of an operation on an enabled bus at rest with a count that is not 0 (43 R151, R156). -/
theorem startTask_of_rest (c : Config) {x : Bus} (he : x.enable = true) (hw : x.wire.atRest = true)
    (htx : i.opcode ≠ 6 → 0 < x.txCnt.toNat) (hrx : i.opcode = 6 → 0 < x.rxCnt.toNat) :
    (if i.opcode = 6 then startRx x else startTx c x) = .ok { x with
      txAmt := if i.opcode ≠ 6 ∧ c.txAmtZeroed = true then 0 else x.txAmt
      wire := ⟨if i.opcode = 6 then .rxAddr else .txAddr, 0, x.wire.held⟩ } := by
  have ne_zero : ∀ {v : Byte}, 0 < v.toNat → v ≠ 0 := fun h e => by simp [e] at h
  by_cases ho : i.opcode = 6
  · simp [ho, startRx_of_rest he hw (ne_zero (hrx ho))]
  · have ho' : ¬i.opcode = 6#4 := ho
    simp [ho', startTx_of_rest c he hw (ne_zero (htx ho))]

/-- `Bus.launched` is what the three phases do: the dispatch row, the start task, the unmask. -/
theorem Bus.launched_eq (ht : i.isTransfer = true) (c : Config) (x : Bus) : x.launched c i =
    (Bus.toPhase { i.programmed x with
      txAmt := if i.opcode ≠ 6 ∧ c.txAmtZeroed = true then 0 else (i.programmed x).txAmt
      wire := ⟨if i.opcode = 6 then .rxAddr else .txAddr, 0, (i.programmed x).wire.held⟩ } .unmask).unmask := by
  cases i
  case init | acquire | release => cases ht
  case write | writeReg | read | readReg => rfl

/-- Programming, start and unmask of a command that is ready, on an enabled bus at rest. -/
theorem State.running.launch (h : s.running i .program) (hv : violation s.cfg i = none) (he : (s.bus i.bus).enable = true)
    (hw : (s.bus i.bus).wire.atRest = true) :
    s.turnsTo (List.replicate 3 (.seq i.bus)) (s.setBus i.bus ((s.bus i.bus).launched s.cfg i)) := by
  obtain ⟨hphase, hcmd, henable, hwire⟩ := programmed_phase h.transfer (s.bus i.bus)
  obtain ⟨htx, hrx⟩ := programmed_counts h.transfer hv (s.bus i.bus)
  obtain ⟨hlen, -⟩ := operands_of_violation_none h.transfer hv
  have hstarted := h.setBus hcmd hphase
  obtain ⟨y, hy, hyeq⟩ : ∃ y, _ = Except.ok y ∧ y = _ := ⟨_, startTask_of_rest (i := i) s.cfg
    (henable.trans he) (by rw [hwire, hw]) (fun ho => by have := htx ho; omega) (fun ho => by have := hrx (.inl ho); omega), rfl⟩
  have hstart := hstarted.start (x := y) (by simpa using hy)
  rw [State.setBus_setBus] at hstart
  have hunmask := (h.setBus (y := y.toPhase .unmask) (by simp [hyeq, hcmd]) rfl).unmask
  rw [State.setBus_setBus, State.bus_setBus_self] at hunmask
  rw [Bus.launched_eq h.transfer, ← hyeq]
  exact (h.program.trans hstart).trans hunmask

/-- A frame depends on memory and the address width alone. -/
theorem frame_congr (i : Instr) {s t : State} (hm : t.mem = s.mem) (hc : t.cfg = s.cfg) : i.frame t = i.frame s := by
  cases i <;> simp [Instr.frame, State.memBytes, hm, hc]

theorem Bus.toPhase_eq {x : Bus} {v : Bool} (h : x.seq.staged = v) (p : Phase) :
    x.toPhase p = { x with seq := { x.seq with staged := v, phase := p } } := by subst h; rfl

/-- From `P_CHECK` to `P_PROGRAM`: a command that stages takes the free lock and copies its frame. -/
theorem State.running.ready (h : s.running i .check) (hv : violation s.cfg i = none)
    (hf : rejected i.rejects i.flags = false) (hm : (s.bus i.bus).seq.staged = false)
    (hl : i.stages s.cfg = true → s.slock = .free) :
    s.turnsTo (List.replicate (if i.stages s.cfg then 3 else 1) (.seq i.bus)) { s.setBus i.bus
      { s.bus i.bus with seq := { (s.bus i.bus).seq with staged := i.stages s.cfg, phase := .program } } with
      slock := if i.stages s.cfg then .held i.bus else s.slock
      staging := if i.stages s.cfg then i.frame s ++ s.staging.drop (i.frame s).length else s.staging } := by
  have hcheck := h.check hv hf
  cases hs : i.stages s.cfg
  case false =>
    rw [hs, if_neg Bool.false_ne_true, Bus.toPhase_eq hm] at hcheck
    exact hcheck
  case true =>
    have ho := opcode_of_stages hs
    have ho6 : i.opcode ≠ 6 := by rcases ho with ho | ho <;> simp [ho]
    obtain ⟨-, -, hcap⟩ := (programmed_counts h.transfer hv (s.bus i.bus)).1 ho6
    rw [hs, if_pos rfl] at hcheck
    let y : Bus := { s.bus i.bus with seq := { (s.bus i.bus).seq with staged := true, phase := .stageCopy } }
    let u : State := { s.setBus i.bus y with slock := .held i.bus }
    have hlock : (s.setBus i.bus ((s.bus i.bus).toPhase .stageLock)).turnsTo [.seq i.bus] u := by
      have := (h.setBus (y := (s.bus i.bus).toPhase .stageLock) rfl rfl).stageLock ho (hl hs)
      rwa [State.setBus_setBus, State.bus_setBus_self] at this
    have hy : u.bus i.bus = y := s.bus_setBus_self i.bus y
    have hu : u.running i .stageCopy := ⟨h.transfer, h.wf, h.hasBus, by rw [hy]; exact h.cmd, by rw [hy]⟩
    have hframe : i.frame u = i.frame s := frame_congr i rfl rfl
    have hcopy := hu.stageCopy ho (by rw [hframe]; exact hcap)
    rw [hframe, hy, show u.setBus i.bus (y.toPhase .program) = { s.setBus i.bus (y.toPhase .program) with
      slock := .held i.bus } by simp [u]] at hcopy
    exact (hcheck.trans hlock).trans hcopy

/-- The bus of a command that thread `k` has presented. -/
def Bus.presented (i : Instr) (k : Nat) (x : Bus) : Bus :=
  { x with callers := k :: x.callers, seq := { x.seq with cmd := i.fields, phase := .check } }

/-- What an accepted presentation does to its bus: the thread is blocked, the record latched, the phase `P_CHECK`. -/
theorem Bus.presented_eq (hi : i.wf = true) (k : Nat) (x : Bus) :
    ((x.called k true i.fields).latch i).toPhase .check = x.presented i k := by
  have hover : i.over i.fields = i.fields := over_of_decodeCmd i _ (decodeCmd_fields_of_wf hi)
  simp only [Bus.latch, Bus.called, if_true, hover]
  rfl

theorem requesterStep_of_aboutToPresent {k : Nat} {q : List Cmd96} (h : s.aboutToPresent k i q) :
    requesterStep k s = .next { s.setBus i.bus ((s.bus i.bus).presented i k) with requests := s.requests.set k q } := by
  obtain ⟨hk, hr, ht, hi, hv, -, ⟨hb, -, -, ⟨hp, -⟩, -⟩, -⟩ := h
  obtain ⟨hlen, -, -, hrange⟩ := operands_of_violation_none ht hv
  have hwires : (encode i).onWires s.cfg.addrW = encode i := Cmd96.onWires_of_lt (by rw [encode_w2]; omega)
  have hacc : s.accepts i = true := (s.accepts_eq_true_iff i).2 ⟨hb, .inr ⟨(opcode_of_isTransfer ht).1, hp⟩⟩
  calc requesterStep k s
    _ = present i (s.issue k (encode i) q i) := by
      rw [requesterStep_of_decode hk hr (by rw [hwires, decode_encode, checked_of_wf hi]), hwires]
    _ = exec i (s.issue k (encode i) q i) := present_issue_of_answers _ _ _ (State.answers_of_accepts hacc)
    _ = acceptStep i (s.issue k (encode i) q i) :=
      (exec_transfer_phases (s := s.issue k (encode i) q i) ht hi hb).1 (by simpa using hp)
    _ = _ := by
      simp only [acceptStep, State.updBus, State.issue_bus_self, hacc, unpack_encode, Bus.presented_eq hi]
      simp [State.issue, State.updBus]

/-! ## The whole way to `P_WAIT` -/

theorem turnsTo_launched {k : Nat} {q : List Cmd96} (h : s.aboutToPresent k i q) :
    s.turnsTo (.requester k :: List.replicate (if i.stages s.cfg then 6 else 4) (.seq i.bus)) (s.launched i k q) := by
  obtain ⟨-, -, ht, hi, hv, hf, ⟨hb, he, -, ⟨hp, -, -, -, -, -, -, hw⟩, hm⟩, hl⟩ := id h
  let u : State := { s.setBus i.bus ((s.bus i.bus).presented i k) with requests := s.requests.set k q }
  have hpresent : s.turnsTo [.requester k] u := .single fun sch => requesterStep_of_aboutToPresent (s := { s with sched := sch }) h
  have hu : u.bus i.bus = (s.bus i.bus).presented i k := s.bus_setBus_self i.bus _
  let v : State := { s.setBus i.bus ((s.bus i.bus).readied s.cfg i k) with
    requests := s.requests.set k q
    slock := if i.stages s.cfg then .held i.bus else s.slock
    staging := if i.stages s.cfg then i.frame s ++ s.staging.drop (i.frame s).length else s.staging }
  have hready : u.turnsTo (List.replicate (if i.stages s.cfg then 3 else 1) (.seq i.bus)) v := by
    have := State.running.ready (s := u) ⟨ht, hi, hb, by rw [hu]; rfl, by rw [hu]; rfl⟩ hv hf (by rw [hu]; exact hm)
      fun hs => (hl hs).1
    rw [hu, frame_congr i (t := u) (s := s) rfl rfl] at this
    simp only [u, State.setBus_mk, State.setBus_setBus] at this
    exact this
  have hv' : v.bus i.bus = (s.bus i.bus).readied s.cfg i k := s.bus_setBus_self i.bus _
  have hlaunch : v.turnsTo (List.replicate 3 (.seq i.bus)) (s.launched i k q) := by
    have := State.running.launch (s := v) ⟨ht, hi, hb, by rw [hv']; rfl, by rw [hv']; rfl⟩ hv (by rw [hv']; exact he)
      (by rw [hv']; exact hw)
    rw [hv'] at this
    simp only [v, State.setBus_mk, State.setBus_setBus] at this
    exact this
  have hcount : (if i.stages s.cfg then 6 else 4) = (if i.stages s.cfg then 3 else 1) + 3 := by split <;> rfl
  rw [hcount]
  exact hpresent.trans (hready.replicate_add hlaunch)

end Sys2Proof.Machine
end

section
/-! PROOF. From a transfer that has ended on the wire to the return of its command, in the order of `turnsOf`: the handler, then
`FINISH` and the release of the staging lock (42 R131 to R135; 41 R112; 60 R187); and the whole command around what its wire
engine does. -/

namespace Sys2Proof.Machine

/-! ## The turns of `FINISH` and of the handler -/

section
variable {s : State} {i : Instr}

theorem State.running.wait (h : s.running i .wait) (hw : (s.bus i.bus).waitDone = true) :
    s.turnsTo [.seq i.bus] (s.setBus i.bus (s.bus i.bus).wake) :=
  h.finish (.inr (.inl rfl)) fun _ h => finishStep_of_wait h.phase hw

theorem State.running.poll (h : s.running i .poll) (hd : (s.bus i.bus).pollDone = true) :
    s.turnsTo [.seq i.bus] (s.setBus i.bus ((s.bus i.bus).toPhase .ack)) :=
  h.finish (.inr (.inr (.inl rfl))) fun _ h => finishStep_of_poll h.phase hd

theorem State.running.ack (h : s.running i .ack) : s.turnsTo [.seq i.bus] (s.setBus i.bus (s.bus i.bus).ackStopped) :=
  h.finish (.inr (.inr (.inr (.inl rfl)))) fun _ h => finishStep_of_ack h.phase

theorem State.running.classify (h : s.running i .classify) :
    s.turnsTo [.seq i.bus] (s.setBus i.bus (s.bus i.bus).finishClassify) :=
  h.finish (.inr (.inr (.inr (.inr rfl)))) fun _ h => finishStep_of_classify h.phase

theorem State.running.unstage (h : s.running i .unstage) (ho : i.opcode = 4 ∨ i.opcode = 5) :
    s.turnsTo [.seq i.bus] { s.setBus i.bus { s.bus i.bus with
      seq := { (s.bus i.bus).seq with staged := false, phase := .idle }, result := (s.bus i.bus).seq.res.code
      callers := [] } with slock := .free } :=
  h.turn rfl fun _ h => ((exec_staging_phases ho h.wf h.hasBus).2 h.phase).trans (unstageStep_eq _ _)

theorem turnsTo_handler {b : BusId} (h : s.isrEnabled b = true) : s.turnsTo [.isr b] (s.setBus b (s.bus b).handler) :=
  .single fun _ => if_pos h

end

/-! ## From the end of the transfer to the return -/

/-- The transfer on bus `y` is over: at rest on the wire, with an error or as the command awaits it (42 R130, R133). -/
structure Bus.ended (y : Bus) : Prop where
  rest  : y.wire.atRest = true
  event : y.ev.error = true ∨ (y.seq.succ = .stopped ∧ y.ev.stopped = true) ∨
    (y.seq.succ = .lastTx ∧ y.ev.lastTx = true ∧ y.txAmt = y.seq.txn)

/-- The transfer on bus `y` is over, and the command that waits for it has its sources unmasked (42 R131). -/
structure Bus.completed (y : Bus) : Prop extends y.ended where
  enable : y.enable = true
  irqEn  : y.irqEn = true
  inten  : y.inten = IntEn.none.unmask y.seq.succ

/-- The bus after the return of its command: everything acknowledged, the result that the error source gives. -/
def Bus.finished (y : Bus) : Bus :=
  { y with
    inten := IntEn.none, gate := .locked, ev := { y.ev with stopped := false, error := false }, errSrc := ErrSrc.none
    seq := { y.seq with phase := .idle, staged := false, res := y.errSrc.classify }
    result := y.errSrc.classify.code, callers := [] }

/-- An end that is awaited has the handler run, and the poll passes. -/
theorem Bus.completed.irq {y : Bus} (h : y.completed) : y.irq = true := by
  obtain ⟨⟨-, herr | ⟨hs, hev⟩ | ⟨hs, hev, -⟩⟩, -, -, hinten⟩ := h
  · cases hs : y.seq.succ <;> simp [Bus.irq, hinten, hs, IntEn.unmask, herr]
  · simp [Bus.irq, hinten, hs, IntEn.unmask, hev]
  · simp [Bus.irq, hinten, hs, IntEn.unmask, hev]

theorem Bus.completed.pollDone {y : Bus} (h : y.completed) (hs : y.seq.succ = .lastTx) : y.pollDone = true := by
  obtain ⟨⟨-, herr | ⟨hs', -⟩ | ⟨-, -, hamt⟩⟩, -, -, -⟩ := h
  · simp [Bus.pollDone, herr]
  · rw [hs] at hs'; cases hs'
  · simp [Bus.pollDone, hamt]

variable {s : State} {i : Instr}

/-- The handler signals the gate and the sequencer goes on. -/
theorem State.running.wakes (h : s.running i .wait) (hc : (s.bus i.bus).completed) :
    s.turnsTo [.isr i.bus, .seq i.bus] (s.setBus i.bus (s.bus i.bus).handler.wake) := by
  have hisr := turnsTo_handler (s := s) (b := i.bus) (by simp [State.isrEnabled, h.hasBus, hc.irqEn, hc.irq])
  have hwait := (h.setBus (y := (s.bus i.bus).handler) rfl h.phase).wait
    (by simpa [Bus.waitDone, Bus.handler, Bus.signalGate] using hc.enable)
  rw [State.setBus_setBus, State.bus_setBus_self] at hwait
  exact hisr.trans hwait

/-- The poll, in a command that awaits `LASTTX`, and the acknowledge. -/
theorem State.running.acknowledges {noStop : Bool} (h : s.running i (if noStop then .poll else .ack))
    (hd : noStop = true → (s.bus i.bus).pollDone = true) :
    s.turnsTo (List.replicate (if noStop then 2 else 1) (.seq i.bus)) (s.setBus i.bus (s.bus i.bus).ackStopped) := by
  cases noStop
  case false => exact State.running.ack h
  case true =>
    have hpoll := State.running.poll h (hd rfl)
    have hack := (State.running.setBus h (y := (s.bus i.bus).toPhase .ack) rfl rfl).ack
    rw [State.setBus_setBus, State.bus_setBus_self] at hack
    exact hpoll.trans hack

/-- The bus after the return of a command that has been classified. -/
def Bus.returned (x : Bus) : Bus :=
  { x.classified with
    seq := { x.classified.seq with phase := .idle, staged := false }, result := x.errSrc.classify.code, callers := [] }

theorem Bus.finishClassify_of_unstaged {x : Bus} (h : x.seq.staged = false) : x.finishClassify = x.returned := by
  simp [Bus.finishClassify, h, Bus.returned, Bus.ret, Bus.toPhase, Bus.classified]

theorem Bus.finishClassify_of_staged {x : Bus} (h : x.seq.staged = true) : x.finishClassify = x.classified.toPhase .unstage :=
  if_pos h

/-- The classification and, in a command that has staged, the release of the lock. -/
theorem State.running.returns (h : s.running i .classify) (ho : (s.bus i.bus).seq.staged = true → i.opcode = 4 ∨ i.opcode = 5) :
    s.turnsTo (List.replicate (1 + if (s.bus i.bus).seq.staged then 1 else 0) (.seq i.bus))
      { s.setBus i.bus (s.bus i.bus).returned with slock := if (s.bus i.bus).seq.staged then .free else s.slock } := by
  have hclassify := h.classify
  cases hs : (s.bus i.bus).seq.staged
  case false =>
    rw [Bus.finishClassify_of_unstaged hs] at hclassify
    exact hclassify
  case true =>
    rw [Bus.finishClassify_of_staged hs] at hclassify
    have hunstage := (h.setBus (y := (s.bus i.bus).classified.toPhase .unstage) rfl rfl).unstage (ho hs)
    rw [State.setBus_setBus, State.bus_setBus_self] at hunstage
    exact hclassify.trans hunstage

/-- `Bus.finished` is what the handler and `FINISH` do, one step after the other; none of them touches the staged mark. -/
theorem Bus.finished_eq (y : Bus) : y.handler.wake.ackStopped.returned = y.finished := by
  simp only [Bus.handler, Bus.signalGate, Bus.wake, Bus.lockGate, Bus.ackStopped, Bus.classified, Bus.returned, Bus.toPhase,
    Bus.finished]

theorem Bus.handler_wake_ackStopped_staged (y : Bus) : y.handler.wake.ackStopped.seq.staged = y.seq.staged := rfl

/-- From `P_WAIT` to the return, once the transfer has ended. -/
theorem State.running.finishes (h : s.running i .wait) (hc : (s.bus i.bus).completed)
    (hsucc : (s.bus i.bus).seq.succ = if i.noStop then .lastTx else .stopped)
    (hstaged : (s.bus i.bus).seq.staged = i.stages s.cfg) :
    s.turnsTo (.isr i.bus :: List.replicate ((if i.noStop then 4 else 3) + (if i.stages s.cfg then 1 else 0)) (.seq i.bus))
      { s.setBus i.bus (s.bus i.bus).finished with slock := if i.stages s.cfg then .free else s.slock } := by
  have hwake := h.wakes hc
  have hpoll : i.noStop = true → (s.bus i.bus).handler.wake.pollDone = true := fun hn =>
    hc.pollDone (by rw [hsucc, hn]; rfl)
  have hphase : (s.bus i.bus).handler.wake.seq.phase = if i.noStop then .poll else .ack := by
    cases hn : i.noStop <;> simp [Bus.wake, Bus.handler, Bus.signalGate, Bus.lockGate, hsucc, hn]
  have hack := (h.setBus (y := (s.bus i.bus).handler.wake) rfl hphase).acknowledges (by simpa using hpoll)
  have hreturn := (h.setBus (y := (s.bus i.bus).handler.wake.ackStopped) rfl rfl).returns
    fun hs => opcode_of_stages (c := s.cfg) (by
      rwa [State.bus_setBus_self, Bus.handler_wake_ackStopped_staged, hstaged] at hs)
  rw [State.setBus_setBus, State.bus_setBus_self] at hack hreturn
  rw [Bus.handler_wake_ackStopped_staged, hstaged, Bus.finished_eq] at hreturn
  have hcount : 1 + ((if i.noStop then 2 else 1) + (1 + if i.stages s.cfg then 1 else 0)) =
      (if i.noStop then 4 else 3) + (if i.stages s.cfg then 1 else 0) := by split <;> omega
  rw [← hcount, Nat.add_comm 1, List.replicate_succ]
  exact hwake.trans (hack.replicate_add hreturn)

/-! ## The whole command -/

/-- From `x` to `y` what the command has set up is as it was: the wire engine writes none of it (10 R38). -/
structure Bus.commandKept (x y : Bus) : Prop where
  enable : y.enable = x.enable
  irqEn  : y.irqEn = x.irqEn
  inten  : y.inten = x.inten
  seq    : y.seq = x.seq

/-- What an accepted command awaits: the last byte with `NOSTOP`, which a read may not have, else the stop (41 R109). -/
theorem programmed_succ (ht : i.isTransfer = true) (hf : rejected i.rejects i.flags = false) (x : Bus) :
    (i.programmed x).seq.succ = if i.noStop then .lastTx else .stopped := by
  have read {f : Byte} (h : rejected readRejects f = false) : flagNoStop f = false := by
    have hbit := congrArg (fun v : Byte => v.getLsbD 2) ((rejected_eq_false_iff _ _).1 h)
    simpa [readRejects, flagNoStop] using hbit
  cases i
  case init | acquire | release => cases ht
  case write | writeReg => rfl
  case read b f a n p => rw [show Instr.noStop _ = false from read hf]; rfl
  case readReg b f a r n p => rw [show Instr.noStop _ = false from read hf]; rfl

theorem State.blocked_eq_false_iff (s : State) (k : Nat) :
    s.blocked k = false ↔ ∀ b : BusId, (s.bus b).callers.contains k = false := by
  simp [State.blocked]

/-- A command returns when its transfer has ended, with the result that the error source gives: around the turns of the wire
engine, which may have written memory and used free values, its own bus, the staging buffer and the inputs change. -/
theorem State.aboutToPresent.returns {k w : Nat} {q : List Cmd96} {sch : List Turn} {y : Bus} {m : Memory} {d : Nat}
    (h : s.aboutToPresent k i q) (hs : s.sched = turnsOf s.cfg i k w ++ sch)
    (hw : (s.launched i k q).turnsTo (List.replicate w (.wire i.bus))
      { (s.launched i k q).setBus i.bus y with mem := m, draws := d })
    (hk : ((s.launched i k q).bus i.bus).commandKept y) (hy : y.ended) :
    ∃ t : State, Host.Core.run Sys2Proof.core (turnsOf s.cfg i k w).length s = .next t ∧
      s.returned t k i q sch y.errSrc.classify.code ∧ t.mem = m ∧ t.staging = (s.launched i k q).staging ∧
      t.bus i.bus = y.finished := by
  obtain ⟨hblocked, -, ht, hi, -, hf, ⟨hb, he, hirq, ⟨-, hinten, -, -, -, -, hlock, -⟩, -⟩, hl⟩ := id h
  obtain ⟨henable, hirqEn, hmask, hseq⟩ := hk
  let v : State := { (s.launched i k q).setBus i.bus y with mem := m, draws := d }
  have hbus : (s.launched i k q).bus i.bus = ((s.bus i.bus).readied s.cfg i k).launched s.cfg i := s.bus_setBus_self i.bus _
  have hv : v.bus i.bus = y := State.bus_setBus_self _ i.bus y
  rw [hbus] at henable hirqEn hmask hseq
  have hsucc : y.seq.succ = if i.noStop then .lastTx else .stopped := by rw [hseq]; exact programmed_succ ht hf _
  have hrun : v.running i .wait := ⟨ht, hi, hb, by rw [hv, hseq]; rfl, by rw [hv, hseq]; rfl⟩
  have hcompleted : y.completed := ⟨hy, henable.trans he, hirqEn.trans hirq, by
    rw [hmask, hseq, ← hinten]; rfl⟩
  have hfinish := hrun.finishes (hv.symm ▸ hcompleted) (by rw [hv]; exact hsucc) (by rw [hv, hseq]; rfl)
  rw [hv] at hfinish
  let t : State := { v.setBus i.bus y.finished with slock := if i.stages s.cfg then .free else v.slock, sched := sch }
  have hself : t.bus i.bus = y.finished := State.bus_setBus_self _ i.bus _
  have hother : ∀ c, c ≠ i.bus → t.bus c = s.bus c := fun c hc => by simp [t, v, State.launched, hc]
  have hslock : t.slock = s.slock := by
    cases hst : i.stages s.cfg <;> simp only [t, v, State.launched, State.setBus_slock, hst, if_true]
    · rfl
    · exact (hl hst).1.symm
  refine ⟨t, (((turnsTo_launched h).trans hw).trans hfinish).run hs, ⟨rfl, rfl, ?blocked, by rw [hself]; rfl, ?recovered, hslock,
    rfl, fun hst => by simp [t, v, State.launched, hst], hother⟩, rfl, rfl, hself⟩
  case blocked =>
    rw [State.blocked_eq_false_iff] at hblocked ⊢
    intro c
    by_cases hc : c = i.bus
    · rw [hc, hself]; rfl
    · rw [hother c hc]; exact hblocked c
  case recovered =>
    rw [State.recovered, hself, hslock]
    exact ⟨rfl, rfl, rfl, rfl, rfl, rfl, hlock, hy.rest⟩

end Sys2Proof.Machine
end

section
/-! PROOF. The wire engine, step by step: what it does in each phase for each answer of the slave (43 R152 to R157, R160), and
the runs of such steps: a frame transmitted up to a byte, up to its last byte, and a payload received. -/

namespace Sys2Proof.Machine

/-! ## The NACK rule, with its free value named -/

/-- The stop after a NACK, by `NACK_STOP` and, under `either`, the `n`-th free value (43 R160; log entry 8). -/
def nackStops (c : Config) (n : Nat) : Bool :=
  match c.nackStop with
  | .stop => true
  | .hold => false
  | .either => Config.freeBit n

/-- The count of free values after a NACK. -/
def nackDraws (c : Config) (n : Nat) : Nat :=
  match c.nackStop with
  | .stop | .hold => n
  | .either => n + 1

theorem nackStops_of_fixed (c : Config) (n : Nat) :
    (c.nackStop = .stop → nackStops c n = true) ∧ (c.nackStop = .hold → nackStops c n = false) := by
  constructor <;> intro h <;> simp [nackStops, h]

theorem State.nack_setBus_self (s : State) (b : BusId) (x : Bus) (k : NackKind) : (s.setBus b x).nack b k =
    { s.setBus b (x.nacked k (nackStops s.cfg s.draws)) with draws := nackDraws s.cfg s.draws } := by
  unfold State.nack nackStops nackDraws Bus.nacked
  cases hc : s.cfg.nackStop <;> simp only [State.updBus, State.bus_setBus_self, State.setBus_setBus, State.setBus_cfg, hc]
  case stop | hold => rfl
  case either => rfl

theorem State.dataNack_setBus_self (s : State) (b : BusId) (x : Bus) (i : Nat) : (s.setBus b x).dataNack b i =
    { s.setBus b (Bus.nacked { x with txAmt := BitVec.ofNat 8 (if Config.freeBit s.draws then i else i + 1) } .dnack
        (nackStops s.cfg (s.draws + 1))) with draws := nackDraws s.cfg (s.draws + 1) } := by
  simp only [State.dataNack, State.updBus, State.bus_setBus_self, State.setBus_setBus]
  exact State.nack_setBus_self { s with draws := s.draws + 1 } b _ .dnack

/-! ## One step -/

section
variable {s : State} {b : BusId} {x : Bus} (hx : s.bus b = x) (hb : s.hasBus b = true) (he : x.enable = true)
include hx hb he

theorem wireStep_address (hp : x.wire.phase = .txAddr ∨ x.wire.phase = .rxAddr) :
    wireStep b s = addressStep b s := by
  subst hx
  rcases hp with hp | hp <;> simp [wireStep, hb, he, hp]

/-- The address is acknowledged. -/
theorem wireStep_addressAck {rest : List Answer} (hp : x.wire.phase = .txAddr ∨ x.wire.phase = .rxAddr)
    (ha : x.acks = .ack :: rest) :
    wireStep b s = .next (s.setBus b { x.addressed .ack rest with
      wire := ⟨if x.wire.phase = .txAddr then .tx else .rx, x.wire.idx, true⟩ }) := by
  subst hx
  rw [wireStep_address rfl hb he hp, addressStep, ha]
  rfl

/-- The address is not acknowledged. -/
theorem wireStep_addressNack {rest : List Answer} (hp : x.wire.phase = .txAddr ∨ x.wire.phase = .rxAddr)
    (ha : x.acks = .nack :: rest) :
    wireStep b s = .next { s.setBus b ((x.addressed .nack rest).nacked .anack (nackStops s.cfg s.draws)) with
      draws := nackDraws s.cfg s.draws } := by
  subst hx
  rw [wireStep_address rfl hb he hp, addressStep, ha]
  exact congrArg Host.Outcome.next (State.nack_setBus_self s b _ .anack)

/-- A byte that is not the last is acknowledged. -/
theorem wireStep_byteAck {rest : List Answer} {v : Byte} (hp : x.wire.phase = .tx)
    (hi : x.wire.idx + 1 < x.txCnt.toNat) (ha : x.acks = .ack :: rest)
    (hv : s.txByte b x.wire.idx = .ok v) :
    wireStep b s = .next (s.setBus b { x.sendByte v .ack rest with
      txAmt := BitVec.ofNat 8 (x.wire.idx + 1), wire := { x.wire with idx := x.wire.idx + 1 } }) := by
  subst hx
  simp [wireStep, hb, he, hp, hi, txByteStep, ha, hv]

/-- The byte to send is the last. -/
theorem wireStep_lastBegins (hp : x.wire.phase = .tx) (hi : x.wire.idx + 1 = x.txCnt.toNat) :
    wireStep b s = .next (s.setBus b { x with
      ev := { x.ev with lastTx := true }, wire := { x.wire with phase := .txLast } }) := by
  subst hx
  simp [wireStep, hb, he, hp, hi, lastBegins, State.updBus]

/-- The last byte is acknowledged, and the armed short acts. -/
theorem wireStep_lastAck {rest : List Answer} {v : Byte} {y : Bus} (hp : x.wire.phase = .txLast)
    (h0 : 0 < x.txCnt.toNat) (ha : x.acks = .ack :: rest)
    (hv : s.txByte b (x.txCnt.toNat - 1) = .ok v)
    (hy : Bus.afterTransmit { x.sendByte v .ack rest with txAmt := x.txCnt } = .ok y) :
    wireStep b s = .next (s.setBus b y) := by
  subst hx
  have h0' : (s.bus b).txCnt ≠ 0 := fun e => by simp [e] at h0
  have hlast : wireStep b s = lastEnds b s := by simp [wireStep, hb, he, hp]
  rw [hlast, lastEnds, ha]
  simp only [if_neg h0', hv, hy]

/-- A byte, the last or not, is not acknowledged. -/
theorem wireStep_byteNack {rest : List Answer} {v : Byte} {i : Nat}
    (hp : x.wire.phase = .tx ∧ i = x.wire.idx ∧ i + 1 < x.txCnt.toNat ∨
      x.wire.phase = .txLast ∧ i + 1 = x.txCnt.toNat)
    (ha : x.acks = .nack :: rest) (hv : s.txByte b i = .ok v) :
    wireStep b s = .next { s.setBus b (Bus.nacked { x.sendByte v .nack rest with
      txAmt := BitVec.ofNat 8 (if Config.freeBit s.draws then i else i + 1) } .dnack (nackStops s.cfg (s.draws + 1))) with
      draws := nackDraws s.cfg (s.draws + 1) } := by
  subst hx
  rw [← State.dataNack_setBus_self]
  rcases hp with ⟨hp, rfl, hi⟩ | ⟨hp, hi⟩
  · simp [wireStep, hb, he, hp, hi, txByteStep, ha, hv]
  · have h0 : (s.bus b).txCnt ≠ 0 := fun e => by simp [e] at hi
    have hlast : wireStep b s = lastEnds b s := by simp [wireStep, hb, he, hp]
    obtain rfl : i = (s.bus b).txCnt.toNat - 1 := by omega
    rw [hlast, lastEnds, ha]
    simp only [if_neg h0, hv]

/-- A byte is received that is not the last. -/
theorem wireStep_received {rest : List Byte} {v : Byte} (hp : x.wire.phase = .rx)
    (hi : x.wire.idx + 1 < x.rxCnt.toNat) (hd : x.rxData = v :: rest) :
    wireStep b s = .next { s.setBus b { x with
        wlog := x.wlog ++ [.data v], rxData := rest, wire := { x.wire with idx := x.wire.idx + 1 } } with
      mem := Memory.write s.mem (Config.byteAddr s.cfg x.rxPtr x.wire.idx) v } := by
  subst hx
  simp [wireStep, hb, he, hp, rxStep, hd, hi, State.storeReceived, Bus.emit]

/-- The last byte is received, with `LRX_STOP` armed. -/
theorem wireStep_receivedLast {rest : List Byte} {v : Byte} (hp : x.wire.phase = .rx)
    (hi : x.wire.idx + 1 = x.rxCnt.toNat) (hd : x.rxData = v :: rest)
    (hl : x.shorts.lrxStop = true) :
    wireStep b s = .next { s.setBus b { x with
        wlog := x.wlog ++ [.data v, .stop], rxData := rest
        ev := { x.ev with lastRx := true, stopped := true }, wire := ⟨.idle, 0, false⟩ } with
      mem := Memory.write s.mem (Config.byteAddr s.cfg x.rxPtr x.wire.idx) v } := by
  subst hx
  simp [wireStep, hb, he, hp, rxStep, hd, hi, hl, State.storeReceived, Bus.emit, State.updBus, Bus.stop]

end

/-! ## A frame is transmitted -/

/-- A step of the wire engine, which does not depend on the schedule, is a turn. -/
theorem turnsTo_wire {s t : State} {b : BusId} (h : ∀ sch, wireStep b { s with sched := sch } = .next { t with sched := sch }) :
    s.turnsTo [.wire b] t := .single h

/-- The byte of a source is that of the bus's pointer and register buffer, whatever else of the bus has changed. -/
theorem State.txByte_setBus_self (s : State) (b : BusId) {y : Bus} (hp : y.txPtr = (s.bus b).txPtr)
    (hr : y.regBuf = (s.bus b).regBuf) (k : Nat) : (s.setBus b y).txByte b k = s.txByte b k := by
  simp [State.txByte, State.stagingByte, hp, hr]

/-- The bus of a transmit whose address and first `j` bytes have been acknowledged. -/
def Bus.sent (x : Bus) (frame : List Byte) (j : Nat) (rest : List Answer) : Bus :=
  { x with
    wlog := x.wlog ++ addressLog x.wire.held x.address .write ++ sentLog (frame.take j), acks := rest
    txAmt := if j = 0 then x.txAmt else BitVec.ofNat 8 j, wire := ⟨.tx, j, true⟩ }

/-- The bus of a transmit whose byte `j` is the next symbol: the last byte has begun if it is that one (43 R154). -/
def Bus.sending (x : Bus) (frame : List Byte) (j : Nat) (rest : List Answer) : Bus :=
  if j + 1 = frame.length then
    { x.sent frame j rest with ev := { x.ev with lastTx := true }, wire := ⟨.txLast, j, true⟩ }
  else x.sent frame j rest

/-- The bus of a transmit whose whole frame has been acknowledged, before the short. -/
def Bus.transmitted (x : Bus) (frame : List Byte) (rest : List Answer) : Bus :=
  { x with
    wlog := x.wlog ++ addressLog x.wire.held x.address .write ++ sentLog frame, acks := rest, txAmt := x.txCnt
    ev := { x.ev with lastTx := true }, wire := ⟨.txLast, frame.length - 1, true⟩ }

theorem Bus.sent_zero (x : Bus) (frame : List Byte) (rest : List Answer) (hp : x.wire.phase = .txAddr) (hi : x.wire.idx = 0) :
    x.sent frame 0 rest = { x.addressed .ack rest with
      wire := ⟨if x.wire.phase = .txAddr then .tx else .rx, x.wire.idx, true⟩ } := by
  simp [Bus.sent, Bus.addressed, Bus.emit, Bus.addressSyms, addressLog, sentLog, Wire.dir, hp, hi]

theorem sentLog_append (l m : List Byte) : sentLog (l ++ m) = sentLog l ++ sentLog m := List.flatMap_append

/-- The log of one byte more. -/
theorem sentLog_take_succ {frame : List Byte} {j : Nat} {d : Byte} (hd : frame[j]? = some d) :
    sentLog (frame.take (j + 1)) = sentLog (frame.take j) ++ [.data d, .answer .ack] := by
  rw [List.take_add_one, hd, sentLog_append]
  rfl

theorem Bus.sent_succ (x : Bus) {frame : List Byte} {j : Nat} {d : Byte} (rest : List Answer) (hd : frame[j]? = some d) :
    x.sent frame (j + 1) rest = { (x.sent frame j (.ack :: rest)).sendByte d .ack rest with
      txAmt := BitVec.ofNat 8 (j + 1), wire := ⟨.tx, j + 1, true⟩ } := by
  simp [Bus.sent, Bus.sendByte, Bus.emit, sentLog_take_succ hd]

/-- A transmit of `frame` is about to run on bus `b`: its start task has been triggered, its source supplies the frame. -/
structure State.transmits (s : State) (b : BusId) (frame : List Byte) : Prop where
  hasBus : s.hasBus b = true
  enable : (s.bus b).enable = true
  phase  : (s.bus b).wire.phase = .txAddr
  idx    : (s.bus b).wire.idx = 0
  count  : (s.bus b).txCnt.toNat = frame.length
  source : ∀ k d, frame[k]? = some d → s.txByte b k = .ok d

variable {s : State} {b : BusId} {frame : List Byte} {j : Nat} {rest : List Answer} {x : Bus} {d : Byte}

/-- The address and `j` bytes, all before the last byte, are acknowledged. -/
theorem State.transmits.sent (h : s.transmits b frame) (hx : s.bus b = x) (hj : j < frame.length)
    (ha : x.acks = List.replicate (j + 1) .ack ++ rest) :
    s.turnsTo (List.replicate (j + 1) (.wire b)) (s.setBus b (x.sent frame j rest)) := by
  obtain ⟨hb, he, hp, hi, hcount, hsource⟩ := id h
  rw [hx] at he hp hi hcount
  induction j generalizing rest with
  | zero =>
    refine turnsTo_wire fun sch => ?_
    rw [wireStep_addressAck (s := { s with sched := sch }) hx hb he (.inl hp) ha, Bus.sent_zero x frame rest hp hi]
    rfl
  | succ j ih =>
    have hd : frame[j]? = some frame[j] := List.getElem?_eq_getElem (by omega)
    have hprev := ih (rest := .ack :: rest) (by omega) (by rw [ha, List.replicate_succ', List.append_assoc]; rfl)
    have hbyte : (s.setBus b (x.sent frame j (.ack :: rest))).txByte b j = .ok frame[j] :=
      (s.txByte_setBus_self b (by rw [hx]; rfl) (by rw [hx]; rfl) j).trans (hsource j _ hd)
    have hstep : (s.setBus b (x.sent frame j (.ack :: rest))).turnsTo [.wire b] (s.setBus b (x.sent frame (j + 1) rest)) :=
      turnsTo_wire fun sch => by
        rw [wireStep_byteAck (s := { s.setBus b (x.sent frame j (.ack :: rest)) with sched := sch }) (s.bus_setBus_self b _) hb he
          rfl (show j + 1 < x.txCnt.toNat by omega) rfl hbyte, x.sent_succ rest hd]
        simp only [State.setBus_mk, State.setBus_setBus]
        rfl
    exact hprev.replicate_add hstep

/-- The turns of the wire engine before byte `j`: the address, the bytes before it, and the begin of the last byte. -/
def turnsBefore (frame : List Byte) (j : Nat) : Nat := j + 1 + if j + 1 = frame.length then 1 else 0

/-- Byte `j` is the next symbol. -/
theorem State.transmits.sending (h : s.transmits b frame) (hx : s.bus b = x) (hj : j < frame.length)
    (ha : x.acks = List.replicate (j + 1) .ack ++ rest) :
    s.turnsTo (List.replicate (turnsBefore frame j) (.wire b)) (s.setBus b (x.sending frame j rest)) := by
  have hsent := h.sent hx hj ha
  obtain ⟨hb, he, -, -, hcount, -⟩ := h
  rw [hx] at he hcount
  unfold turnsBefore Bus.sending
  by_cases hlast : j + 1 = frame.length
  case neg => simpa only [if_neg hlast] using hsent
  case pos =>
    simp only [if_pos hlast]
    have hstep : (s.setBus b (x.sent frame j rest)).turnsTo [.wire b] (s.setBus b { x.sent frame j rest with
        ev := { x.ev with lastTx := true }, wire := ⟨.txLast, j, true⟩ }) := turnsTo_wire fun sch => by
      rw [wireStep_lastBegins (s := { s.setBus b (x.sent frame j rest) with sched := sch }) (s.bus_setBus_self b _) hb he rfl
        (hlast.trans hcount.symm)]
      simp only [State.setBus_mk, State.setBus_setBus]
      rfl
    exact hsent.replicate_add hstep

/-- What the bytes before byte `j` leave of the bus, and the answer that comes next. -/
theorem Bus.sending_fields (x : Bus) (frame : List Byte) (j : Nat) (rest : List Answer) :
    (x.sending frame j rest).enable = x.enable ∧ (x.sending frame j rest).txCnt = x.txCnt ∧
    (x.sending frame j rest).txPtr = x.txPtr ∧ (x.sending frame j rest).regBuf = x.regBuf ∧
    (x.sending frame j rest).acks = rest := by
  unfold Bus.sending
  split <;> exact ⟨rfl, rfl, rfl, rfl, rfl⟩

theorem Bus.sending_phase (x : Bus) (rest : List Answer) (hj : j < frame.length) :
    (x.sending frame j rest).wire.phase = .tx ∧ j = (x.sending frame j rest).wire.idx ∧ j + 1 < frame.length ∨
    (x.sending frame j rest).wire.phase = .txLast ∧ j + 1 = frame.length := by
  unfold Bus.sending
  split
  · exact .inr ⟨rfl, ‹_›⟩
  · exact .inl ⟨rfl, rfl, by omega⟩

/-- The bus of a transmit whose byte `j`, the last or not, has not been acknowledged, before the NACK rule: `TXAMT` is `j` or
`j + 1`, by a free bit (43 R153, R155). -/
def Bus.unacked (x : Bus) (frame : List Byte) (j : Nat) (d : Byte) (rest : List Answer) (free : Bool) : Bus :=
  { (x.sending frame j (.nack :: rest)).sendByte d .nack rest with txAmt := BitVec.ofNat 8 (if free then j else j + 1) }

/-- The first `j` bytes are acknowledged, byte `j` is not. -/
theorem State.transmits.nacked (h : s.transmits b frame) (hx : s.bus b = x) (hd : frame[j]? = some d)
    (ha : x.acks = List.replicate (j + 1) .ack ++ .nack :: rest) :
    s.turnsTo (List.replicate (turnsBefore frame j + 1) (.wire b)) { s.setBus b ((x.unacked frame j d rest
      (Config.freeBit s.draws)).nacked .dnack (nackStops s.cfg (s.draws + 1))) with
      draws := nackDraws s.cfg (s.draws + 1) } := by
  obtain ⟨hj, -⟩ := List.getElem?_eq_some_iff.1 hd
  have hsending := h.sending hx hj ha
  obtain ⟨hb, he, -, -, hcount, hsource⟩ := h
  obtain ⟨henable, htxCnt, htxPtr, hregBuf, hacks⟩ := x.sending_fields frame j (.nack :: rest)
  have hphase := x.sending_phase (.nack :: rest) hj
  rw [hx] at he hcount
  rw [← hcount, ← htxCnt] at hphase
  have hbyte := (s.txByte_setBus_self b (by rw [hx, htxPtr]) (by rw [hx, hregBuf]) j).trans (hsource j d hd)
  have hstep : (s.setBus b (x.sending frame j (.nack :: rest))).turnsTo [.wire b] { s.setBus b ((x.unacked frame j d rest
      (Config.freeBit s.draws)).nacked .dnack (nackStops s.cfg (s.draws + 1))) with
      draws := nackDraws s.cfg (s.draws + 1) } := turnsTo_wire fun sch => by
    rw [wireStep_byteNack (s := { s.setBus b (x.sending frame j (.nack :: rest)) with sched := sch }) (s.bus_setBus_self b _) hb
      (henable.trans he) hphase hacks hbyte]
    simp only [State.setBus_mk, State.setBus_setBus]
    rfl
  exact hsending.replicate_add hstep

/-- After the last byte the bus is that of the whole frame transmitted, before the short. -/
theorem Bus.transmitted_eq (x : Bus) (rest : List Answer) (h0 : 0 < frame.length) (hd : frame[frame.length - 1]? = some d) :
    x.transmitted frame rest = { (x.sending frame (frame.length - 1) (.ack :: rest)).sendByte d .ack rest with
      txAmt := x.txCnt } := by
  have hlast : frame.length - 1 + 1 = frame.length := by omega
  have hlog := sentLog_take_succ hd
  rw [hlast, List.take_length] at hlog
  simp [Bus.transmitted, Bus.sending, hlast, Bus.sent, Bus.sendByte, Bus.emit, hlog]

/-- The whole frame is acknowledged, and the armed short has acted. -/
theorem State.transmits.acked {y : Bus} (h : s.transmits b frame) (hx : s.bus b = x) (h0 : 0 < frame.length)
    (ha : x.acks = List.replicate (frame.length + 1) .ack ++ rest)
    (hy : (x.transmitted frame rest).afterTransmit = .ok y) :
    s.turnsTo (List.replicate (frame.length + 2) (.wire b)) (s.setBus b y) := by
  have hlast : frame.length - 1 + 1 = frame.length := by omega
  have hd : frame[frame.length - 1]? = some frame[frame.length - 1] := List.getElem?_eq_getElem (by omega)
  have hsending := h.sending (j := frame.length - 1) (rest := .ack :: rest) hx (by omega) (by
    rw [ha, List.replicate_succ', List.append_assoc, hlast]; rfl)
  obtain ⟨hb, he, -, -, hcount, hsource⟩ := h
  obtain ⟨henable, htxCnt, htxPtr, hregBuf, hacks⟩ := x.sending_fields frame (frame.length - 1) (.ack :: rest)
  rw [hx] at he hcount
  have hbyte := (s.txByte_setBus_self b (by rw [hx, htxPtr]) (by rw [hx, hregBuf]) _).trans (hsource _ _ hd)
  have hstep : (s.setBus b (x.sending frame (frame.length - 1) (.ack :: rest))).turnsTo [.wire b] (s.setBus b y) :=
    turnsTo_wire fun sch => by
      rw [wireStep_lastAck (s := { s.setBus b (x.sending frame (frame.length - 1) (.ack :: rest)) with sched := sch })
        (s.bus_setBus_self b _) hb (henable.trans he) (by simp [Bus.sending, hlast]) (by rw [htxCnt]; omega) hacks
        (by rw [htxCnt, hcount]; exact hbyte) (by rw [htxCnt, ← Bus.transmitted_eq x rest h0 hd]; exact hy)]
      simp only [State.setBus_mk, State.setBus_setBus]
      rfl
  have hcountTurns : turnsBefore frame (frame.length - 1) + 1 = frame.length + 2 := by simp [turnsBefore, hlast]
  rw [← hcountTurns]
  exact hsending.replicate_add hstep

/-! ## An address is not acknowledged -/

theorem turnsTo_addressNack (hb : s.hasBus b = true) (hx : s.bus b = x) (he : x.enable = true)
    (hp : x.wire.phase = .txAddr ∨ x.wire.phase = .rxAddr) (ha : x.acks = .nack :: rest) :
    s.turnsTo [.wire b] { s.setBus b ((x.addressed .nack rest).nacked .anack (nackStops s.cfg s.draws)) with
      draws := nackDraws s.cfg s.draws } := turnsTo_wire fun sch => by
  rw [wireStep_addressNack (s := { s with sched := sch }) hx hb he hp ha]
  rfl

/-! ## A payload is received -/

/-- Memory after bytes have been received, in address order, from offset `k` of `p` on (43 R157). -/
def Memory.receive (c : Config) (p k : Nat) (m : Memory) : List Byte → Memory
  | [] => m
  | d :: data => Memory.receive c p (k + 1) (Memory.write m (Config.byteAddr c p k) d) data

/-- Every byte outside the range that has been received is as it was. -/
theorem Memory.read_receive_of_outside (c : Config) (p k : Nat) (m : Memory) (data : List Byte) {a : Nat}
    (hr : p + k + data.length ≤ 2 ^ c.addrW) (ha : a < p + k ∨ p + k + data.length ≤ a) :
    Memory.read (Memory.receive c p k m data) a = Memory.read m a := by
  induction data generalizing k m with
  | nil => rfl
  | cons d data ih =>
    rw [List.length_cons] at hr ha
    rw [Memory.receive, ih (k + 1) _ (by omega) (by omega), Config.byteAddr_eq c p k (k + 1) (by omega) (by omega)]
    exact Memory.read_write_ne m _ _ d (by omega)

/-- The bytes that have been received are in the destination, in order. -/
theorem Memory.read_receive (c : Config) (p k : Nat) (m : Memory) (data : List Byte) (hm : Memory.wf m = true)
    (hr : p + k + data.length ≤ 2 ^ c.addrW) {j : Nat} {d : Byte} (hd : data[j]? = some d) :
    Memory.read (Memory.receive c p k m data) (p + k + j) = d := by
  induction data generalizing k m j with
  | nil => cases hd
  | cons e data ih =>
    rw [List.length_cons] at hr
    rw [Memory.receive]
    have hm' := Memory.write_wf m (Config.byteAddr c p k) e hm
    cases j with
    | zero =>
      rw [Memory.read_receive_of_outside c p (k + 1) _ data (by omega) (by omega),
        Config.byteAddr_eq c p k (k + 1) (by omega) (by omega)]
      exact (Memory.read_write_self m _ e hm).trans (Option.some.inj hd)
    | succ j =>
      have := ih (k + 1) _ hm' (by omega) hd
      rwa [show p + (k + 1) + j = p + k + (j + 1) by omega] at this

/-- The bus of a receive that has ended in the stop. -/
def Bus.received (x : Bus) (data restD : List Byte) : Bus :=
  { x with
    wlog := x.wlog ++ data.map .data ++ [.stop], rxData := restD
    ev := { x.ev with lastRx := true, stopped := true }, wire := ⟨.idle, 0, false⟩ }

/-- The bytes of a receive, and the stop. -/
theorem turnsTo_received {data restD : List Byte} (hb : s.hasBus b = true) (hx : s.bus b = x) (he : x.enable = true)
    (hp : x.wire.phase = .rx) (h0 : data ≠ []) (hi : x.wire.idx + data.length = x.rxCnt.toNat) (hl : x.shorts.lrxStop = true)
    (hd : x.rxData = data ++ restD) :
    s.turnsTo (List.replicate data.length (.wire b)) { s.setBus b (x.received data restD) with
      mem := Memory.receive s.cfg x.rxPtr x.wire.idx s.mem data } := by
  induction data generalizing s x with
  | nil => exact absurd rfl h0
  | cons d data ih =>
    rw [List.length_cons] at hi ⊢
    cases data with
    | nil =>
      refine turnsTo_wire fun sch => ?_
      rw [wireStep_receivedLast (s := { s with sched := sch }) hx hb he hp hi hd hl]
      simp only [Bus.received, List.map_cons, List.map_nil, List.append_assoc, List.singleton_append]
      rfl
    | cons e data =>
      rw [List.length_cons] at hi
      let y : Bus := { x with
        wlog := x.wlog ++ [.data d], rxData := e :: data ++ restD, wire := { x.wire with idx := x.wire.idx + 1 } }
      let u : State := { s.setBus b y with mem := Memory.write s.mem (Config.byteAddr s.cfg x.rxPtr x.wire.idx) d }
      have hstep : s.turnsTo [.wire b] u := turnsTo_wire fun sch => by
        rw [wireStep_received (s := { s with sched := sch }) hx hb he hp (by omega) hd]
        rfl
      have hrest := ih (s := u) (x := y) hb (s.bus_setBus_self b y) he hp (List.cons_ne_nil e data)
        (by rw [List.length_cons]; simp only [y]; omega) hl rfl
      have hend : y.received (e :: data) restD = x.received (d :: e :: data) restD := by
        simp [y, Bus.received]
      rw [hend] at hrest
      simp only [u, State.setBus_mk, State.setBus_setBus] at hrest
      rw [Nat.add_comm]
      exact hstep.replicate_add (n := 1) hrest

/-- The bus of a receive, the address phase with it, that has ended in the stop. -/
def Bus.readOut (x : Bus) (data : List Byte) (restA : List Answer) (restD : List Byte) : Bus :=
  { x with
    wlog := x.wlog ++ addressLog x.wire.held x.address .read ++ data.map .data ++ [.stop], acks := restA, rxData := restD
    ev := { x.ev with lastRx := true, stopped := true }, wire := ⟨.idle, 0, false⟩ }

theorem Bus.readOut_eq (x : Bus) (data : List Byte) (restA : List Answer) (restD : List Byte) (hp : x.wire.phase = .rxAddr) :
    x.readOut data restA restD = Bus.received { x.addressed .ack restA with
      wire := ⟨if x.wire.phase = .txAddr then .tx else .rx, x.wire.idx, true⟩ } data restD := by
  simp [Bus.readOut, Bus.received, Bus.addressed, Bus.emit, Bus.addressSyms, addressLog, Wire.dir, hp]

/-- A receive: the address, the bytes and the stop. -/
theorem turnsTo_readOut {data : List Byte} {restA : List Answer} {restD : List Byte} (hb : s.hasBus b = true) (hx : s.bus b = x)
    (he : x.enable = true) (hp : x.wire.phase = .rxAddr) (hi : x.wire.idx = 0) (h0 : data ≠ [])
    (hn : data.length = x.rxCnt.toNat) (hl : x.shorts.lrxStop = true) (ha : x.acks = .ack :: restA)
    (hd : x.rxData = data ++ restD) :
    s.turnsTo (List.replicate (data.length + 1) (.wire b)) { s.setBus b (x.readOut data restA restD) with
      mem := Memory.receive s.cfg x.rxPtr 0 s.mem data } := by
  rw [x.readOut_eq data restA restD hp]
  generalize hy : ({ x.addressed .ack restA with
    wire := ⟨if x.wire.phase = .txAddr then .tx else .rx, x.wire.idx, true⟩ } : Bus) = y
  have haddress : s.turnsTo [.wire b] (s.setBus b y) := turnsTo_wire fun sch => by
    rw [wireStep_addressAck (s := { s with sched := sch }) hx hb he (.inr hp) ha, hy]
    rfl
  have hdata := turnsTo_received (s := s.setBus b y) (x := y) (data := data) (restD := restD) hb (s.bus_setBus_self b y)
    (by rw [← hy]; exact he) (by simp [← hy, hp]) h0 (by rw [← hy]; simp only [hi]; rw [Nat.zero_add]; exact hn)
    (by rw [← hy]; exact hl) (by rw [← hy]; exact hd)
  rw [State.setBus_setBus, show y.wire.idx = 0 by rw [← hy]; exact hi, show y.rxPtr = x.rxPtr by rw [← hy]; rfl] at hdata
  rw [Nat.add_comm]
  exact haddress.replicate_add (n := 1) hdata

end Sys2Proof.Machine
end

section
/-! PROOF. What the wire engine finds when it starts: the registers that the command has programmed, the answers and the log as
they were before the command, and the bytes that its source supplies (41 R105 to R109; 20 R55). -/

namespace Sys2Proof

/-- The shorts that an operation arms (41 R109, R107, R108). -/
def Instr.shorts : Instr → Machine.Shorts
  | .init _ | .acquire _ | .release _ => Machine.Shorts.none
  | .write _ f _ _ _ | .writeReg _ f _ _ _ _ => if Machine.flagNoStop f then Machine.Shorts.none else Machine.Shorts.ltxStopOnly
  | .read _ _ _ _ _ => Machine.Shorts.lrxStopOnly
  | .readReg _ _ _ _ _ _ => Machine.Shorts.writeThenRead

end Sys2Proof

namespace Sys2Proof.Machine

variable {s : State} {i : Instr} {k : Nat} {q : List Cmd96}

/-- `y` is the bus of the transfer `i` whose start task has been triggered, on a bus that was `x` before the command. -/
structure Bus.startedFrom (x y : Bus) (i : Instr) : Prop where
  enable  : y.enable = true
  address : y.address = i.target
  shorts  : y.shorts = i.shorts
  wire    : y.wire = ⟨if i.opcode = 6 then .rxAddr else .txAddr, 0, x.wire.held⟩
  succ    : y.seq.succ = if i.noStop then .lastTx else .stopped
  txn     : i.opcode = 4 ∨ i.opcode = 5 → y.seq.txn = y.txCnt
  errSrc  : y.errSrc = ErrSrc.none
  wlog    : y.wlog = x.wlog
  acks    : y.acks = x.acks
  rxData  : y.rxData = x.rxData

/-- What the rows of the dispatch table have in common. -/
theorem programmed_fields (ht : i.isTransfer = true) (x : Bus) :
    (i.programmed x).address = i.target ∧ (i.programmed x).shorts = i.shorts ∧
    (i.opcode = 4 ∨ i.opcode = 5 → (i.programmed x).seq.txn = (i.programmed x).txCnt) := by
  cases i
  case init | acquire | release => cases ht
  case write | writeReg => exact ⟨rfl, rfl, fun _ => rfl⟩
  case read | readReg => exact ⟨rfl, rfl, fun h => by simp [Instr.opcode] at h⟩

theorem State.launched_bus : (s.launched i k q).bus i.bus = ((s.bus i.bus).readied s.cfg i k).launched s.cfg i :=
  s.bus_setBus_self i.bus _

theorem State.aboutToPresent.startedFrom (h : s.aboutToPresent k i q) :
    (s.bus i.bus).startedFrom ((s.launched i k q).bus i.bus) i := by
  obtain ⟨-, -, ht, -, -, hf, ⟨-, he, -, ⟨-, -, -, -, -, herr, -, -⟩, -⟩, -⟩ := h
  rw [State.launched_bus]
  generalize s.bus i.bus = x at he herr
  obtain ⟨haddress, hshorts, htxn⟩ := programmed_fields ht (x.readied s.cfg i k)
  exact ⟨he, haddress, hshorts, rfl, programmed_succ ht hf _, htxn, herr, rfl, rfl, rfl⟩

/-! ## The source -/

/-- The bytes of a payload are those at its source. -/
theorem State.txByte_of_mem {t : State} {b : BusId} {p n : Nat} (hp : (t.bus b).txPtr = .mem p) (hm : t.mem = s.mem)
    (hc : t.cfg = s.cfg) {j : Nat} {d : Byte} (hd : (s.memBytes p n)[j]? = some d) : t.txByte b j = .ok d := by
  obtain ⟨hj, hd⟩ := List.getElem?_eq_some_iff.1 hd
  simp only [State.memBytes, List.getElem_map, List.getElem_range] at hd
  simp [State.txByte, hp, hm, hc, hd]

/-- The bytes of a frame are those at the head of the staging buffer. -/
theorem State.txByte_of_staging {t : State} {b : BusId} {frame tail : List Byte} (hp : (t.bus b).txPtr = .staging)
    (hst : t.staging = frame ++ tail) {j : Nat} {d : Byte} (hd : frame[j]? = some d) : t.txByte b j = .ok d := by
  obtain ⟨hj, -⟩ := List.getElem?_eq_some_iff.1 hd
  simp [State.txByte, hp, State.stagingByte, hst, List.getElem?_append_left hj, hd]

/-- The register bytes are those of the register buffer (10 R32). -/
theorem State.txByte_of_regBuf {t : State} {b : BusId} {x : RegBuf} {f : Byte} {r : Half} (hp : (t.bus b).txPtr = .regBuf)
    (hr : (t.bus b).regBuf = x.fill f r) {j : Nat} {d : Byte} (hd : (regBytes f r)[j]? = some d) : t.txByte b j = .ok d := by
  obtain ⟨hj, -⟩ := List.getElem?_eq_some_iff.1 hd
  simp only [State.txByte, hp, hr]
  unfold regBytes at hd hj
  unfold RegBuf.fill
  cases hf : flagReg16 f <;> simp only [hf] at hd hj ⊢
  case false =>
    match j with
    | 0 => exact congrArg Except.ok (Option.some.inj hd)
  case true =>
    match j with
    | 0 | 1 => exact congrArg Except.ok (Option.some.inj hd)

/-- A transfer that transmits finds its frame at its source. -/
theorem State.aboutToPresent.transmits (h : s.aboutToPresent k i q) (ho : i.opcode ≠ 6) :
    (s.launched i k q).transmits i.bus (i.frame s) := by
  obtain ⟨henable, -, -, hwire, -, -, -, -, -, -⟩ := h.startedFrom
  obtain ⟨-, -, ht, -, hv, -, ⟨hb, -⟩, -⟩ := h
  have hcount : ((s.launched i k q).bus i.bus).txCnt.toNat = (i.frame s).length := by
    rw [State.launched_bus]
    exact ((programmed_counts ht hv ((s.bus i.bus).readied s.cfg i k)).1 ho).1
  refine ⟨hb, henable, by rw [hwire]; exact if_neg ho, by rw [hwire], hcount, fun j d hd => ?_⟩
  have hstaging (hs : i.stages s.cfg = true) : (s.launched i k q).staging = i.frame s ++ s.staging.drop (i.frame s).length :=
    if_pos hs
  cases i
  case init | acquire | release => cases ht
  case read => exact absurd rfl ho
  case write b f a n p =>
    have hptr : ((s.launched (.write b f a n p) k q).bus b).txPtr =
        if Instr.stages s.cfg (.write b f a n p) then .staging else .mem p := congrArg Bus.txPtr State.launched_bus
    cases hs : Instr.stages s.cfg (.write b f a n p)
    case false => exact State.txByte_of_mem (hptr.trans (by rw [hs]; rfl)) rfl rfl hd
    case true => exact State.txByte_of_staging (hptr.trans (if_pos hs)) (hstaging hs) hd
  case writeReg b f a r n p =>
    exact State.txByte_of_staging (by rw [State.launched_bus]; rfl) (hstaging rfl) hd
  case readReg b f a r n p =>
    exact State.txByte_of_regBuf (x := (s.bus b).regBuf) (by rw [State.launched_bus]; rfl) (by rw [State.launched_bus]; rfl) hd

end Sys2Proof.Machine
end

section
/-! PROOF. Whole transfers (41 R105 to R114): what a command returns when its writes, its reads, or a NACK end it. -/

namespace Sys2Proof.Machine

variable {s : State} {i : Instr} {k w : Nat} {q : List Cmd96} {rest : List Answer} {sch : List Turn}

/-! ## A NACK -/

/-- The result of each error kind (42 R135). -/
def NackKind.result : NackKind → Result
  | .anack => .addrNack
  | .dnack => .dataNack

/-- What a NACK leaves and writes (43 R160). -/
theorem Bus.nacked_fields (x : Bus) (kind : NackKind) (stop : Bool) :
    x.commandKept (x.nacked kind stop) ∧ (x.nacked kind stop).wire.atRest = true ∧ (x.nacked kind stop).ev.error = true ∧
    (x.nacked kind stop).errSrc = (x.markError kind).errSrc ∧ (x.nacked kind stop).acks = x.acks ∧
    (x.nacked kind stop).txAmt = x.txAmt ∧ (x.nacked kind stop).wire.held = (!stop && x.wire.held) ∧
    (x.nacked kind stop).wlog = x.wlog ++ if stop then [.stop] else [] := by
  cases stop
  · exact ⟨⟨rfl, rfl, rfl, rfl⟩, rfl, rfl, rfl, rfl, rfl, rfl, (List.append_nil _).symm⟩
  · exact ⟨⟨rfl, rfl, rfl, rfl⟩, rfl, rfl, rfl, rfl, rfl, rfl, rfl⟩

theorem ErrSrc.classify_markError {x : Bus} (h : x.errSrc = ErrSrc.none) (kind : NackKind) :
    (x.markError kind).errSrc.classify = kind.result := by
  cases kind <;> simp only [Bus.markError, h] <;> rfl

theorem Bus.commandKept.trans {x y z : Bus} (h : x.commandKept y) (h' : y.commandKept z) : x.commandKept z :=
  ⟨h'.enable.trans h.enable, h'.irqEn.trans h.irqEn, h'.inten.trans h.inten, h'.seq.trans h.seq⟩

/-- A command whose transfer ends in a NACK on bus `x` returns the result of the error, and the bus is stopped or held. -/
theorem State.aboutToPresent.returns_nack {x : Bus} {kind : NackKind} {stop : Bool} {d : Nat} (h : s.aboutToPresent k i q)
    (hs : s.sched = turnsOf s.cfg i k w ++ sch)
    (hw : (s.launched i k q).turnsTo (List.replicate w (.wire i.bus))
      { (s.launched i k q).setBus i.bus (x.nacked kind stop) with draws := d })
    (hk : ((s.launched i k q).bus i.bus).commandKept x) (herr : x.errSrc = ErrSrc.none) (hheld : x.wire.held = true) :
    ∃ t : State, Host.Core.run Sys2Proof.core (turnsOf s.cfg i k w).length s = .next t ∧
      s.returned t k i q sch kind.result.code ∧ t.mem = s.mem ∧ (t.bus i.bus).acks = x.acks ∧
      (t.bus i.bus).wire.held = !stop ∧ (t.bus i.bus).txAmt = x.txAmt ∧
      (t.bus i.bus).wlog = x.wlog ++ if stop then [.stop] else [] := by
  obtain ⟨hkept, hrest, herror, hsrc, hacks, hamt, hwheld, hlog⟩ := x.nacked_fields kind stop
  obtain ⟨t, hrun, hreturned, hmem, -, hbus⟩ := h.returns hs hw (hk.trans hkept) ⟨hrest, .inl herror⟩
  rw [hsrc, ErrSrc.classify_markError herr] at hreturned
  refine ⟨t, hrun, hreturned, hmem, ?_⟩
  rw [hbus]
  exact ⟨hacks, hwheld.trans (by rw [hheld, Bool.and_true]), hamt, hlog⟩

/-- A command returns `E_ADDR_NACK` from an address phase, which `v` turns of the wire engine have brought it to, that the slave
does not acknowledge (43 R152). -/
theorem State.aboutToPresent.returns_addressNack {y : Bus} {v : Nat} (h : s.aboutToPresent k i q)
    (hs : s.sched = turnsOf s.cfg i k (v + 1) ++ sch)
    (hv : (s.launched i k q).turnsTo (List.replicate v (.wire i.bus)) ((s.launched i k q).setBus i.bus y))
    (hk : ((s.launched i k q).bus i.bus).commandKept y) (herr : y.errSrc = ErrSrc.none)
    (hp : y.wire.phase = .txAddr ∨ y.wire.phase = .rxAddr) (ha : y.acks = .nack :: rest) :
    ∃ (t : State) (stop : Bool), Host.Core.run Sys2Proof.core (turnsOf s.cfg i k (v + 1)).length s = .next t ∧
      s.returned t k i q sch 2 ∧ t.mem = s.mem ∧ (t.bus i.bus).acks = rest ∧ (t.bus i.bus).wire.held = !stop ∧
      (s.cfg.nackStop = .stop → stop = true) ∧ (s.cfg.nackStop = .hold → stop = false) ∧
      (t.bus i.bus).wlog = y.wlog ++ (y.addressSyms ++ [.answer .nack]) ++ if stop then [.stop] else [] := by
  have henable : y.enable = true := hk.enable.trans h.startedFrom.enable
  obtain ⟨-, -, -, -, -, -, ⟨hb, -⟩, -⟩ := id h
  have hnack := turnsTo_addressNack (s := (s.launched i k q).setBus i.bus y) hb (State.bus_setBus_self _ i.bus y) henable hp ha
  rw [State.setBus_setBus] at hnack
  obtain ⟨t, hrun, hreturned, hmem, hacks, hheld, -, hlog⟩ := h.returns_nack (kind := .anack) hs (hv.replicate_add hnack)
    (hk.trans ⟨rfl, rfl, rfl, rfl⟩) herr rfl
  obtain ⟨hstop, hhold⟩ := nackStops_of_fixed s.cfg s.draws
  exact ⟨t, _, hrun, hreturned, hmem, hacks, hheld, hstop, hhold, hlog⟩

/-- What the symbols up to byte `j`, which is not acknowledged, leave and write. -/
theorem Bus.unacked_fields (x : Bus) (frame : List Byte) (j : Nat) (d : Byte) (free : Bool) :
    x.commandKept (x.unacked frame j d rest free) ∧ (x.unacked frame j d rest free).errSrc = x.errSrc ∧
    (x.unacked frame j d rest free).wire.held = true ∧ (x.unacked frame j d rest free).acks = rest ∧
    (x.unacked frame j d rest free).txAmt = BitVec.ofNat 8 (if free then j else j + 1) ∧
    (x.unacked frame j d rest free).wlog = x.wlog ++ addressLog x.wire.held x.address .write ++ sentLog (frame.take j) ++
      [.data d, .answer .nack] := by
  unfold Bus.unacked Bus.sending
  split <;> exact ⟨⟨rfl, rfl, rfl, rfl⟩, rfl, rfl, rfl, rfl, rfl⟩

/-- `TXAMT` after byte `j` of a frame that has been programmed is not acknowledged: the two values of the free bit. -/
theorem toNat_txAmt_of_freeBit {j n : Nat} (hj : j < n) (hn : n ≤ 255) (free : Bool) :
    (BitVec.ofNat 8 (if free then j else j + 1) : Byte).toNat = j ∨
    (BitVec.ofNat 8 (if free then j else j + 1) : Byte).toNat = j + 1 := by
  cases free
  · exact .inr (Byte.toNat_ofNat (n := j + 1) (by omega))
  · exact .inl (Byte.toNat_ofNat (n := j) (by omega))

/-- A command returns `E_DATA_NACK` when byte `j` of its frame is the first that the slave does not acknowledge (43 R153,
R155). -/
theorem State.aboutToPresent.returns_dataNack {j : Nat} {d : Byte} (h : s.aboutToPresent k i q) (hd : (i.frame s)[j]? = some d)
    (ha : (s.bus i.bus).acks = List.replicate (j + 1) .ack ++ .nack :: rest)
    (hs : s.sched = turnsOf s.cfg i k (turnsBefore (i.frame s) j + 1) ++ sch) :
    ∃ (t : State) (stop : Bool),
      Host.Core.run Sys2Proof.core (turnsOf s.cfg i k (turnsBefore (i.frame s) j + 1)).length s = .next t ∧
      s.returned t k i q sch 3 ∧ t.mem = s.mem ∧ (t.bus i.bus).acks = rest ∧ (t.bus i.bus).wire.held = !stop ∧
      ((t.bus i.bus).txAmt.toNat = j ∨ (t.bus i.bus).txAmt.toNat = j + 1) ∧
      (s.cfg.nackStop = .stop → stop = true) ∧ (s.cfg.nackStop = .hold → stop = false) ∧
      (t.bus i.bus).wlog = (s.bus i.bus).wlog ++ addressLog (s.bus i.bus).wire.held i.target .write ++
        sentLog ((i.frame s).take j) ++ [.data d, .answer .nack] ++ if stop then [.stop] else [] := by
  have ho : i.opcode ≠ 6 := by
    cases i
    case read => cases hd
    case init | acquire | release | write | writeReg | readReg => simp [Instr.opcode]
  obtain ⟨hj, -⟩ := List.getElem?_eq_some_iff.1 hd
  have htransmits := h.transmits ho
  have hlen : (i.frame s).length ≤ 255 := htransmits.count ▸ Nat.le_of_lt_succ (BitVec.isLt _)
  obtain ⟨-, haddress, -, hwire, -, -, herr, hlog, hacks, -⟩ := h.startedFrom
  generalize hx : (s.launched i k q).bus i.bus = x at haddress hwire herr hlog hacks
  have hnack := htransmits.nacked hx hd (hacks.trans ha)
  generalize hfree : Config.freeBit (s.launched i k q).draws = free at hnack
  obtain ⟨hkept, herr', hheld', hacks', hamt', hlog'⟩ := x.unacked_fields (rest := rest) (i.frame s) j d free
  obtain ⟨t, hrun, hreturned, hmem, hacks, hheld, hamt, hend⟩ :=
    h.returns_nack hs hnack (by rw [hx]; exact hkept) (herr'.trans herr) hheld'
  obtain ⟨hstop, hhold⟩ := nackStops_of_fixed s.cfg (s.draws + 1)
  refine ⟨t, _, hrun, hreturned, hmem, hacks.trans hacks', hheld, ?_, hstop, hhold, ?_⟩
  · rw [hamt, hamt']
    exact toNat_txAmt_of_freeBit hj hlen free
  · rw [hend, hlog', hlog, hwire, haddress]

/-! ## A write -/

/-- The bus of a write that has been acknowledged to its end: held with `NOSTOP`, else stopped (43 R155). -/
def Bus.writeEnded (x : Bus) (frame : List Byte) (rest : List Answer) (noStop : Bool) : Bus :=
  if noStop then { x.transmitted frame rest with wire := ⟨.held, frame.length - 1, true⟩ } else (x.transmitted frame rest).stop

theorem Bus.afterTransmit_of_write {x : Bus} {frame : List Byte} {noStop : Bool}
    (h : x.shorts = if noStop then Shorts.none else Shorts.ltxStopOnly) :
    (x.transmitted frame rest).afterTransmit = .ok (x.writeEnded frame rest noStop) := by
  cases noStop
  · simp [Bus.afterTransmit, Bus.writeEnded, Bus.transmitted, h, Shorts.ltxStopOnly]
  · simp [Bus.afterTransmit, Bus.writeEnded, Bus.transmitted, h, Shorts.none]

/-- What the write leaves and writes. -/
theorem Bus.writeEnded_fields (x : Bus) (frame : List Byte) (rest : List Answer) (noStop : Bool) :
    x.commandKept (x.writeEnded frame rest noStop) ∧ (x.writeEnded frame rest noStop).wire.atRest = true ∧
    (x.writeEnded frame rest noStop).ev.lastTx = true ∧ (noStop = false → (x.writeEnded frame rest noStop).ev.stopped = true) ∧
    (x.writeEnded frame rest noStop).errSrc = x.errSrc ∧ (x.writeEnded frame rest noStop).acks = rest ∧
    (x.writeEnded frame rest noStop).txAmt = x.txCnt ∧ (x.writeEnded frame rest noStop).wire.held = noStop ∧
    (x.writeEnded frame rest noStop).wlog = x.wlog ++ addressLog x.wire.held x.address .write ++ sentLog frame ++
      if noStop then [] else [.stop] := by
  cases noStop
  · exact ⟨⟨rfl, rfl, rfl, rfl⟩, rfl, rfl, fun _ => rfl, rfl, rfl, rfl, rfl, rfl⟩
  · exact ⟨⟨rfl, rfl, rfl, rfl⟩, rfl, rfl, nofun, rfl, rfl, rfl, rfl, (List.append_nil _).symm⟩

/-- A `WRITE` or `WRITE_REG` whose frame is acknowledged returns `OK` (41 R105, R106, R109). -/
theorem State.aboutToPresent.returns_write (h : s.aboutToPresent k i q) (ho : i.opcode = 4 ∨ i.opcode = 5)
    (ha : (s.bus i.bus).acks = List.replicate ((i.frame s).length + 1) .ack ++ rest)
    (hs : s.sched = turnsOf s.cfg i k ((i.frame s).length + 2) ++ sch) :
    ∃ t : State, Host.Core.run Sys2Proof.core (turnsOf s.cfg i k ((i.frame s).length + 2)).length s = .next t ∧
      s.returned t k i q sch 0 ∧ t.mem = s.mem ∧ t.staging = (s.launched i k q).staging ∧
      (t.bus i.bus).txAmt.toNat = (i.frame s).length ∧ (t.bus i.bus).acks = rest ∧ (t.bus i.bus).wire.held = i.noStop ∧
      (t.bus i.bus).wlog = (s.bus i.bus).wlog ++ addressLog (s.bus i.bus).wire.held i.target .write ++ sentLog (i.frame s) ++
        if i.noStop then [] else [.stop] := by
  have ho6 : i.opcode ≠ 6 := by rcases ho with ho | ho <;> simp [ho]
  have htransmits := h.transmits ho6
  have hlen : 0 < (i.frame s).length := by
    obtain ⟨-, -, ht, -, hv, -⟩ := h
    exact ((programmed_counts ht hv (s.bus i.bus)).1 ho6).2.1
  have hstarted := h.startedFrom
  have hcount := htransmits.count
  generalize hx : (s.launched i k q).bus i.bus = x at hstarted hcount
  obtain ⟨-, haddress, hshorts, hwire, hsucc, htxn, herr, hlog, hacks, -⟩ := hstarted
  have hshorts' : x.shorts = if i.noStop then Shorts.none else Shorts.ltxStopOnly := by
    rw [hshorts]
    cases i
    case write | writeReg => rfl
    case init | acquire | release | read | readReg => simp [Instr.opcode] at ho
  obtain ⟨hkept, hrest, hlast, hstopped, herr', hacks', hamt, hheld, hlog'⟩ := x.writeEnded_fields (i.frame s) rest i.noStop
  have hended : (x.writeEnded (i.frame s) rest i.noStop).ended := by
    refine ⟨hrest, ?_⟩
    rw [hkept.seq, hsucc, hamt, htxn ho]
    cases hn : i.noStop
    · exact .inr (.inl ⟨rfl, by simpa only [hn] using hstopped hn⟩)
    · exact .inr (.inr ⟨rfl, by simpa only [hn] using hlast, rfl⟩)
  obtain ⟨t, hrun, hreturned, hmem, hstaging, hbus⟩ := h.returns (m := s.mem) (d := s.draws) hs
    (htransmits.acked hx hlen (hacks.trans ha) (Bus.afterTransmit_of_write hshorts')) (by rw [hx]; exact hkept) hended
  rw [herr', herr] at hreturned
  refine ⟨t, hrun, hreturned, hmem, hstaging, ?_⟩
  rw [hlog, hwire, haddress] at hlog'
  rw [hbus]
  exact ⟨(congrArg BitVec.toNat hamt).trans hcount, hacks', hheld, hlog'⟩

/-! ## A read -/

/-- Bus `y` has begun the receive of the read `i`: its address phase is next (43 R156, R155). -/
structure Bus.receives (y : Bus) (i : Instr) : Prop where
  phase   : y.wire.phase = .rxAddr
  idx     : y.wire.idx = 0
  address : y.address = i.target
  ptr     : y.rxPtr = i.ptr
  count   : y.rxCnt.toNat = i.len.toNat
  stops   : y.shorts.lrxStop = true
  succ    : y.seq.succ = .stopped
  errSrc  : y.errSrc = ErrSrc.none

/-- A read returns `OK` with the bytes in the destination, once `v` turns of the wire engine have brought it to its receive
(41 R107, R108). -/
theorem State.aboutToPresent.returns_read {y : Bus} {data : List Byte} {restA : List Answer} {restD : List Byte} {v : Nat}
    (h : s.aboutToPresent k i q) (hs : s.sched = turnsOf s.cfg i k (v + (data.length + 1)) ++ sch)
    (hm : Memory.wf s.mem = true) (hlen : data.length = i.len.toNat)
    (hv : (s.launched i k q).turnsTo (List.replicate v (.wire i.bus)) ((s.launched i k q).setBus i.bus y))
    (hk : ((s.launched i k q).bus i.bus).commandKept y) (hy : y.receives i) (ha : y.acks = .ack :: restA)
    (hd : y.rxData = data ++ restD) :
    ∃ t : State, Host.Core.run Sys2Proof.core (turnsOf s.cfg i k (v + (data.length + 1))).length s = .next t ∧
      s.returned t k i q sch 0 ∧
      (∀ j d, data[j]? = some d → Memory.read t.mem (i.ptr + j) = d) ∧
      (∀ x, (x < i.ptr ∨ i.ptr + i.len.toNat ≤ x) → Memory.read t.mem x = Memory.read s.mem x) ∧
      (t.bus i.bus).acks = restA ∧ (t.bus i.bus).rxData = restD ∧ (t.bus i.bus).wire.held = false ∧
      (t.bus i.bus).wlog = y.wlog ++ addressLog y.wire.held i.target .read ++ data.map .data ++ [.stop] := by
  obtain ⟨hphase, hidx, haddress, hptr, hcount, hstops, hsucc, herr⟩ := hy
  have henable : y.enable = true := hk.enable.trans h.startedFrom.enable
  obtain ⟨-, -, ht, -, hviol, -, ⟨hb, -⟩, -⟩ := id h
  obtain ⟨h0, -, -, hrange⟩ := operands_of_violation_none ht hviol
  rw [← hlen] at h0 hcount hrange ⊢
  have hread := turnsTo_readOut (s := (s.launched i k q).setBus i.bus y) hb (State.bus_setBus_self _ i.bus y) henable hphase hidx
    (List.length_pos_iff.1 h0) hcount.symm hstops ha hd
  rw [State.setBus_setBus, hptr] at hread
  obtain ⟨t, hrun, hreturned, hmem, -, hbus⟩ := h.returns (y := y.readOut data restA restD) (d := s.draws) hs
    (hv.replicate_add hread) (hk.trans ⟨rfl, rfl, rfl, rfl⟩) ⟨rfl, .inr (.inl ⟨hsucc, rfl⟩)⟩
  rw [show (y.readOut data restA restD).errSrc = ErrSrc.none from herr] at hreturned
  refine ⟨t, hrun, hreturned, fun j d hd => ?_, fun x hx => ?_, ?_⟩
  · rw [hmem]
    exact Memory.read_receive s.cfg i.ptr 0 s.mem data hm hrange hd
  · rw [hmem]
    exact Memory.read_receive_of_outside s.cfg i.ptr 0 s.mem data hrange hx
  · rw [hbus, ← haddress]
    exact ⟨rfl, rfl, rfl, rfl⟩

/-- A bus whose address phase for reading is next and whose registers are as the read has programmed them. -/
theorem State.aboutToPresent.receives {x y : Bus} (h : s.aboutToPresent k i q) (ho : i.opcode = 6 ∨ i.opcode = 7)
    (hx : (s.launched i k q).bus i.bus = x) (hphase : y.wire.phase = .rxAddr) (hidx : y.wire.idx = 0)
    (hkept : y.address = x.address ∧ y.rxPtr = x.rxPtr ∧ y.rxCnt = x.rxCnt ∧ y.shorts = x.shorts ∧ y.seq = x.seq ∧
      y.errSrc = x.errSrc) : y.receives i := by
  obtain ⟨-, haddress, hshorts, -, -, -, herr, -, -, -⟩ := h.startedFrom
  obtain ⟨-, -, ht, -, hv, -⟩ := h
  have hprogrammed : x.rxCnt.toNat = i.len.toNat ∧ x.rxPtr = i.ptr := by
    rw [← hx, State.launched_bus]
    exact (programmed_counts ht hv ((s.bus i.bus).readied s.cfg i k)).2 ho
  have hread : i.shorts.lrxStop = true ∧ x.seq.succ = .stopped := by
    rw [← hx, State.launched_bus]
    cases i
    case read | readReg => exact ⟨rfl, rfl⟩
    case init | acquire | release | write | writeReg => simp [Instr.opcode] at ho
  obtain ⟨haddress', hptr', hcount', hshorts', hseq', herr'⟩ := hkept
  rw [hx] at haddress hshorts herr
  exact ⟨hphase, hidx, haddress'.trans haddress, hptr'.trans hprogrammed.2, (congrArg BitVec.toNat hcount').trans hprogrammed.1,
    by rw [hshorts', hshorts]; exact hread.1, by rw [hseq']; exact hread.2, herr'.trans herr⟩

/-- The bus of a `READ_REG` whose register bytes are acknowledged: the short has begun the receive (43 R155, R162). -/
def Bus.turned (x : Bus) (frame : List Byte) (rest : List Answer) : Bus :=
  { x.transmitted frame rest with wire := ⟨.rxAddr, 0, true⟩ }

/-- The log of a `READ_REG` whose second address phase is not acknowledged. -/
theorem Bus.turned_addressNack_log (x : Bus) (frame : List Byte) (rest : List Answer) :
    (x.turned frame rest).wlog ++ ((x.turned frame rest).addressSyms ++ [.answer .nack]) =
      x.wlog ++ (addressLog x.wire.held x.address .write ++ sentLog frame ++ [.restart, .addr x.address .read, .answer .nack]) := by
  simp [Bus.turned, Bus.transmitted, Bus.addressSyms, Wire.dir]

theorem Bus.afterTransmit_of_writeThenRead {x : Bus} (frame : List Byte) (h : x.shorts = Shorts.writeThenRead)
    (h0 : 0 < x.rxCnt.toNat) : (x.transmitted frame rest).afterTransmit = .ok (x.turned frame rest) := by
  have hcount : ¬x.rxCnt = 0#8 := fun e => by simp [e] at h0
  simp [Bus.afterTransmit, Bus.turned, Bus.transmitted, h, Shorts.writeThenRead, hcount]

/-- The register bytes of a `READ_REG` are acknowledged, and the receive has begun. -/
theorem State.aboutToPresent.turned {x : Bus} (h : s.aboutToPresent k i q) (ho : i.opcode = 7)
    (hx : (s.launched i k q).bus i.bus = x)
    (ha : (s.bus i.bus).acks = List.replicate ((i.frame s).length + 1) .ack ++ rest) :
    (s.launched i k q).turnsTo (List.replicate ((i.frame s).length + 2) (.wire i.bus))
      ((s.launched i k q).setBus i.bus (x.turned (i.frame s) rest)) ∧ (x.turned (i.frame s) rest).receives i := by
  have hreceives : (x.turned (i.frame s) rest).receives i :=
    h.receives (.inr ho) hx rfl rfl ⟨rfl, rfl, rfl, rfl, rfl, rfl⟩
  obtain ⟨-, -, hshorts, -, -, -, -, -, hacks, -⟩ := h.startedFrom
  have htransmits := h.transmits (by simp [ho])
  obtain ⟨-, -, ht, -, hv, -⟩ := h
  have hlen := ((programmed_counts ht hv (s.bus i.bus)).1 (by simp [ho])).2.1
  obtain ⟨h0, -⟩ := operands_of_violation_none ht hv
  have hrx : 0 < x.rxCnt.toNat := by rw [show x.rxCnt.toNat = i.len.toNat from hreceives.count]; exact h0
  have hshorts' : i.shorts = Shorts.writeThenRead := by
    cases i
    case readReg => rfl
    case init | acquire | release | write | writeReg | read => simp [Instr.opcode] at ho
  rw [hx] at hshorts hacks
  exact ⟨htransmits.acked hx hlen (hacks.trans ha) (Bus.afterTransmit_of_writeThenRead _ (hshorts.trans hshorts') hrx), hreceives⟩

end Sys2Proof.Machine
end

section
/-! PROOF. The statements about whole commands. -/

open Sys2Proof Sys2Proof.Machine

/-- Settles O55: the frame of a `WRITE` is its payload, and it is acknowledged to its end. -/
theorem writeCommandRuns : Obligations.WriteCommandRuns := by
  intro s k b f a n p q rest sch i frame turns h ha hs
  have hlen : (i.frame s).length = n.toNat := s.memBytes_length p n.toNat
  obtain ⟨t, hrun, hreturned, hmem, hstaging, hamt, hacks, hheld, hlog⟩ :=
    h.returns_write (.inl rfl) (by rw [hlen]; exact ha) (by rw [hlen]; exact hs)
  rw [hlen] at hrun hamt
  refine ⟨t, hrun, hreturned, hmem, fun hst => ?_, hamt, hacks, hheld, hlog⟩
  rw [hstaging, ← hlen]
  exact if_pos hst

/-- Settles O56: the frame of a `WRITE_REG` is the register bytes and the payload, and it is acknowledged to its end. -/
theorem writeRegisterCommandRuns : Obligations.WriteRegisterCommandRuns := by
  intro s k b f a r n p q rest sch i frame turns h ha hs
  exact h.returns_write (.inr rfl) ha hs

/-- Settles O57: the receive of a `READ` begins with its start task. -/
theorem readCommandRuns : Obligations.ReadCommandRuns := by
  intro s k b f a n p data q restA restD sch i turns h hm hlen ha hd hs
  generalize hx : (s.launched i k q).bus i.bus = x
  obtain ⟨-, -, -, hwire, -, -, -, hlog, hacks, hdata⟩ := h.startedFrom
  rw [hx] at hwire hlog hacks hdata
  have hreceives : x.receives i := h.receives (.inl rfl) hx (by rw [hwire]; rfl) (by rw [hwire]) ⟨rfl, rfl, rfl, rfl, rfl, rfl⟩
  have hturns : 0 + (data.length + 1) = n.toNat + 1 := by omega
  have := h.returns_read (v := 0) (y := x) (by rw [hturns]; exact hs) hm hlen
    (by rw [← hx, State.setBus_bus]; exact fun _ => rfl) (by rw [hx]; exact ⟨rfl, rfl, rfl, rfl⟩) hreceives (hacks.trans ha)
    (hdata.trans hd)
  rwa [hturns, hlog, hwire] at this

/-- Settles O58: the receive of a `READ_REG` begins with the short at the end of its register bytes. -/
theorem readRegisterCommandRuns : Obligations.ReadRegisterCommandRuns := by
  intro s k b f a r n p data q restA restD sch i regs turns h hm hlen ha hd hs
  generalize hx : (s.launched i k q).bus i.bus = x
  obtain ⟨-, haddress, -, hwire, -, -, -, hlog, -, hdata⟩ := h.startedFrom
  rw [hx] at haddress hwire hlog hdata
  obtain ⟨hturned, hreceives⟩ := h.turned (rest := .ack :: restA) rfl hx
    (ha.trans (by rw [List.replicate_succ', List.append_assoc]; rfl))
  have hturns : regs.length + 2 + (data.length + 1) = regs.length + n.toNat + 3 := by omega
  have := h.returns_read (v := regs.length + 2) (by rw [hturns]; exact hs) hm hlen hturned
    (by rw [hx]; exact ⟨rfl, rfl, rfl, rfl⟩) hreceives rfl (hdata.trans hd)
  rw [hturns] at this
  simp only [Bus.turned, Bus.transmitted, hlog, hwire, haddress] at this
  exact this

/-- Settles O59: an address that is not acknowledged, at the start or after the register bytes, is a NACK. -/
theorem addressNackReturnsAndRecovers : Obligations.AddressNackReturnsAndRecovers := by
  intro s k i q rest sch h x ends
  generalize hy : (s.launched i k q).bus i.bus = y
  obtain ⟨-, haddress, -, hwire, -, -, herr, hlog, hacks, -⟩ := h.startedFrom
  rw [hy] at haddress hwire herr hlog hacks
  refine ⟨fun ha hs => ?first, fun b f a r n p hi => ?second⟩
  case first =>
    have := h.returns_addressNack (v := 0) (y := y) hs (by rw [← hy, State.setBus_bus]; exact fun _ => rfl)
      (by rw [hy]; exact ⟨rfl, rfl, rfl, rfl⟩) herr (by rw [hwire]; dsimp only; split <;> simp) (hacks.trans ha)
    have hsyms : y.addressSyms ++ [.answer .nack] =
        [if x.wire.held then .restart else .start, .addr i.target (if i.opcode = 6 then .read else .write), .answer .nack] := by
      by_cases ho : i.opcode = 6#4 <;> simp [Bus.addressSyms, Wire.dir, hwire, haddress, ho, x]
    rwa [hsyms, hlog] at this
  case second =>
    subst hi
    intro regs ha hs
    obtain ⟨hturned, hreceives⟩ := h.turned (rest := .nack :: rest) rfl hy ha
    have := h.returns_addressNack (v := regs.length + 2) hs hturned (by rw [hy]; exact ⟨rfl, rfl, rfl, rfl⟩) herr
      (.inr hreceives.phase) rfl
    rw [y.turned_addressNack_log, hlog, hwire, haddress] at this
    exact this

/-- Settles O60: a byte that is not acknowledged, the last or not, is a NACK. -/
theorem dataNackReturnsAndRecovers : Obligations.DataNackReturnsAndRecovers := by
  intro s k i q rest sch j d frame turns h hd ha hs
  have hturns : turnsBefore frame j + 1 = j + if j + 1 = frame.length then 3 else 2 := by unfold turnsBefore; split <;> rfl
  have := h.returns_dataNack hd ha (by rw [hturns]; exact hs)
  rwa [hturns] at this

end

section
/-! PROOF. The gate and the mask: only `P_UNMASK` unmasks, and only the handler, which finds an unmasked source and masks all
three, signals the gate; both happen towards or in `P_WAIT`, and the wake locks the gate again (42 R131, R132, R137; 60 R187,
R189). -/

namespace Sys2Proof.Machine

/-- A bus with its sources masked and its gate locked keeps the invariant in every phase. -/
theorem Bus.gateInv_of_masked {x : Bus} (hm : x.inten = IntEn.none ∧ x.gate = .locked) : x.gateInv := by
  obtain ⟨hi, hg⟩ := hm
  exact fun _ => ⟨fun h => absurd (hg.symm.trans h) nofun, fun h => absurd hi h⟩

/-- A change that leaves the mask and the gate alone, made in a phase in which nothing is signalled or unmasked, keeps the
invariant whatever the new phase. -/
theorem Bus.gateInv.keep {x y : Bus} (h : x.gateInv) {p : Phase} (hp : x.seq.phase = p) (hf : p ≠ .faulted) (hw : p ≠ .wait)
    (hi : y.inten = x.inten) (hg : y.gate = x.gate) : y.gateInv := by
  obtain ⟨hinten, hgate⟩ := h.masked (by rwa [hp]) (by rwa [hp])
  exact Bus.gateInv_of_masked ⟨hi.trans hinten, hg.trans hgate⟩

/-- A stopped sequencer meets the invariant. -/
theorem Bus.gateInv_of_faulted {x : Bus} (h : x.seq.phase = .faulted) : x.gateInv := fun hf => absurd h hf

/-- An interrupt condition needs an unmasked source (10 R29). -/
theorem Bus.inten_of_irq {x : Bus} (h : x.irq = true) : x.inten ≠ IntEn.none := fun e => by
  simp [Bus.irq, e, IntEn.none] at h

/-- The handler finds its sequencer in `P_WAIT`, or stopped, and leaves the signalled gate with all sources masked. -/
theorem Bus.gateInv.handler {x : Bus} (h : x.gateInv) (hirq : x.irq = true) : x.handler.gateInv := fun hf =>
  ⟨fun _ => ⟨(h hf).2 (Bus.inten_of_irq hirq), rfl⟩, fun hn => absurd rfl hn⟩

/-- `P_UNMASK` unmasks with the gate locked, and goes to `P_WAIT`. -/
theorem Bus.gateInv.unmask {x : Bus} (h : x.gateInv) (hp : x.seq.phase = .unmask) : x.unmask.gateInv := by
  obtain ⟨-, hgate⟩ := h.masked (by simp [hp]) (by simp [hp])
  exact fun _ => ⟨fun hg => absurd (hgate.symm.trans hg) nofun, fun _ => rfl⟩

/-- The wake finds all sources masked, and locks the gate. -/
theorem Bus.gateInv.wake {x : Bus} (h : x.gateInv) (hp : x.seq.phase = .wait) (hg : x.gate = .unlocked) : x.wake.gateInv := by
  obtain ⟨hgate, -⟩ := h (by simp [hp])
  obtain ⟨-, hinten⟩ := hgate hg
  exact Bus.gateInv_of_masked ⟨hinten, rfl⟩

/-- Step 5 of `FINISH` leaves the mask and the gate alone. -/
theorem Bus.finishClassify_mask (x : Bus) : x.finishClassify.inten = x.inten ∧ x.finishClassify.gate = x.gate := by
  unfold Bus.finishClassify
  split <;> exact ⟨rfl, rfl⟩

/-- The start tasks leave the mask and the gate alone. -/
theorem startTx_mask {c : Config} {x y : Bus} (h : startTx c x = .ok y) : y.inten = x.inten ∧ y.gate = x.gate := by
  rcases startTx_ok c x y h with ⟨-, rfl⟩ | ⟨-, -, -, rfl⟩ <;> exact ⟨rfl, rfl⟩

theorem startRx_mask {x y : Bus} (h : startRx x = .ok y) : y.inten = x.inten ∧ y.gate = x.gate := by
  rcases startRx_ok x y h with ⟨-, rfl⟩ | ⟨-, -, -, rfl⟩ <;> exact ⟨rfl, rfl⟩

/-- A meaning keeps the gate invariant of its bus. -/
theorem ExecMove.gateInv {i : Instr} {s t : State} (m : ExecMove i s t) (h : (s.bus i.bus).gateInv) :
    (t.bus i.bus).gateInv := by
  cases m
  case blocked => exact h
  all_goals
    simp only [State.bus_updBus_self, State.bus_setBus_self, State.bus_mk, State.toPhase, State.takeSLock, State.dropSLock,
      State.ret]
  case violated => exact Bus.gateInv_of_faulted rfl
  case init => exact Bus.gateInv_of_masked ⟨rfl, rfl⟩
  case unmask hp => exact h.unmask hp
  case wake hp hg _ => exact h.wake hp hg
  case startTx hp hx => exact h.keep hp nofun nofun (startTx_mask hx).1 (startTx_mask hx).2
  case startRx hp hx => exact h.keep hp nofun nofun (startRx_mask hx).1 (startRx_mask hx).2
  case classify hp => exact h.keep hp nofun nofun (Bus.finishClassify_mask _).1 (Bus.finishClassify_mask _).2
  case accept hp | stageCopy hp _ | ackStopped hp | unstage hp | unsupported hp _ | acquireNow hp _ | acquireWaits hp _ |
      acquireTakes hp _ | release hp _ | checked hp _ _ | stageLock hp _ | programTx hp _ _ | programRx hp _ |
      programTxRx hp _ | polled hp _ =>
    exact h.keep hp nofun nofun rfl rfl

/-- The wire engine writes neither the mask nor the gate. -/
theorem WireMove.gateInv {b : BusId} {s t : State} (m : WireMove s b t) (h : (s.bus b).gateInv) : (t.bus b).gateInv := by
  obtain ⟨x, hx⟩ := m.bus_frame
  rw [hx]
  exact h

end Sys2Proof.Machine

open Sys2Proof Sys2Proof.Machine

/-- Settles O48: only `P_UNMASK` unmasks, on its way to `P_WAIT`, and only the handler signals, which masks. -/
theorem stepKeepsGateInvariant : Obligations.StepKeepsGateInvariant := fun _ _ hs h =>
  step_keeps_bus (P := Bus.gateInv) h hs (fun i _ _ _ hu _ m => m.gateInv (hu i.bus)) (fun _ _ => Bus.gateInv_of_faulted rfl)
    (fun _ _ _ _ hx m => m.gateInv hx) (fun _ hx => hx.handler) (fun _ _ _ _ hx _ => hx) (fun _ _ _ _ hx => hx)
end

section
/-! PROOF. The five steps of `FINISH`, each as the change of its bus that the spec states (42 R131 to R135). -/

namespace Sys2Proof.Machine

/-! ## `P_UNMASK` -/

/-- The success flag's bit and `ERROR` are set, the third source stays as it was. -/
theorem IntEn.unmask_eq (m : IntEn) (c : Succ) :
    m.unmask c = ⟨m.stopped || decide (c = .stopped), m.lastTx || decide (c = .lastTx), true⟩ := by
  cases c <;> simp [IntEn.unmask]

/-- From the masked state exactly two bits are set (42 R131). -/
theorem IntEn.none_unmask (c : Succ) :
    IntEn.none.unmask c = if c = .stopped then ⟨true, false, true⟩ else ⟨false, true, true⟩ := by
  cases c <;> rfl

/-- An awaited event that is already latched interrupts as soon as its source is unmasked. -/
theorem Bus.irq_unmask {x : Bus} (h : x.ev.error = true ∨ (x.seq.succ = .stopped ∧ x.ev.stopped = true) ∨
    (x.seq.succ = .lastTx ∧ x.ev.lastTx = true)) : x.unmask.irq = true := by
  simp only [Bus.irq, Bus.unmask, Bus.toPhase_ev, IntEn.unmask_eq, Bool.or_eq_true, Bool.and_eq_true, decide_eq_true_eq]
  rcases h with he | ⟨hs, he⟩ | ⟨hs, he⟩
  · exact .inr ⟨he, trivial⟩
  · exact .inl (.inl ⟨he, .inr hs⟩)
  · exact .inl (.inr ⟨he, .inr hs⟩)

/-! ## `P_WAIT` and `P_POLL` -/

/-- The wait is over on an enabled bus with an unlocked gate, and only there. -/
theorem Bus.waitDone_eq_true_iff (x : Bus) : x.waitDone = true ↔ x.gate = .unlocked ∧ x.enable = true := by
  simp [Bus.waitDone, and_comm]

/-- On a locked gate, or a disabled bus, it is not (log entry 19). -/
theorem Bus.waitDone_eq_false {x : Bus} (h : x.gate = .locked ∨ x.enable = false) : x.waitDone = false := by
  rcases h with h | h <;> simp [Bus.waitDone, h]

/-- The poll passes on an error or on the whole count (42 R133). -/
theorem Bus.pollDone_eq_true_iff (x : Bus) : x.pollDone = true ↔ x.txAmt = x.seq.txn ∨ x.ev.error = true := by
  simp [Bus.pollDone, or_comm]

/-- A wait or a poll that is not over has no step (log entry 12). -/
theorem finishStep_of_not_waitDone {s : State} {b : BusId} (hp : (s.bus b).seq.phase = .wait)
    (hw : (s.bus b).waitDone = false) : finishStep b s = .next s := by
  simp [finishStep, hp, hw]

theorem finishStep_of_not_pollDone {s : State} {b : BusId} (hp : (s.bus b).seq.phase = .poll)
    (hd : (s.bus b).pollDone = false) : finishStep b s = .next s := by
  simp [finishStep, hp, hd]

/-! ## `P_CLASSIFY` -/

/-- The result code of the classification, an address NACK before a data NACK (42 R135; 30 R78). -/
theorem ErrSrc.classify_code (e : ErrSrc) : e.classify.code = if e.anack then 2 else if e.dnack then 3 else 0 := by
  unfold ErrSrc.classify
  cases e.anack <;> cases e.dnack <;> rfl

/-- The classified bus returns if its command has not staged. -/
theorem Bus.finishClassify_eq_ret {x : Bus} (h : x.seq.staged = false) :
    x.finishClassify = x.classified.ret x.errSrc.classify := by
  simp [Bus.finishClassify, h]

end Sys2Proof.Machine

open Sys2Proof Sys2Proof.Machine

/-- Settles O24: finish step 1 is `Bus.unmask`. -/
theorem finishUnmasks : Obligations.FinishUnmasks := by
  intro i s ht hi hb hp x y
  have hy : y = x.unmask := by simp only [y, Bus.unmask, IntEn.unmask_eq, Bus.toPhase]
  rw [hy]
  refine ⟨?_, fun hm => ?_, Bus.irq_unmask⟩
  · rw [exec_finish ht hi hb (.inl hp), finishStep_of_unmask hp]
  · exact (congrArg (·.unmask x.seq.succ) hm).trans (IntEn.none_unmask _)

/-- Settles O25: the wait and the poll each do nothing or go on, by their condition, and `P_ACK` is `Bus.ackStopped`. -/
theorem finishWaitsPollsAcknowledges : Obligations.FinishWaitsPollsAcknowledges := by
  intro i s ht hi hb x
  refine ⟨fun hp hw => ?blocked, fun hp hg he => ?wakes, fun hp hd => ?polled, fun hp hd => ?polls, fun hp => ?acknowledged⟩
  case blocked =>
    rw [exec_finish ht hi hb (.inr (.inl hp)), finishStep_of_not_waitDone hp (Bus.waitDone_eq_false hw)]
  case wakes =>
    rw [exec_finish ht hi hb (.inr (.inl hp)), finishStep_of_wait hp ((Bus.waitDone_eq_true_iff _).2 ⟨hg, he⟩)]
    rfl
  case polled =>
    rw [exec_finish ht hi hb (.inr (.inr (.inl hp))), finishStep_of_poll hp ((Bus.pollDone_eq_true_iff _).2 hd)]
    rfl
  case polls =>
    have hd : (s.bus i.bus).pollDone = false := Bool.eq_false_iff.2 fun h => hd ((Bus.pollDone_eq_true_iff _).1 h)
    rw [exec_finish ht hi hb (.inr (.inr (.inl hp))), finishStep_of_not_pollDone hp hd]
  case acknowledged =>
    rw [exec_finish ht hi hb (.inr (.inr (.inr (.inl hp)))), finishStep_of_ack hp]
    rfl

/-- Settles O26: the classified bus goes to `P_UNSTAGE` or returns, by the staged mark. -/
theorem finishClassifies : Obligations.FinishClassifies := by
  intro i s ht hi hb hp x r y
  rw [exec_finish ht hi hb (.inr (.inr (.inr (.inr hp)))), finishStep_of_classify hp]
  refine ⟨fun hs => ?staged, fun hs => ?returned⟩
  case staged =>
    rw [Bus.finishClassify_of_staged hs]
    rfl
  case returned =>
    rw [Bus.finishClassify_eq_ret hs, ← ErrSrc.classify_code]
    rfl
end

section
/-! PROOF. The ties between the sequencer and the wire engine (42 R133, R136; 43 R161; 41 R114): a command starts and returns
on a settled bus; in between, what runs and what is latched are tied as `Bus.underway` says, which the wire engine keeps; and
the wait, the poll and the acknowledge pass only when the transfer is over. -/

namespace Sys2Proof.Machine

/-! ## What the invariant says in each phase -/

/-- While a command awaits the end of its transfer: a terminal event means that the transfer is over, and a running no-stop
write is a transmit of the whole count, of which `TXAMT` falls short (42 R133; 70 R223). -/
structure Bus.underway (x : Bus) : Prop where
  terminal : x.ev.stopped = true ∨ x.ev.error = true → x.wire.atRest = true
  short    : x.seq.succ = .lastTx → x.wire.atRest = false →
    x.wire.phase.transmitting = true ∧ x.seq.txn = x.txCnt ∧ x.shorts.ltxSrx = false ∧ x.txAmt.toNat < x.txCnt.toNat

/-- The unmasked sources are those the command awaits, and a signalled gate means that a stop or an error has come. -/
structure Bus.awaited (x : Bus) : Prop where
  masks  : (x.inten.stopped = true → x.seq.succ = .stopped) ∧ (x.inten.lastTx = true → x.seq.succ = .lastTx)
  signal : x.gate = .unlocked → x.seq.succ = .stopped → x.ev.stopped = true ∨ x.ev.error = true

/-- A no-stop command about to start is a write whose count is the one programmed, with no short to a receive (30 R82). -/
abbrev Bus.noStopReady (x : Bus) : Prop :=
  x.seq.phase = .start → x.seq.succ = .lastTx →
    (x.seq.cmd.op = 4 ∨ x.seq.cmd.op = 5) ∧ x.seq.txn = x.txCnt ∧ x.shorts.ltxSrx = false

section
variable {x : Bus}

/-- While a command awaits the end of its transfer: the ties of the transfer, and what the wait and the poll add. -/
theorem Bus.restInv_iff_of_awaiting (h : x.seq.phase.awaiting = true) :
    x.restInv ↔ x.underway ∧ (x.seq.phase = .wait → x.awaited) ∧ (x.seq.phase = .poll → x.seq.succ = .lastTx) := by
  have other : ∀ {P : Prop} {p : Phase}, p.awaiting = false → x.seq.phase = p → P := fun ha hp => by
    rw [hp, ha] at h
    cases h
  constructor
  · rintro ⟨-, -, hterm, hshort, hmasks, hsignal, hpoll, -⟩
    exact ⟨⟨hterm h, hshort h⟩, fun hw => ⟨hmasks hw, hsignal hw⟩, hpoll⟩
  · rintro ⟨⟨hterm, hshort⟩, hwait, hpoll⟩
    refine ⟨fun hb => ?_, other rfl, fun _ => hterm, fun _ => hshort, fun hw => (hwait hw).masks, fun hw => (hwait hw).signal,
      hpoll, other rfl, other rfl, other rfl⟩
    cases hp : x.seq.phase <;> rw [hp] at h hb <;> cases h <;> cases hb

theorem Bus.restInv_iff_of_ack (hp : x.seq.phase = .ack) : x.restInv ↔ x.wire.atRest = true := by
  simp [Bus.restInv, hp, Phase.beforeStart, Phase.awaiting]

theorem Bus.restInv_iff_of_classify (hp : x.seq.phase = .classify) :
    x.restInv ↔ x.wire.atRest = true ∧ x.ev.stopped = false := by
  simp [Bus.restInv, hp, Phase.beforeStart, Phase.awaiting]

/-- Before `INIT` and on a stopped sequencer it says nothing. -/
theorem Bus.restInv_of_inert (hp : x.seq.phase = .uninit ∨ x.seq.phase = .faulted) : x.restInv := by
  rcases hp with hp | hp <;> simp [Bus.restInv, hp, Phase.beforeStart, Phase.awaiting]

/-- From a settled bus every phase may be entered, but the poll, and `P_START` only with the registers of a no-stop write. -/
theorem Bus.settled.restInv (h : x.settled) (hp : x.seq.phase ≠ .poll) (hs : x.noStopReady) : x.restInv := by
  obtain ⟨⟨hinten, hgate, hstopped, hwire⟩, herror, hsrc⟩ := h
  have hmask : (x.inten.stopped = true → x.seq.succ = .stopped) ∧ (x.inten.lastTx = true → x.seq.succ = .lastTx) := by
    simp [hinten, IntEn.none]
  exact ⟨fun _ => ⟨hwire, hstopped, herror, hsrc⟩, hs, fun _ _ => hwire, fun _ _ hr => absurd (hwire.symm.trans hr) nofun,
    fun _ => hmask, fun _ hg => absurd (hgate.symm.trans hg) nofun, fun h => absurd h hp, fun _ => hwire,
    fun _ => ⟨hwire, hstopped⟩, fun _ => ⟨hwire, hstopped, herror, hsrc⟩⟩

/-- Before a start task and before the release of the staging lock the two invariants leave the bus settled. -/
theorem Bus.settled_of_phase (hg : x.gateInv) (hr : x.restInv) {p : Phase} (hp : x.seq.phase = p)
    (hb : p.beforeStart = true ∨ p = .unstage) : x.settled := by
  obtain ⟨hinten, hgate⟩ := hg.masked (fun h => by simp [← hp, h, Phase.beforeStart] at hb)
    (fun h => by simp [← hp, h, Phase.beforeStart] at hb)
  obtain ⟨hbefore, -, -, -, -, -, -, -, -, hunstage⟩ := hr
  obtain ⟨hwire, hstopped, herror, hsrc⟩ := hb.elim (fun h => hbefore (hp ▸ h)) fun h => hunstage (hp.trans h)
  exact ⟨⟨hinten, hgate, hstopped, hwire⟩, herror, hsrc⟩

end

/-! ## The moves of the sequencer -/

/-- What `Bus.settled` speaks of. -/
def Bus.signals (x : Bus) : IntEn × Gate × Events × ErrSrc × Wire := (x.inten, x.gate, x.ev, x.errSrc, x.wire)

theorem Bus.settled.of_signals {x y : Bus} (h : x.settled) (e : y.signals = x.signals) : y.settled := by
  obtain ⟨⟨hinten, hgate, hstopped, hwire⟩, herror, hsrc⟩ := h
  simp only [Bus.signals, Prod.mk.injEq] at e
  obtain ⟨e1, e2, e3, e4, e5⟩ := e
  exact ⟨⟨e1.trans hinten, e2.trans hgate, by rw [e3, hstopped], by rw [e5, hwire]⟩, by rw [e3, herror], e4.trans hsrc⟩

/-- A change that leaves the signals of a settled bus alone may enter the phases that `Bus.settled.restInv` names. -/
theorem Bus.settled.leads {x y : Bus} (h : x.settled) (e : y.signals = x.signals) (hp : y.seq.phase ≠ .poll)
    (hs : y.noStopReady) : y.restInv := (h.of_signals e).restInv hp hs

/-- A start that zeroes `TXAMT` sets a transmit going of which nothing has been sent (43 R151). -/
theorem Bus.underway_startTx {c : Config} {x y : Bus} (h : x.settled) (hp : x.seq.phase = .start) (hs : x.noStopReady)
    (hz : c.txAmtZeroed = true) (hy : startTx c x = .ok y) : y.underway := by
  obtain ⟨⟨-, -, hstopped, hwire⟩, herror, -⟩ := h
  rcases startTx_ok c x y hy with ⟨-, rfl⟩ | ⟨-, -, hn, rfl⟩
  · exact ⟨fun _ => hwire, fun _ hr => absurd (hwire.symm.trans hr) nofun⟩
  · refine ⟨fun he => by simp [hstopped, herror] at he, fun hl _ => ?_⟩
    obtain ⟨-, htxn, hsrx⟩ := hs hp hl
    exact ⟨rfl, htxn, hsrx, by simpa [hz] using Byte.toNat_pos _ hn⟩

/-- No short of a write leads to a receive (30 R82). -/
theorem Bus.programTx_ltxSrx (x : Bus) (a : Half) (src : TxSource) (n : Nat) (noStop : Bool) :
    (x.programTx a src n noStop).shorts.ltxSrx = false := by
  cases noStop <;> rfl

/-- A start of a receive sets no transmit going; its command awaits the stop. -/
theorem Bus.underway_startRx {x y : Bus} (h : x.settled) (hs : x.seq.succ ≠ .lastTx) (hy : startRx x = .ok y) : y.underway := by
  obtain ⟨⟨-, -, hstopped, hwire⟩, herror, -⟩ := h
  rcases startRx_ok x y hy with ⟨-, rfl⟩ | ⟨-, -, -, rfl⟩
  · exact ⟨fun _ => hwire, fun hl => absurd hl hs⟩
  · exact ⟨fun he => by simp [hstopped, herror] at he, fun hl => absurd hl hs⟩

/-- `P_UNMASK` unmasks the awaited sources alone. -/
theorem Bus.awaited_unmask {x : Bus} (hm : x.inten = IntEn.none ∧ x.gate = .locked) : x.unmask.awaited := by
  obtain ⟨hinten, hgate⟩ := hm
  refine ⟨?_, fun hg => absurd (hgate.symm.trans hg) nofun⟩
  cases hs : x.seq.succ <;> simp [Bus.unmask, hinten, hs, IntEn.unmask, IntEn.none]

/-- The handler signals for an awaited event. -/
theorem Bus.awaited.handler {x : Bus} (h : x.awaited) (hirq : x.irq = true) : x.handler.awaited := by
  obtain ⟨⟨-, hlast⟩, -⟩ := h
  refine ⟨⟨nofun, nofun⟩, fun _ hs => ?_⟩
  simp only [Bus.irq, Bool.or_eq_true, Bool.and_eq_true] at hirq
  rcases hirq with (⟨he, -⟩ | ⟨-, hm⟩) | ⟨he, -⟩
  · exact .inl he
  · exact absurd (hs.symm.trans (hlast hm)) nofun
  · exact .inr he

/-- The wake of a command that awaits the stop finds the transfer over (42 R132). -/
theorem Bus.restInv_wake {x : Bus} (hu : x.underway) (ha : x.awaited) (hg : x.gate = .unlocked) : x.wake.restInv := by
  by_cases hs : x.seq.succ = .lastTx
  · have hp : x.wake.seq.phase = .poll := by simp [Bus.wake, hs]
    exact (Bus.restInv_iff_of_awaiting (by rw [hp]; rfl)).2 ⟨⟨hu.terminal, hu.short⟩, fun hw => (by simp [hp] at hw), fun _ => hs⟩
  · have hstopped : x.seq.succ = .stopped := by cases h : x.seq.succ <;> simp_all
    exact (Bus.restInv_iff_of_ack (by simp [Bus.wake, hs])).2 (hu.terminal (ha.signal hg hstopped))

/-- The poll of a no-stop write passes only when the transfer is over: while it runs `TXAMT` is short of the count (42 R133). -/
theorem Bus.atRest_of_pollDone {x : Bus} (hu : x.underway) (hs : x.seq.succ = .lastTx) (hd : x.pollDone = true) :
    x.wire.atRest = true := by
  simp only [Bus.pollDone, Bool.or_eq_true, beq_iff_eq] at hd
  rcases hd with he | ha
  · exact hu.terminal (.inr he)
  · by_contra hr
    obtain ⟨-, htxn, -, hlt⟩ := hu.short hs (by simpa using hr)
    rw [ha, htxn] at hlt
    exact absurd hlt (Nat.lt_irrefl _)

/-- Step 5 of `FINISH` leaves the bus settled: it clears the error and its source. -/
theorem Bus.quiet.finishClassify_restInv {x : Bus} (h : x.quiet) : x.finishClassify.restInv := by
  obtain ⟨hinten, hgate, hstopped, hwire⟩ := h
  have hset : x.classified.settled := ⟨⟨hinten, hgate, hstopped, hwire⟩, rfl, rfl⟩
  unfold Bus.finishClassify
  split <;> exact hset.leads rfl nofun nofun

/-- A meaning keeps the rest invariant of its bus, if a start zeroes `TXAMT` and the command is the one that the bus latched. -/
theorem ExecMove.restInv {i : Instr} {s t : State} (m : ExecMove i s t) (hz : s.cfg.txAmtZeroed = true)
    (hl : i.opcode ≠ 0 → (s.bus i.bus).seq.phase ≠ .uninit → s.latched i.bus = .ok i)
    (hg : (s.bus i.bus).gateInv) (hr : (s.bus i.bus).restInv) : (t.bus i.bus).restInv := by
  have settled : ∀ {p}, (s.bus i.bus).seq.phase = p → p.beforeStart = true ∨ p = .unstage → (s.bus i.bus).settled :=
    Bus.settled_of_phase hg hr
  have latched : ∀ {p}, (s.bus i.bus).seq.phase = p → p ≠ .uninit → i.opcode ≠ 0 → (s.bus i.bus).seq.cmd.op = i.opcode :=
    fun hp hu h0 => (decodeCmd_opcode (hl h0 (hp ▸ hu))).symm
  have ⟨_, hready, _⟩ := hr
  cases m
  case blocked => exact hr
  all_goals
    simp only [State.bus_updBus_self, State.bus_setBus_self, State.bus_mk, State.toPhase, State.takeSLock, State.dropSLock,
      State.ret]
  case violated => exact Bus.restInv_of_inert (.inr rfl)
  case init => exact Bus.settled.restInv ⟨⟨rfl, rfl, rfl, rfl⟩, rfl, rfl⟩ nofun nofun
  case accept hp | stageCopy hp _ | unsupported hp _ | acquireNow hp _ | acquireWaits hp _ | acquireTakes hp _ | release hp _ |
      stageLock hp _ | programRx hp _ | programTxRx hp _ =>
    exact (settled hp (.inl rfl)).leads rfl nofun nofun
  case checked hp _ _ =>
    split <;> exact (settled hp (.inl rfl)).leads rfl nofun nofun
  case programTx ho hp _ _ =>
    refine (settled hp (.inl rfl)).leads rfl nofun fun _ _ => ⟨?_, rfl, ?_⟩
    · rcases ho with ho | ho
      · exact .inl ((latched hp nofun (by simp [ho])).trans ho)
      · exact .inr ((latched hp nofun (by simp [ho])).trans ho)
    · exact Bus.programTx_ltxSrx ..
  case unstage hp => exact (settled hp (.inr rfl)).leads rfl nofun nofun
  case startTx hp hx =>
    have hu := Bus.underway_startTx (settled hp (.inl rfl)) hp hready hz hx
    exact (Bus.restInv_iff_of_awaiting rfl).2 ⟨⟨hu.terminal, hu.short⟩, nofun, nofun⟩
  case startRx ho hp hx =>
    have hs : (s.bus i.bus).seq.succ ≠ .lastTx := fun hs => by
      obtain ⟨hop, -⟩ := hready hp hs
      simp [latched hp nofun (by simp [ho]), ho] at hop
    have hu := Bus.underway_startRx (settled hp (.inl rfl)) hs hx
    exact (Bus.restInv_iff_of_awaiting rfl).2 ⟨⟨hu.terminal, hu.short⟩, nofun, nofun⟩
  case unmask hp =>
    have ha := Bus.awaited_unmask (hg.masked (by simp [hp]) (by simp [hp]))
    obtain ⟨hu, -⟩ := (Bus.restInv_iff_of_awaiting (by rw [hp]; rfl)).1 hr
    exact (Bus.restInv_iff_of_awaiting rfl).2 ⟨⟨hu.terminal, hu.short⟩, fun _ => ha, nofun⟩
  case wake hp hopen _ =>
    obtain ⟨hu, ha, -⟩ := (Bus.restInv_iff_of_awaiting (by rw [hp]; rfl)).1 hr
    exact Bus.restInv_wake hu (ha hp) hopen
  case polled hp hd =>
    obtain ⟨hu, -, hs⟩ := (Bus.restInv_iff_of_awaiting (by rw [hp]; rfl)).1 hr
    have hrest := Bus.atRest_of_pollDone hu (hs hp) hd
    exact (Bus.restInv_iff_of_ack rfl).2 hrest
  case ackStopped hp => exact (Bus.restInv_iff_of_classify rfl).2 ⟨(Bus.restInv_iff_of_ack hp).1 hr, rfl⟩
  case classify hp => exact (Bus.quiet_of_classify hg hr hp).finishClassify_restInv

/-! ## The wire engine and the handler -/

/-- The wire engine keeps the ties of a running transfer: it ends it, or raises no terminal event and sends no last byte. -/
theorem WireMove.underway {b : BusId} {s t : State} (m : WireMove s b t) (h : (s.bus b).underway) : (t.bus b).underway := by
  obtain ⟨hrun, -, -, -, -, hend | ⟨hstopped, herror, -, hkeep⟩⟩ := m.progress
  · exact ⟨fun _ => hend, fun _ hr => absurd (hend.symm.trans hr) nofun⟩
  · obtain ⟨x, hx⟩ := m.bus_frame
    obtain ⟨hseq, hcnt, hshorts⟩ : (t.bus b).seq = (s.bus b).seq ∧ (t.bus b).txCnt = (s.bus b).txCnt ∧
        (t.bus b).shorts = (s.bus b).shorts := by simp [hx]
    refine ⟨fun he => ?_, fun hs _ => ?_⟩
    · rw [hstopped, herror] at he
      exact absurd ((h.terminal he).symm.trans hrun) nofun
    · rw [hseq] at hs ⊢
      rw [hcnt, hshorts]
      obtain ⟨htx, htxn, hsrx, hlt⟩ := h.short hs hrun
      obtain ⟨htx', hamt⟩ := hkeep hsrx htx
      exact ⟨htx', htxn, hsrx, hamt.elim (fun e => by rwa [e]) id⟩

/-- The wire engine clears no awaited event. -/
theorem WireMove.awaited {b : BusId} {s t : State} (m : WireMove s b t) (h : (s.bus b).awaited) : (t.bus b).awaited := by
  obtain ⟨-, hstopped, herror, -⟩ := m.progress
  obtain ⟨x, hx⟩ := m.bus_frame
  obtain ⟨hseq, hinten, hgate⟩ : (t.bus b).seq = (s.bus b).seq ∧ (t.bus b).inten = (s.bus b).inten ∧
      (t.bus b).gate = (s.bus b).gate := by simp [hx]
  obtain ⟨hmasks, hsignal⟩ := h
  rw [← hseq, ← hinten] at hmasks
  rw [← hseq, ← hgate] at hsignal
  exact ⟨hmasks, fun hg hs => (hsignal hg hs).imp hstopped herror⟩

/-- The wire engine moves only while a transfer runs, so not before a start task and not after the wait. -/
theorem WireMove.restInv {b : BusId} {s t : State} (m : WireMove s b t) (hg : (s.bus b).gateInv) (h : (s.bus b).restInv) :
    (t.bus b).restInv := by
  obtain ⟨hrun, -⟩ := m.progress
  have hseq : (t.bus b).seq = (s.bus b).seq := by
    obtain ⟨x, hx⟩ := m.bus_frame
    rw [hx]
  have running : ∀ {P : Prop}, (s.bus b).wire.atRest = true → P := fun hr => absurd (hr.symm.trans hrun) nofun
  cases hp : (s.bus b).seq.phase
  case uninit => exact Bus.restInv_of_inert (.inl (by rw [hseq, hp]))
  case faulted => exact Bus.restInv_of_inert (.inr (by rw [hseq, hp]))
  case idle | check | pinLock | stageLock | stageCopy | program | start =>
    exact running (Bus.settled_of_phase hg h hp (.inl rfl)).wire
  case unstage => exact running (Bus.settled_of_phase hg h hp (.inr rfl)).wire
  case ack => exact running ((Bus.restInv_iff_of_ack hp).1 h)
  case classify => exact running ((Bus.restInv_iff_of_classify hp).1 h).1
  case unmask | wait | poll =>
    obtain ⟨hu, hwait, hpoll⟩ := (Bus.restInv_iff_of_awaiting (by rw [hp]; rfl)).1 h
    rw [← hseq] at hwait hpoll
    exact (Bus.restInv_iff_of_awaiting (by rw [hseq, hp]; rfl)).2 ⟨m.underway hu, fun hw => m.awaited (hwait hw), hpoll⟩

/-- The handler's turn comes in `P_WAIT`, or on a stopped sequencer. -/
theorem Bus.restInv_handler {x : Bus} (hg : x.gateInv) (h : x.restInv) (hirq : x.irq = true) : x.handler.restInv := by
  by_cases hf : x.seq.phase = .faulted
  · exact Bus.restInv_of_inert (.inr hf)
  · have hp : x.seq.phase = .wait := (hg hf).2 (Bus.inten_of_irq hirq)
    have hawait : x.seq.phase.awaiting = true := by rw [hp]; rfl
    obtain ⟨hu, ha, hpoll⟩ := (Bus.restInv_iff_of_awaiting hawait).1 h
    exact (Bus.restInv_iff_of_awaiting (x := x.handler) hawait).2
      ⟨⟨hu.terminal, hu.short⟩, fun _ => (ha hp).handler hirq, hpoll⟩

/-- A presented command is latched only by a sequencer at rest, never by one about to start a transfer. -/
theorem Bus.restInv_called {x : Bus} (h : x.restInv) (k : Nat) (a : Bool) (c : Cmd)
    (ha : a = true → x.seq.phase = .idle ∨ x.seq.phase = .uninit) : (x.called k a c).restInv := by
  cases a
  case false => exact h
  case true =>
    obtain ⟨hbefore, -, hlater⟩ := h
    refine ⟨hbefore, fun hp => ?_, hlater⟩
    have hp : x.seq.phase = .start := hp
    rcases ha rfl with h | h <;> rw [hp] at h <;> cases h

end Sys2Proof.Machine

open Sys2Proof Sys2Proof.Machine

/-- Settles O49: together with the gate invariant, which says where the handler moves, every move keeps the ties. -/
theorem stepKeepsRestInvariant : Obligations.StepKeepsRestInvariant := by
  intro s t hz hg hr h b
  refine (step_keeps_bus (P := fun x => x.gateInv ∧ x.restInv) h (fun c => ⟨hg c, hr c⟩) ?exec ?busy ?wire ?isr ?call
    ?other b).2
  case exec =>
    intro i u v hc hu hl m
    obtain ⟨hgu, hru⟩ := hu i.bus
    exact ⟨m.gateInv hgu, m.restInv (by rwa [hc]) hl hgu hru⟩
  case busy => exact fun _ _ => ⟨Bus.gateInv_of_faulted rfl, Bus.restInv_of_inert (.inr rfl)⟩
  case wire => exact fun _ _ _ _ ⟨hgu, hru⟩ m => ⟨m.gateInv hgu, m.restInv hgu hru⟩
  case isr => exact fun _ ⟨hgx, hrx⟩ hirq => ⟨hgx.handler hirq, Bus.restInv_handler hgx hrx hirq⟩
  case call => exact fun _ k a _ ⟨hgx, hrx⟩ ha => ⟨hgx, Bus.restInv_called hrx k a _ ha⟩
  case other => exact fun _ _ _ _ hx => hx
end

section
/-! PROOF. The registers a transfer runs with (43 R168): every command past `P_CHECK` has operands that passed it, `P_PROGRAM`
writes counts and shorts that suit them, on a wire at rest, and the wire engine keeps its index below the count. -/

namespace Sys2Proof

/-- The operation `i` on bus `b`. -/
def Instr.onBus (b : BusId) : Instr → Instr
  | .init _ => .init b
  | .acquire _ => .acquire b
  | .release _ => .release b
  | .write _ f a n p => .write b f a n p
  | .writeReg _ f a r n p => .writeReg b f a r n p
  | .read _ f a n p => .read b f a n p
  | .readReg _ f a r n p => .readReg b f a r n p

theorem Instr.onBus_over (i : Instr) (b : BusId) (c : Cmd) :
    (i.onBus b).over { c with bus := b } = { i.over c with bus := b } := by cases i <;> rfl

theorem Instr.onBus_wf (i : Instr) (b : BusId) : (i.onBus b).wf = i.wf := by cases i <;> rfl

/-- No check of an operation's operands looks at its bus (41 R101). -/
theorem violation_onBus (c : Config) (i : Instr) (b : BusId) : Machine.violation c (i.onBus b) = Machine.violation c i := by
  cases i <;> rfl

/-- The same command record for another bus decodes to the same operation of that bus. -/
theorem decodeCmd_onBus {c : Cmd} {i : Instr} (h : decodeCmd c = .ok i) (b : BusId) :
    decodeCmd { c with bus := b } = .ok (i.onBus b) := by
  have hover := i.onBus_over b c
  rw [over_of_decodeCmd i c h] at hover
  rw [← hover, decodeCmd_over]
  exact checked_of_wf ((i.onBus_wf b).trans (decodeCmd_wf c i h))

end Sys2Proof

namespace Sys2Proof.Machine

/-! ## The invariant, bus by bus -/

/-- A running transfer has programmed registers, and its index is below its count. -/
structure Bus.wireProgrammed (x : Bus) : Prop where
  transmit : x.wire.phase.transmitting = true → x.txProgrammed ∧ x.wire.idx < x.txCnt.toNat
  receive  : x.wire.phase.receiving = true → x.rxProgrammed ∧ x.wire.idx < x.rxCnt.toNat

/-- The phases from the check of the operands to their use. -/
def Phase.beforeProgrammed : Phase → Bool
  | .stageLock | .stageCopy | .program => true
  | .uninit | .idle | .check | .pinLock | .start | .unmask | .wait | .poll | .ack | .classify | .unstage | .faulted => false

theorem Phase.beforeProgrammed_eq_true_iff (p : Phase) :
    p.beforeProgrammed = true ↔ p = .stageLock ∨ p = .stageCopy ∨ p = .program := by
  cases p <;> simp [Phase.beforeProgrammed]

/-- The latch of a command in flight decodes, with operands that passed their check once that is past, and in `P_START` the
registers of its start task are programmed. -/
structure Bus.commandProgrammed (c : Config) (x : Bus) : Prop where
  decodes  : x.seq.phase.inFlight = true → ∃ i, decodeCmd x.seq.cmd = .ok i
  passed   : x.seq.phase.beforeProgrammed = true → ∀ i, decodeCmd x.seq.cmd = .ok i → violation c i = none
  transmit : x.seq.phase = .start → x.seq.cmd.op ≠ 6 → x.txProgrammed
  receive  : x.seq.phase = .start → x.seq.cmd.op = 6 → x.rxProgrammed

/-- What a bus's sequencer has latched is what the latch decodes to, on that bus. -/
theorem State.latched_of_decodeCmd {s : State} {b : BusId} {i : Instr} (h : decodeCmd (s.bus b).seq.cmd = .ok i) :
    s.latched b = .ok (i.onBus b) := decodeCmd_onBus h b

theorem State.decodeCmd_of_latched {s : State} {b : BusId} {i : Instr} (h : s.latched b = .ok i) :
    decodeCmd (s.bus b).seq.cmd = .ok (i.onBus (s.bus b).seq.cmd.bus) := decodeCmd_onBus h (s.bus b).seq.cmd.bus

theorem State.programmedInv_iff (s : State) :
    s.programmedInv ↔ ∀ b, (s.bus b).wireProgrammed ∧ (s.bus b).commandProgrammed s.cfg := by
  refine forall_congr' fun b => ⟨?_, ?_⟩
  · rintro ⟨htx, hrx, hdecodes, hpassed, hstartTx, hstartRx⟩
    refine ⟨⟨htx, hrx⟩, fun hf => ?_, fun hp i hi => ?_, hstartTx, hstartRx⟩
    · obtain ⟨i, hi⟩ := hdecodes hf
      exact ⟨_, State.decodeCmd_of_latched hi⟩
    · rw [← violation_onBus _ i b]
      exact hpassed ((Phase.beforeProgrammed_eq_true_iff _).1 hp) _ (State.latched_of_decodeCmd hi)
  · rintro ⟨⟨htx, hrx⟩, hdecodes, hpassed, hstartTx, hstartRx⟩
    refine ⟨htx, hrx, fun hf => ?_, fun hp i hi => ?_, hstartTx, hstartRx⟩
    · obtain ⟨i, hi⟩ := hdecodes hf
      exact ⟨_, State.latched_of_decodeCmd hi⟩
    · rw [← violation_onBus _ i (s.bus b).seq.cmd.bus]
      exact hpassed ((Phase.beforeProgrammed_eq_true_iff _).2 hp) _ (State.decodeCmd_of_latched hi)

section
variable {c : Config} {x y : Bus}

/-- On a wire at rest nothing runs. -/
theorem Bus.wireProgrammed_of_atRest (h : x.wire.atRest = true) : x.wireProgrammed := by
  rcases x.wire.atRest_eq_true_iff.1 h with h | h <;>
    exact ⟨fun ht => (by simp [h, WirePhase.transmitting] at ht), fun hr => (by simp [h, WirePhase.receiving] at hr)⟩

/-- A change that leaves the wire record and the registers alone. -/
theorem Bus.wireProgrammed.keep (h : x.wireProgrammed) (hwire : y.wire = x.wire)
    (htx : y.txCnt = x.txCnt ∧ y.txPtr = x.txPtr) (hrx : y.rxCnt = x.rxCnt) (hshorts : y.shorts = x.shorts) :
    y.wireProgrammed := by
  obtain ⟨htransmit, hreceive⟩ := h
  obtain ⟨hcnt, hptr⟩ := htx
  constructor
  · rwa [Bus.txProgrammed, hwire, hcnt, hptr, hrx, hshorts]
  · rwa [Bus.rxProgrammed, hwire, hrx, hshorts]

/-- Nothing is asked of a sequencer with no command in flight. -/
theorem Bus.commandProgrammed_of_not_inFlight (h : x.seq.phase.inFlight = false) : x.commandProgrammed c := by
  have other : ∀ {P : Prop} {p : Phase}, p.inFlight = true → x.seq.phase = p → P := fun hf hp => by
    rw [hp, hf] at h
    cases h
  refine ⟨fun hf => other hf rfl, fun hp => ?_, other rfl, other rfl⟩
  rcases (Phase.beforeProgrammed_eq_true_iff _).1 hp with hp | hp | hp <;> exact other rfl hp

/-- A command in flight goes on to a phase other than `P_START`, not back to one before the registers are programmed. -/
theorem Bus.commandProgrammed.advance (h : x.commandProgrammed c) {p : Phase} (hp : x.seq.phase = p) (hf : p.inFlight = true)
    (hc : y.seq.cmd = x.seq.cmd) (hb : y.seq.phase.beforeProgrammed = true → p.beforeProgrammed = true)
    (hs : y.seq.phase ≠ .start) : y.commandProgrammed c := by
  subst hp
  obtain ⟨hdecodes, hpassed, -, -⟩ := h
  refine ⟨fun _ => ?_, fun hy => ?_, fun h => absurd h hs, fun h => absurd h hs⟩ <;> rw [hc]
  · exact hdecodes hf
  · exact hpassed (hb hy)

/-- A change that leaves the sequencer and the registers alone. -/
theorem Bus.commandProgrammed.keep (h : x.commandProgrammed c) (hseq : y.seq = x.seq)
    (htx : y.txCnt = x.txCnt ∧ y.txPtr = x.txPtr) (hrx : y.rxCnt = x.rxCnt) (hshorts : y.shorts = x.shorts) :
    y.commandProgrammed c := by
  obtain ⟨hdecodes, hpassed, htransmit, hreceive⟩ := h
  obtain ⟨hcnt, hptr⟩ := htx
  constructor
  · rwa [hseq]
  · rwa [hseq]
  · rwa [Bus.txProgrammed, hseq, hcnt, hptr, hrx, hshorts]
  · rwa [Bus.rxProgrammed, hseq, hrx, hshorts]

/-! ## `P_PROGRAM` and `P_START` -/

/-- A count of 1 to 255 is the count that is written to an 8-bit register. -/
theorem Byte.toNat_ofNat_pos {n : Nat} (h : 0 < n ∧ n ≤ 255) : 0 < (BitVec.ofNat 8 n : Byte).toNat := by
  rw [Byte.toNat_ofNat h.2]
  exact h.1

/-- The registers of a write: a source other than the register buffer, a count, and no short to a receive (41 R109). -/
theorem Bus.programTx_txProgrammed (x : Bus) (a : Half) {src : TxSource} {n p : Nat} (noStop : Bool)
    (hs : src = .staging ∨ src = .mem p) (hn : 0 < n ∧ n ≤ 255) : (x.programTx a src n noStop).txProgrammed := by
  have hsrx := x.programTx_ltxSrx a src n noStop
  refine ⟨Byte.toNat_ofNat_pos hn, fun h => ?_, fun h => ?_, fun h => ?_⟩
  · simp [hsrx] at h
  · simp [hsrx] at h
  · have h : src = .regBuf := h
    rcases hs with rfl | rfl <;> cases h

/-- The registers of `READ_REG`: one or two bytes of the register buffer, then a receive (41 R108). -/
theorem Bus.programTxRx_txProgrammed (x : Bus) (a : Half) (f : Byte) (r : Half) (p : Nat) {n : Nat} (hn : 0 < n ∧ n ≤ 255) :
    (x.programTxRx a f r p n).txProgrammed := by
  have hcnt : (x.programTxRx a f r p n).txCnt = if f.getLsbD 1 then 2 else 1 := ofNat_regCount f
  have hcount : 0 < (x.programTxRx a f r p n).txCnt.toNat ∧ (x.programTxRx a f r p n).txCnt.toNat ≤ 2 := by
    rw [hcnt]
    split <;> decide
  exact ⟨hcount.1, nofun, fun _ => ⟨rfl, Byte.toNat_ofNat_pos hn⟩, fun _ => hcount.2⟩

/-- The registers that `P_PROGRAM` leaves for the start task of its operation. -/
theorem Bus.commandProgrammed.programmed (h : x.commandProgrammed c) (hp : x.seq.phase = .program)
    (hy : y.seq.phase = .start ∧ y.seq.cmd = x.seq.cmd) (htx : y.seq.cmd.op ≠ 6 → y.txProgrammed)
    (hrx : y.seq.cmd.op = 6 → y.rxProgrammed) : y.commandProgrammed c := by
  obtain ⟨hphase, hcmd⟩ := hy
  refine ⟨fun _ => ?_, fun hb => ?_, fun _ => htx, fun _ => hrx⟩
  · rw [hcmd]
    exact h.decodes (by rw [hp]; rfl)
  · rw [hphase] at hb
    cases hb

/-- The start tasks set a transfer going with the registers as they are programmed (43 R151, R156). -/
theorem Bus.wireProgrammed_startTx (h : x.wireProgrammed) (hx : x.txProgrammed) (hy : startTx c x = .ok y) (p : Phase) :
    (y.toPhase p).wireProgrammed := by
  rcases startTx_ok c x y hy with ⟨-, rfl⟩ | ⟨-, -, -, rfl⟩
  · exact h.keep rfl ⟨rfl, rfl⟩ rfl rfl
  · exact ⟨fun _ => ⟨hx, hx.1⟩, nofun⟩

theorem Bus.wireProgrammed_startRx (h : x.wireProgrammed) (hx : x.rxProgrammed) (hy : startRx x = .ok y) (p : Phase) :
    (y.toPhase p).wireProgrammed := by
  rcases startRx_ok x y hy with ⟨-, rfl⟩ | ⟨-, -, -, rfl⟩
  · exact h.keep rfl ⟨rfl, rfl⟩ rfl rfl
  · exact ⟨nofun, fun _ => ⟨hx, hx.1⟩⟩

/-- Step 5 of `FINISH` leaves the latch and the registers of both directions alone, and ends the command or goes on to
`P_UNSTAGE`. -/
theorem Bus.finishClassify_programmed (hw : x.wireProgrammed) (hc : x.commandProgrammed c) (hp : x.seq.phase = .classify) :
    x.finishClassify.wireProgrammed ∧ x.finishClassify.commandProgrammed c := by
  unfold Bus.finishClassify
  split
  · exact ⟨hw.keep rfl ⟨rfl, rfl⟩ rfl rfl, hc.advance hp rfl rfl nofun nofun⟩
  · exact ⟨hw.keep rfl ⟨rfl, rfl⟩ rfl rfl, Bus.commandProgrammed_of_not_inFlight rfl⟩

end

/-! ## The moves of the agents -/

/-- A meaning programs registers only on a wire at rest, and leaves a running transfer's alone. -/
theorem ExecMove.wireProgrammed {i : Instr} {s t : State} (m : ExecMove i s t)
    (hl : i.opcode ≠ 0 → (s.bus i.bus).seq.phase ≠ .uninit → s.latched i.bus = .ok i)
    (hg : (s.bus i.bus).gateInv) (hr : (s.bus i.bus).restInv) (hw : (s.bus i.bus).wireProgrammed)
    (hc : (s.bus i.bus).commandProgrammed s.cfg) : (t.bus i.bus).wireProgrammed := by
  have op : (s.bus i.bus).seq.phase = .start → i.opcode ≠ 0 → (s.bus i.bus).seq.cmd.op = i.opcode := fun hp h0 =>
    State.latched_op _ _ _ (hl h0 (by simp [hp]))
  have rest : (s.bus i.bus).seq.phase = .program → (s.bus i.bus).wire.atRest = true := fun hp =>
    (Bus.settled_of_phase hg hr hp (.inl rfl)).wire
  cases m
  case blocked => exact hw
  all_goals
    simp only [State.bus_updBus_self, State.bus_setBus_self, State.bus_mk, State.toPhase, State.takeSLock, State.dropSLock,
      State.ret]
  case init => exact Bus.wireProgrammed_of_atRest rfl
  case programTx hp _ _ | programRx hp _ | programTxRx hp _ => exact Bus.wireProgrammed_of_atRest (rest hp)
  case startTx ho hp hx =>
    have ho6 : (s.bus i.bus).seq.cmd.op ≠ 6 := by
      rcases ho with ho | ho | ho <;> simp [op hp (by simp [ho]), ho]
    exact Bus.wireProgrammed_startTx hw (hc.transmit hp ho6) hx _
  case startRx ho hp hx => exact Bus.wireProgrammed_startRx hw (hc.receive hp ((op hp (by simp [ho])).trans ho)) hx _
  case classify hp => exact (Bus.finishClassify_programmed hw hc hp).1
  case violated | acquireNow | acquireWaits | acquireTakes | release | accept | unsupported | checked | stageLock | stageCopy |
      unmask | wake | polled | ackStopped | unstage =>
    exact hw.keep rfl ⟨rfl, rfl⟩ rfl rfl

/-- The sequencer that accepts a command has latched it: the record with the operation's fields over it decodes. -/
theorem Bus.latch_decodes (x : Bus) {i : Instr} (hi : i.wf = true) : decodeCmd (x.latch i).seq.cmd = .ok i :=
  (decodeCmd_over i x.seq.cmd).trans (checked_of_wf hi)

/-- A meaning latches what decodes, goes past `P_CHECK` only with operands that pass it, and programs registers that suit
them. -/
theorem ExecMove.commandProgrammed {i : Instr} {s t : State} (m : ExecMove i s t)
    (hl : i.opcode ≠ 0 → (s.bus i.bus).seq.phase ≠ .uninit → s.latched i.bus = .ok i)
    (hw : (s.bus i.bus).wireProgrammed) (hc : (s.bus i.bus).commandProgrammed s.cfg) :
    (t.bus i.bus).commandProgrammed s.cfg := by
  have latched : ∀ {p}, (s.bus i.bus).seq.phase = p → p ≠ .uninit → i.opcode ≠ 0 → s.latched i.bus = .ok i :=
    fun hp hu h0 => hl h0 (hp ▸ hu)
  have accepted : ∀ {y : Bus}, (s.bus i.bus).seq.phase = .idle → i.opcode ≠ 0 → y.seq.phase ≠ .start →
      y.seq.phase.beforeProgrammed = false → y.seq.cmd = ((s.bus i.bus).latch i).seq.cmd → y.commandProgrammed s.cfg :=
    fun hp h0 hs hb hcmd => ⟨fun _ => ⟨i, hcmd ▸ Bus.latch_decodes _ (decodeCmd_wf _ _ (latched hp nofun h0))⟩,
      fun h => (by rw [hb] at h; cases h), fun h => absurd h hs, fun h => absurd h hs⟩
  have op : (s.bus i.bus).seq.phase = .program → i.opcode ≠ 0 → (s.bus i.bus).seq.cmd.op = i.opcode := fun hp h0 =>
    State.latched_op _ _ _ (latched hp nofun h0)
  have passed : (s.bus i.bus).seq.phase = .program → i.opcode ≠ 0 → violation s.cfg i = none := fun hp h0 => by
    rw [← violation_onBus _ i (s.bus i.bus).seq.cmd.bus]
    exact hc.passed (by rw [hp]; rfl) _ (State.decodeCmd_of_latched (latched hp nofun h0))
  cases m
  case blocked => exact hc
  all_goals
    simp only [State.bus_updBus_self, State.bus_setBus_self, State.bus_mk, State.toPhase, State.takeSLock, State.dropSLock,
      State.ret]
  case violated | init | acquireNow | acquireTakes | release | unsupported | unstage =>
    exact Bus.commandProgrammed_of_not_inFlight rfl
  case acquireWaits ho hp _ => exact accepted hp (by simp [ho]) nofun rfl rfl
  case accept ht hp => exact accepted hp (opcode_of_isTransfer ht).1 nofun rfl rfl
  case checked ht hp hv _ =>
    have hi := State.decodeCmd_of_latched (latched hp nofun (opcode_of_isTransfer ht).1)
    refine ⟨fun _ => ⟨_, hi⟩, fun _ j hj => ?_, ?_, ?_⟩
    · cases hi.symm.trans hj
      exact (violation_onBus _ _ _).trans hv
    all_goals
      intro h
      simp only [Bus.toPhase_seq] at h
      split at h <;> cases h
  case stageLock hp _ | stageCopy hp _ => exact hc.advance hp rfl rfl (fun _ => rfl) nofun
  case programTx a src n f ho hp hs hn =>
    have h0 : i.opcode ≠ 0 := by rcases ho with ho | ho <;> simp [ho]
    refine hc.programmed hp ⟨rfl, rfl⟩ (fun _ => Bus.programTx_txProgrammed _ a _ hs (hn (passed hp h0))) fun h => ?_
    have h := (op hp h0).symm.trans h
    rcases ho with ho | ho <;> simp [ho] at h
  case programRx a n ho hp hn =>
    exact hc.programmed hp ⟨rfl, rfl⟩ (fun h => absurd ((op hp (by simp [ho])).trans ho) h) fun _ =>
      ⟨Byte.toNat_ofNat_pos (hn (passed hp (by simp [ho]))), rfl⟩
  case programTxRx a f r n ho hp hn =>
    exact hc.programmed hp ⟨rfl, rfl⟩
      (fun _ => Bus.programTxRx_txProgrammed _ a f r _ (hn (passed hp (by simp [ho])))) fun h => by
        have h := (op hp (by simp [ho])).symm.trans h
        simp [ho] at h
  case startTx hp hx => exact hc.advance hp rfl (by rw [Bus.toPhase_seq, startTx_seq hx]) nofun nofun
  case startRx hp hx => exact hc.advance hp rfl (by rw [Bus.toPhase_seq, startRx_seq hx]) nofun nofun
  case wake hp _ _ =>
    unfold Bus.wake
    split <;> exact hc.advance hp rfl rfl nofun nofun
  case classify hp => exact (Bus.finishClassify_programmed hw hc hp).2
  case unmask hp | polled hp _ | ackStopped hp => exact hc.advance hp rfl rfl nofun nofun

/-- The wire engine writes no register of the command. -/
theorem WireMove.commandProgrammed {c : Config} {b : BusId} {s t : State} (m : WireMove s b t)
    (h : (s.bus b).commandProgrammed c) : (t.bus b).commandProgrammed c := by
  obtain ⟨x, hx⟩ := m.bus_frame
  rw [hx]
  exact h.keep rfl ⟨rfl, rfl⟩ rfl rfl

/-- A transfer that ends in a NACK leaves the wire at rest. -/
theorem Bus.nacked_atRest (x : Bus) (k : NackKind) (stop : Bool) : (x.nacked k stop).wire.atRest = true := by
  cases stop <;> rfl

/-- The wire engine keeps its index below the count, and goes from a transmit to a receive only with the registers of both. -/
theorem WireMove.wireProgrammed {b : BusId} {s t : State} (m : WireMove s b t) (h : (s.bus b).wireProgrammed) :
    (t.bus b).wireProgrammed := by
  obtain ⟨htx, hrx⟩ := h
  cases m
  case receivedLast =>
    rw [State.bus_updBus_self]
    exact Bus.wireProgrammed_of_atRest rfl
  case received v rest hp hi hd =>
    obtain ⟨hregs, -⟩ := hrx (by rw [hp]; rfl)
    have hb : (s.storeReceived b v rest).bus b = { (s.bus b).emit [.data v] with
        rxData := rest, wire := { (s.bus b).wire with idx := (s.bus b).wire.idx + 1 } } := by simp [State.storeReceived]
    rw [hb]
    exact ⟨fun h => (by simp [hp, WirePhase.transmitting] at h), fun _ => ⟨hregs, hi⟩⟩
  all_goals simp only [State.bus_setBus_self, State.bus_mk]
  case addressNack | byteNack => exact Bus.wireProgrammed_of_atRest (Bus.nacked_atRest _ _ _)
  case addressAck rest hp ha =>
    rcases hp with hp | hp
    · exact ⟨fun _ => htx (by rw [hp]; rfl), fun h => by simp [hp, WirePhase.receiving] at h⟩
    · exact ⟨fun h => (by simp [hp, WirePhase.transmitting] at h), fun _ => hrx (by rw [hp]; rfl)⟩
  case byteAck v rest hp hi ha hv =>
    obtain ⟨hregs, -⟩ := htx (by rw [hp]; rfl)
    exact ⟨fun _ => ⟨hregs, hi⟩, fun h => by simp [hp, WirePhase.receiving] at h⟩
  case lastBegins hp hi => exact ⟨fun _ => htx (by rw [hp]; rfl), nofun⟩
  case lastAck v rest y hp h0 ha hv hy =>
    obtain ⟨⟨-, -, hreceive, -⟩, -⟩ := htx (by rw [hp]; rfl)
    rcases Bus.afterTransmit_ok _ _ hy with ⟨hsrx, -, hn, rfl⟩ | ⟨-, -, rfl⟩ | ⟨-, -, rfl⟩
    · obtain ⟨hstop, -⟩ := hreceive hsrx
      exact ⟨nofun, fun _ => ⟨⟨hn, hstop⟩, hn⟩⟩
    · exact Bus.wireProgrammed_of_atRest rfl
    · exact Bus.wireProgrammed_of_atRest rfl

/-- Presenting a command latches its record in a sequencer at rest alone. -/
theorem Bus.commandProgrammed.called {c : Config} {x : Bus} (h : x.commandProgrammed c) (k : Nat) (a : Bool) (cmd : Cmd)
    (ha : a = true → x.seq.phase = .idle ∨ x.seq.phase = .uninit) : (x.called k a cmd).commandProgrammed c := by
  cases a
  case false => exact h.keep rfl ⟨rfl, rfl⟩ rfl rfl
  case true =>
    refine Bus.commandProgrammed_of_not_inFlight ?_
    rcases ha rfl with hp | hp <;> rw [Bus.called_seq, hp] <;> rfl

/-- With `TXAMT` zeroed at a start, a step keeps the registers programmed, given the gate and the rest invariant: they say that
the wire is at rest when registers are written. -/
theorem step_keeps_programmedInv {s t : State} (hz : s.cfg.txAmtZeroed = true) (hg : s.gateInv) (hr : s.restInv)
    (hp : s.programmedInv) (h : step s = .next t) : t.programmedInv := by
  rw [State.programmedInv_iff] at hp ⊢
  rw [show t.cfg = s.cfg from (step_move s t h).cfg]
  refine fun b => (step_keeps_bus (P := fun x => (x.gateInv ∧ x.restInv) ∧ x.wireProgrammed ∧ x.commandProgrammed s.cfg) h
    (fun c => ⟨⟨hg c, hr c⟩, hp c⟩) ?exec ?busy ?wire ?isr ?call ?other b).2
  case exec =>
    intro i u v hcfg hu hl m
    obtain ⟨⟨hgu, hru⟩, hwu, hcu⟩ := hu i.bus
    rw [← hcfg] at hcu ⊢
    exact ⟨⟨m.gateInv hgu, m.restInv (by rwa [hcfg]) hl hgu hru⟩, m.wireProgrammed hl hgu hru hwu hcu,
      m.commandProgrammed hl hwu hcu⟩
  case busy =>
    exact fun _ ⟨_, hwx, _⟩ => ⟨⟨Bus.gateInv_of_faulted rfl, Bus.restInv_of_inert (.inr rfl)⟩,
      hwx.keep rfl ⟨rfl, rfl⟩ rfl rfl, Bus.commandProgrammed_of_not_inFlight rfl⟩
  case wire =>
    exact fun _ _ _ _ ⟨⟨hgu, hru⟩, hwu, hcu⟩ m =>
      ⟨⟨m.gateInv hgu, m.restInv hgu hru⟩, m.wireProgrammed hwu, m.commandProgrammed hcu⟩
  case isr =>
    exact fun _ ⟨⟨hgx, hrx⟩, hwx, hcx⟩ hirq => ⟨⟨hgx.handler hirq, Bus.restInv_handler hgx hrx hirq⟩,
      hwx.keep rfl ⟨rfl, rfl⟩ rfl rfl, hcx.keep rfl ⟨rfl, rfl⟩ rfl rfl⟩
  case call =>
    exact fun _ k a _ ⟨⟨hgx, hrx⟩, hwx, hcx⟩ ha =>
      ⟨⟨hgx, Bus.restInv_called hrx k a _ ha⟩, hwx.keep rfl ⟨rfl, rfl⟩ rfl rfl, hcx.called k a _ ha⟩
  case other =>
    exact fun _ _ _ _ ⟨⟨hgx, hrx⟩, hwx, hcx⟩ =>
      ⟨⟨hgx, hrx⟩, hwx.keep rfl ⟨rfl, rfl⟩ rfl rfl, hcx.keep rfl ⟨rfl, rfl⟩ rfl rfl⟩

end Sys2Proof.Machine

open Sys2Proof Sys2Proof.Machine

/-- Settles O50: each part is kept by a step, the registers with the help of the gate and the rest invariant. -/
theorem stepKeepsInvariant : Obligations.StepKeepsInvariant := by
  rintro s t hz ⟨hmem, hlock, hgate, hrest, hprog⟩ h
  exact ⟨stepKeepsMemoryInvariant s t hmem h, stepKeepsLockInvariant s t hlock h, stepKeepsGateInvariant s t hgate h,
    stepKeepsRestInvariant s t hz hgate hrest h, step_keeps_programmedInv hz hgate hrest hprog h⟩
end

section
/-! PROOF. One turn of the wire engine, as the change of its bus that the spec states (43 R152 to R160), and the runs of such
turns (43 R163). -/

namespace Sys2Proof.Machine

/-- A transfer that ends in a NACK: the error, and a stop or the held bus (43 R160). -/
theorem Bus.nacked_eq (x : Bus) (k : NackKind) (stop : Bool) : x.nacked k stop = { x with
    wlog := x.wlog ++ (if stop then [.stop] else []), errSrc := (x.markError k).errSrc
    ev := { x.ev with error := true, stopped := x.ev.stopped || stop }
    wire := if stop then ⟨.idle, 0, false⟩ else ⟨.held, 0, x.wire.held⟩ } := by
  cases stop
  · simp [Bus.nacked, Bus.hold, Bus.markError]
  · simp [Bus.nacked, Bus.stop, Bus.emit, Bus.markError]

/-- The byte of each source, as `TxByte` says it (20 R55). -/
theorem State.txByte_eq_ok {s : State} {b : BusId} {k : Nat} {d : Byte}
    (hmem : ∀ p, (s.bus b).txPtr = .mem p → d = Memory.read s.mem (Config.byteAddr s.cfg p k))
    (hstaging : (s.bus b).txPtr = .staging → s.staging[k]? = some d)
    (hreg : (s.bus b).txPtr = .regBuf → (k = 0 ∧ d = (s.bus b).regBuf.b0) ∨ (k = 1 ∧ d = (s.bus b).regBuf.b1)) :
    s.txByte b k = .ok d := by
  unfold State.txByte
  cases hp : (s.bus b).txPtr with
  | mem p => exact congrArg Except.ok (hmem p hp).symm
  | staging => simp [State.stagingByte, hstaging hp]
  | regBuf => rcases hreg hp with ⟨rfl, rfl⟩ | ⟨rfl, rfl⟩ <;> rfl

/-- A byte that is received is in memory at its address, and no other byte changes. -/
theorem Memory.stored (m : Memory) (a : Nat) (d : Byte) (h : Memory.wf m = true) :
    Memory.read (Memory.write m a d) a = d ∧ ∀ x, x ≠ a → Memory.read (Memory.write m a d) x = Memory.read m x :=
  ⟨Memory.read_write_self m a d h, fun x hx => Memory.read_write_ne m a x d hx⟩

section
variable {s : State} {b : BusId} (hb : s.hasBus b = true) (he : (s.bus b).enable = true)
include hb he

/-- In `W_TXLAST` the wire engine ends the last byte, with the slave's answer. -/
theorem wireStep_lastEnds (hp : (s.bus b).wire.phase = .txLast) : wireStep b s = lastEnds b s := by
  simp [wireStep, hb, he, hp]

/-- The last byte is acknowledged, with shorts that have no meaning (43 R168). -/
theorem wireStep_lastRefused {rest : List Answer} {v : Byte} {r : Refusal} (hp : (s.bus b).wire.phase = .txLast)
    (h0 : (s.bus b).txCnt ≠ 0) (ha : (s.bus b).acks = .ack :: rest) (hv : s.txByte b ((s.bus b).txCnt.toNat - 1) = .ok v)
    (hy : Bus.afterTransmit { (s.bus b).sendByte v .ack rest with txAmt := (s.bus b).txCnt } = .error r) :
    wireStep b s = .refused r := by
  rw [wireStep_lastEnds hb he hp, lastEnds, ha]
  simp only [if_neg h0, hv, hy]

/-- The last byte is received, with `LRX_STOP` clear (43 R168). -/
theorem wireStep_receivedWithoutStop {rest : List Byte} {v : Byte} (hp : (s.bus b).wire.phase = .rx)
    (hi : (s.bus b).wire.idx + 1 = (s.bus b).rxCnt.toNat) (hd : (s.bus b).rxData = v :: rest)
    (hl : (s.bus b).shorts.lrxStop = false) : wireStep b s = .refused .receiveWithoutStop := by
  simp [wireStep, hb, he, hp, rxStep, hd, hi, hl]

end

/-- Without the short to a receive the bus of a transmitted frame is stopped, or held, by `LTX_STOP` (43 R155). -/
theorem Bus.afterTransmit_of_transmitted {x : Bus} (frame : List Byte) (rest : List Answer) (h : x.shorts.ltxSrx = false) :
    (x.transmitted frame rest).afterTransmit = .ok (x.writeEnded frame rest (!x.shorts.ltxStop)) := by
  cases hs : x.shorts.ltxStop <;> simp [Bus.afterTransmit, Bus.writeEnded, Bus.transmitted, h, hs]

end Sys2Proof.Machine

open Sys2Proof Sys2Proof.Machine

/-- Settles O29: the acknowledged address phase of a transmit and of a receive. -/
theorem addressPhaseAcknowledged : Obligations.AddressPhaseAcknowledged := by
  intro s b rest hb he hp ha x wr
  refine (wireStep_addressAck rfl hb he hp ha).trans ?_
  rcases hp with hp | hp <;> simp [x, wr, hp, Bus.addressed, Bus.emit, Bus.addressSyms, Wire.dir]

/-- Settles O30: the address phase, then the NACK rule. -/
theorem addressNackEndsTransfer : Obligations.AddressNackEndsTransfer := by
  intro s b rest hb he hp ha x y
  obtain ⟨hstop, hhold⟩ := nackStops_of_fixed s.cfg s.draws
  refine ⟨nackStops s.cfg s.draws, nackDraws s.cfg s.draws, (wireStep_addressNack rfl hb he hp ha).trans ?_, hstop, hhold⟩
  rw [Bus.nacked_eq]
  rfl

/-- Settles O31: the three sources of the byte. -/
theorem transmitByteAcknowledged : Obligations.TransmitByteAcknowledged := fun _ _ _ _ hb he hp hi ha hmem hstaging hreg =>
  wireStep_byteAck rfl hb he hp hi ha (State.txByte_eq_ok hmem hstaging hreg)

/-- Settles O32: the byte and its answer, the free value of `TXAMT`, then the NACK rule. -/
theorem dataNackEndsTransfer : Obligations.DataNackEndsTransfer := by
  intro s b rest d i hb he hp ha hd x y
  obtain ⟨hstop, hhold⟩ := nackStops_of_fixed s.cfg (s.draws + 1)
  refine ⟨nackStops s.cfg (s.draws + 1), BitVec.ofNat 8 (if Config.freeBit s.draws then i else i + 1),
    nackDraws s.cfg (s.draws + 1), (wireStep_byteNack rfl hb he hp ha hd).trans ?_, ?_, hstop, hhold⟩
  · rw [Bus.nacked_eq]
    rfl
  · cases Config.freeBit s.draws
    · exact .inr rfl
    · exact .inl rfl

/-- Settles O33: the step puts nothing on the wire. -/
theorem lastByteBegins : Obligations.LastByteBegins := fun _ _ hb he hp hi => wireStep_lastBegins rfl hb he hp hi

/-- Settles O34: the four combinations of the two shorts of a transmitted last byte. -/
theorem lastByteAcknowledged : Obligations.LastByteAcknowledged := by
  intro s b rest d hb he hp h0 ha hd x y
  have acked : ∀ {z : Bus}, y.afterTransmit = .ok z → takeTurn (.wire b) s = .next (s.setBus b z) := fun hz =>
    wireStep_lastAck rfl hb he hp (Byte.toNat_pos _ h0) ha hd hz
  refine ⟨fun hsrx hstop hn => acked ?_, fun hsrx hstop => acked ?_, fun hsrx hstop => acked ?_, fun hsrx hstop => ?_⟩
  · have hn' : ¬x.rxCnt = 0#8 := hn
    simp [Bus.afterTransmit, y, hsrx, hstop, hn']
  · simp [Bus.afterTransmit, y, hsrx, hstop, Bus.stop, Bus.emit]
  · simp [Bus.afterTransmit, y, hsrx, hstop]
  · exact wireStep_lastRefused (r := .bothShorts) hb he hp h0 ha hd (by simp [Bus.afterTransmit, x, hsrx, hstop])

/-- Settles O35: a byte before the last, the last with `LRX_STOP` armed, and the last without. -/
theorem receivedByteStored : Obligations.ReceivedByteStored := by
  intro s b rest d hb he hp hd hm x at_ stored
  have hstored := Memory.stored s.mem at_ d hm
  refine ⟨fun hi => ⟨_, wireStep_received rfl hb he hp hi hd, hstored, rfl⟩,
    fun hi hl => ⟨_, wireStep_receivedLast rfl hb he hp hi hd hl, hstored, rfl⟩,
    fun hi hl => wireStep_receivedWithoutStop hb he hp hi hd hl⟩

/-- Settles O53: the frame is acknowledged to its end, and the armed short, a stop or none, acts. -/
theorem transmitRunSendsFrame : Obligations.TransmitRunSendsFrame := by
  intro s b frame rest sch hb he hp hi h0 hcount hsrx hsource ha hs
  have htransmits : s.transmits b frame := ⟨hb, he, hp, hi, hcount, hsource⟩
  have hrun := (htransmits.acked rfl h0 ha (Bus.afterTransmit_of_transmitted frame rest hsrx)).run hs
  rw [List.length_replicate] at hrun
  refine ⟨_, hrun, rfl, rfl, ?_⟩
  simp only [State.bus_mk, State.bus_setBus_self]
  obtain ⟨-, -, hlast, -, -, hacks, hamt, -, hlog⟩ := (s.bus b).writeEnded_fields frame rest (!(s.bus b).shorts.ltxStop)
  refine ⟨hlog.trans ?_, hamt, hacks, hlast, fun hl => ?_, fun hl => ?_⟩
  · cases (s.bus b).shorts.ltxStop <;> rfl
  · rw [hl]
    exact ⟨rfl, rfl⟩
  · rw [hl]
    exact ⟨rfl, rfl⟩

/-- Settles O54: the address, the bytes and the stop. -/
theorem receiveRunStoresBytes : Obligations.ReceiveRunStoresBytes := by
  intro s b data restA restD sch hb he hp hi h0 hn hl hm hr ha hd hs
  have hrun := (turnsTo_readOut hb rfl he hp hi (List.ne_nil_of_length_pos h0) hn.symm hl ha hd).run hs
  rw [List.length_replicate] at hrun
  refine ⟨_, hrun, rfl, fun k d hk => ?_, fun a ha => ?_, ?_⟩
  · simpa using Memory.read_receive s.cfg (s.bus b).rxPtr 0 s.mem data hm (by simpa using hr) hk
  · exact Memory.read_receive_of_outside s.cfg (s.bus b).rxPtr 0 s.mem data (by simpa using hr) (by simpa using ha)
  · simp [Bus.readOut]
end

section
/-! PROOF. The wire engine neither reads nor writes the mask, and of `EV.LASTTX` it only sets the flag: its step commutes with a
change of the mask and with setting the flag (43 R162). -/

namespace Sys2Proof.Machine

/-- The bus with another mask, and with `EV.LASTTX` set if `late` says so. -/
def Bus.remasked (mask : IntEn → IntEn) (late : Bool) (x : Bus) : Bus :=
  { x with inten := mask x.inten, ev := { x.ev with lastTx := late || x.ev.lastTx } }

section
variable (mask : IntEn → IntEn) (late : Bool) (s : State) (b : BusId) (x : Bus)

@[simp] theorem Bus.remasked_enable : (x.remasked mask late).enable = x.enable := rfl
@[simp] theorem Bus.remasked_txCnt : (x.remasked mask late).txCnt = x.txCnt := rfl
@[simp] theorem Bus.remasked_rxCnt : (x.remasked mask late).rxCnt = x.rxCnt := rfl
@[simp] theorem Bus.remasked_shorts : (x.remasked mask late).shorts = x.shorts := rfl
@[simp] theorem Bus.remasked_wire : (x.remasked mask late).wire = x.wire := rfl
@[simp] theorem Bus.remasked_acks : (x.remasked mask late).acks = x.acks := rfl
@[simp] theorem Bus.remasked_rxData : (x.remasked mask late).rxData = x.rxData := rfl

/-- A change of a bus that has just been written. -/
theorem State.setBus_updBus_self (f : Bus → Bus) : (s.setBus b x).updBus b f = s.setBus b (f x) := by
  simp [State.updBus]

/-- A NACK latches its error and stops or holds the bus alike under both. -/
theorem Bus.nacked_remasked (k : NackKind) (stop : Bool) :
    (x.remasked mask late).nacked k stop = (x.nacked k stop).remasked mask late := by
  cases stop <;> rfl

theorem State.nack_remasked (k : NackKind) :
    (s.setBus b (x.remasked mask late)).nack b k = ((s.setBus b x).nack b k).updBus b (Bus.remasked mask late) := by
  rw [State.nack_setBus_self, State.nack_setBus_self, Bus.nacked_remasked, State.updBus_mk, State.setBus_updBus_self]
  rfl

theorem State.dataNack_remasked (i : Nat) :
    (s.setBus b (x.remasked mask late)).dataNack b i = ((s.setBus b x).dataNack b i).updBus b (Bus.remasked mask late) := by
  rw [State.dataNack_setBus_self, State.dataNack_setBus_self, State.updBus_mk, State.setBus_updBus_self,
    ← Bus.nacked_remasked]
  rfl

theorem State.txByte_remasked (i : Nat) : (s.updBus b (Bus.remasked mask late)).txByte b i = s.txByte b i :=
  State.txByte_setBus_self s b (y := (s.bus b).remasked mask late) rfl rfl i

/-- The shorts act on their event, not on the latched flag (43 R162). -/
theorem Bus.afterTransmit_remasked :
    (x.remasked mask late).afterTransmit = x.afterTransmit.map (Bus.remasked mask late) := by
  unfold Bus.afterTransmit
  rw [Bus.remasked_shorts, Bus.remasked_rxCnt]
  cases x.shorts.ltxSrx <;> cases x.shorts.ltxStop
  case true.false =>
    by_cases h0 : x.rxCnt = 0#8
    · simp [h0, Except.map]
    · simp [h0, Except.map]
      rfl
  case true.true | false.true | false.false => rfl

/-! ## The steps -/

theorem addressStep_remasked : addressStep b (s.updBus b (Bus.remasked mask late)) =
    mapNext (fun t => t.updBus b (Bus.remasked mask late)) (addressStep b s) := by
  simp only [addressStep, State.bus_updBus_self, Bus.remasked_acks]
  cases (s.bus b).acks with
  | nil => rfl
  | cons a rest =>
    cases a
    · simp only [mapNext_next, State.updBus, State.setBus_setBus, State.bus_setBus_self]
      rfl
    · simp only [mapNext_next, ← State.nack_remasked]
      simp only [State.updBus, State.setBus_setBus]
      rfl

theorem txByteStep_remasked : txByteStep b (s.updBus b (Bus.remasked mask late)) =
    mapNext (fun t => t.updBus b (Bus.remasked mask late)) (txByteStep b s) := by
  simp only [txByteStep, State.bus_updBus_self, State.txByte_remasked, Bus.remasked_acks, Bus.remasked_wire]
  cases (s.bus b).acks with
  | nil => rfl
  | cons a rest =>
    cases s.txByte b (s.bus b).wire.idx with
    | error e => rfl
    | ok d =>
      cases a
      · simp only [mapNext_next, State.updBus, State.setBus_setBus, State.bus_setBus_self]
        rfl
      · simp only [mapNext_next, ← State.dataNack_remasked]
        simp only [State.updBus, State.setBus_setBus]
        rfl

theorem lastEnds_remasked : lastEnds b (s.updBus b (Bus.remasked mask late)) =
    mapNext (fun t => t.updBus b (Bus.remasked mask late)) (lastEnds b s) := by
  simp only [lastEnds, State.bus_updBus_self, State.txByte_remasked, Bus.remasked_acks, Bus.remasked_txCnt]
  cases (s.bus b).acks with
  | nil => rfl
  | cons a rest =>
    by_cases h0 : (s.bus b).txCnt = 0
    · simp [h0]
    · simp only [h0, if_false]
      cases s.txByte b ((s.bus b).txCnt.toNat - 1) with
      | error e => rfl
      | ok d =>
        cases a with
        | nack =>
          simp only [mapNext_next, ← State.dataNack_remasked]
          simp only [State.updBus, State.setBus_setBus]
          rfl
        | ack =>
          have hacts := Bus.afterTransmit_remasked mask late { (s.bus b).sendByte d .ack rest with txAmt := (s.bus b).txCnt }
          dsimp only
          rw [show ({ ((s.bus b).remasked mask late).sendByte d .ack rest with txAmt := (s.bus b).txCnt } : Bus) =
            Bus.remasked mask late { (s.bus b).sendByte d .ack rest with txAmt := (s.bus b).txCnt } from rfl, hacts]
          cases Bus.afterTransmit { (s.bus b).sendByte d .ack rest with txAmt := (s.bus b).txCnt } with
          | ok y => simp [Except.map, State.updBus]
          | error e => rfl

theorem State.storeReceived_remasked (d : Byte) (rest : List Byte) :
    (s.updBus b (Bus.remasked mask late)).storeReceived b d rest =
      (s.storeReceived b d rest).updBus b (Bus.remasked mask late) := by
  simp only [State.storeReceived, State.updBus, State.bus_setBus_self, State.setBus_setBus, State.bus_mk, State.setBus_mk]
  rfl

theorem rxStep_remasked : rxStep b (s.updBus b (Bus.remasked mask late)) =
    mapNext (fun t => t.updBus b (Bus.remasked mask late)) (rxStep b s) := by
  simp only [rxStep, State.bus_updBus_self, State.storeReceived_remasked, Bus.remasked_rxData, Bus.remasked_wire,
    Bus.remasked_rxCnt, Bus.remasked_shorts]
  cases (s.bus b).rxData with
  | nil => rfl
  | cons d rest =>
    by_cases hlt : (s.bus b).wire.idx + 1 < (s.bus b).rxCnt.toNat
    · simp [hlt]
    · by_cases heq : (s.bus b).wire.idx + 1 = (s.bus b).rxCnt.toNat
      · by_cases hs : (s.bus b).shorts.lrxStop = true
        · simp only [heq, hs, if_true, mapNext_next, State.updBus_updBus, lt_irrefl, if_false]
          rfl
        · simp [heq, hs]
      · simp [hlt, heq]

theorem wireStep_remasked : wireStep b (s.updBus b (Bus.remasked mask late)) =
    mapNext (fun t => t.updBus b (Bus.remasked mask late)) (wireStep b s) := by
  simp only [wireStep, State.bus_updBus_self, State.updBus_hasBus, Bus.remasked_enable, Bus.remasked_wire, Bus.remasked_txCnt]
  cases hon : s.hasBus b && (s.bus b).enable
  case false => rfl
  simp only [Bool.not_true, Bool.false_eq_true, if_false]
  cases (s.bus b).wire.phase
  case idle | held => rfl
  case txAddr | rxAddr => exact addressStep_remasked mask late s b
  case txLast => exact lastEnds_remasked mask late s b
  case rx => exact rxStep_remasked mask late s b
  case tx =>
    dsimp only
    by_cases hlt : (s.bus b).wire.idx + 1 < (s.bus b).txCnt.toNat
    · simp only [if_pos hlt]
      exact txByteStep_remasked mask late s b
    · by_cases heq : (s.bus b).wire.idx + 1 = (s.bus b).txCnt.toNat
      · simp only [if_neg hlt, if_pos heq, lastBegins, mapNext_next, State.updBus_updBus]
        simp [Bus.remasked]
      · simp only [if_neg hlt, if_neg heq, mapNext_refused]

end

end Sys2Proof.Machine

open Sys2Proof Sys2Proof.Machine

/-- Settles O36: both changes are a `Bus.remasked`, with which a turn of the wire engine commutes. -/
theorem wireIgnoresMaskAndStaleEvents : Obligations.WireIgnoresMaskAndStaleEvents := fun s b m =>
  ⟨wireStep_remasked (fun _ => m) false s b, wireStep_remasked id true s b⟩
end

section
/-! PROOF. `EV.LASTTX` and `EV.LASTRX` are set by the wire engine and cleared by `INIT` alone (43 R161). -/

namespace Sys2Proof.Machine

/-- From `x` to `y` the last-byte events that are set stay set. -/
structure Bus.lastLatched (x y : Bus) : Prop where
  lastTx : x.ev.lastTx = true → y.ev.lastTx = true
  lastRx : x.ev.lastRx = true → y.ev.lastRx = true

/-- A change that leaves the two events alone. -/
theorem Bus.lastLatched.of_eq {x y : Bus} (htx : y.ev.lastTx = x.ev.lastTx) (hrx : y.ev.lastRx = x.ev.lastRx) :
    x.lastLatched y := ⟨fun h => htx.trans h, fun h => hrx.trans h⟩

/-- Presenting a command touches no event. -/
@[simp] theorem State.issue_bus_ev (s : State) (k : Nat) (c : Cmd96) (rest : List Cmd96) (i : Instr) (b : BusId) :
    ((s.issue k c rest i).bus b).ev = (s.bus b).ev := by
  by_cases hb : b = i.bus
  · subst hb
    simp
  · simp [hb]

/-- A meaning on an initialised bus is not `INIT`. -/
theorem ExecMove.lastLatched {i : Instr} {s t : State} (m : ExecMove i s t) (b : BusId) (hp : (s.bus b).seq.phase ≠ .uninit) :
    (s.bus b).lastLatched (t.bus b) := by
  by_cases hb : b = i.bus
  · subst hb
    obtain ⟨-, hu, -⟩ | ⟨-, -, hkept⟩ := m.kept_cases
    · exact absurd hu hp
    · exact .of_eq hkept.lastTx hkept.lastRx
  · rw [m.bus_ne b hb]
    exact ⟨id, id⟩

/-- A move of any agent keeps the two events of an initialised bus. -/
theorem AgentMove.lastLatched {s t : State} (m : AgentMove s t) (b : BusId) (hp : (s.bus b).seq.phase ≠ .uninit) :
    (s.bus b).lastLatched (t.bus b) := by
  cases m
  case stay | store => exact ⟨id, id⟩
  case badBus => exact .of_eq (by simp) (by simp)
  case present k c rest i _ _ _ _ _ hm =>
    obtain ⟨htx, hrx⟩ := hm.lastLatched b (by simpa using hp)
    rw [State.issue_bus_ev] at htx hrx
    exact ⟨htx, hrx⟩
  case busy k c rest i v _ _ _ _ _ => by_cases hb : b = i.bus <;> exact .of_eq (by simp [hb]) (by simp [hb])
  case seq hm => exact hm.lastLatched b hp
  case wire c _ _ hm =>
    by_cases hb : b = c
    · subst hb
      obtain ⟨-, -, -, htx, hrx, -⟩ := hm.progress
      exact ⟨htx, hrx⟩
    · rw [hm.bus_ne b hb]
      exact ⟨id, id⟩
  case isr c _ =>
    have hev : ((s.updBus c Bus.handler).bus b).ev = (s.bus b).ev := by
      by_cases hb : b = c <;> simp [hb, Bus.handler, Bus.signalGate]
    exact .of_eq (congrArg Events.lastTx hev) (congrArg Events.lastRx hev)
  case otherConfigure c _ _ _ _ => by_cases hb : b = c <;> exact .of_eq (by simp [hb]) (by simp [hb])

end Sys2Proof.Machine

open Sys2Proof Sys2Proof.Machine

/-- Settles O45: a step is one agent's move, and only `INIT` clears the two events. -/
theorem lastByteEventsStayLatched : Obligations.LastByteEventsStayLatched := fun s t b h hp =>
  have ⟨htx, hrx⟩ := (step_move s t h).lastLatched b hp
  ⟨htx, hrx⟩
end

section
/-! PROOF. Where a step stops (93 section 1; 43 R168): the stops of a meaning and of the wire engine outside the named cases need
a configuration that the invariant excludes. -/

namespace Sys2Proof.Machine

/-- An answer that is a next state, one of the four named refusals or the fault of a store outside the address space. -/
def NamedAnswer (r : Res) : Prop :=
  match r with
  | .next _ => True
  | .refused r => (∃ e, r = .reservedEncoding e) ∨ r = .secondInit ∨ r = .releaseWhileHeld ∨ r = .notOwner
  | .fault f => f = .noSuchAddress

theorem NamedAnswer.of_next {r : Res} (h : ∃ t, r = .next t) : NamedAnswer r := by
  obtain ⟨t, rfl⟩ := h
  trivial

/-! ## The wire engine -/

/-- The sources supply every byte that a programmed count asks for (20 R55, R69). -/
theorem State.txByte_of_inv {s : State} {b : BusId} {k : Nat} (hs : s.staging.length = Config.stagingCap)
    (hx : (s.bus b).txProgrammed) (hk : k < (s.bus b).txCnt.toNat) : ∃ d, s.txByte b k = .ok d := by
  obtain ⟨-, -, -, hreg⟩ := hx
  unfold State.txByte
  cases hp : (s.bus b).txPtr with
  | mem p => exact ⟨_, rfl⟩
  | staging =>
    have hlen : k < s.staging.length := by
      rw [hs]
      exact Nat.lt_trans hk (s.bus b).txCnt.isLt
    exact ⟨s.staging[k], by simp [State.stagingByte, List.getElem?_eq_getElem hlen]⟩
  | regBuf =>
    have hk2 : k < 2 := Nat.lt_of_lt_of_le hk (hreg hp)
    obtain rfl | rfl : k = 0 ∨ k = 1 := by omega
    · exact ⟨_, rfl⟩
    · exact ⟨_, rfl⟩

/-- With programmed registers the shorts of the last byte have a meaning. -/
theorem Bus.afterTransmit_of_programmed {x : Bus} (h : x.txProgrammed) : ∃ y, x.afterTransmit = .ok y := by
  obtain ⟨-, hboth, hreceive, -⟩ := h
  unfold Bus.afterTransmit
  cases hsrx : x.shorts.ltxSrx <;> cases hstop : x.shorts.ltxStop
  case false.false | false.true => exact ⟨_, rfl⟩
  case true.true => exact absurd ⟨hsrx, hstop⟩ hboth
  case true.false =>
    obtain ⟨-, hn⟩ := hreceive hsrx
    have h0 : x.rxCnt ≠ 0#8 := fun e => by simp [e] at hn
    simp [h0]

/-- With programmed registers and a full staging buffer no turn of the wire engine stops. -/
theorem wireStep_exists {s : State} {b : BusId} (hs : s.staging.length = Config.stagingCap) (h : (s.bus b).wireProgrammed) :
    ∃ t, wireStep b s = .next t := by
  obtain ⟨htx, hrx⟩ := h
  by_cases hb : s.hasBus b = true
  case neg => exact ⟨s, by simp [wireStep, hb]⟩
  by_cases he : (s.bus b).enable = true
  case neg => exact ⟨s, wireStep_disabled (by simpa using he)⟩
  cases hp : (s.bus b).wire.phase
  case idle | held => exact ⟨s, wireStep_stalled (.inl (by simp [Wire.atRest, hp]))⟩
  case txAddr | rxAddr =>
    cases ha : (s.bus b).acks with
    | nil => exact ⟨s, wireStep_stalled (.inr (.inl ⟨ha, by simp [hp]⟩))⟩
    | cons a rest =>
      cases a
      · exact ⟨_, wireStep_addressAck rfl hb he (by simp [hp]) ha⟩
      · exact ⟨_, wireStep_addressNack rfl hb he (by simp [hp]) ha⟩
  case tx =>
    obtain ⟨hregs, hidx⟩ := htx (by rw [hp]; rfl)
    obtain ⟨d, hd⟩ := State.txByte_of_inv hs hregs hidx
    obtain hi | hi : (s.bus b).wire.idx + 1 = (s.bus b).txCnt.toNat ∨ (s.bus b).wire.idx + 1 < (s.bus b).txCnt.toNat := by omega
    · exact ⟨_, wireStep_lastBegins rfl hb he hp hi⟩
    · cases ha : (s.bus b).acks with
      | nil => exact ⟨s, wireStep_stalled (.inr (.inr (.inl ⟨ha, hp, hi⟩)))⟩
      | cons a rest =>
        cases a
        · exact ⟨_, wireStep_byteAck rfl hb he hp hi ha hd⟩
        · exact ⟨_, wireStep_byteNack rfl hb he (.inl ⟨hp, rfl, hi⟩) ha hd⟩
  case txLast =>
    obtain ⟨hregs, -⟩ := htx (by rw [hp]; rfl)
    have h0 := hregs.1
    obtain ⟨d, hd⟩ := State.txByte_of_inv (k := (s.bus b).txCnt.toNat - 1) hs hregs (by omega)
    cases ha : (s.bus b).acks with
    | nil => exact ⟨s, wireStep_stalled (.inr (.inl ⟨ha, by simp [hp]⟩))⟩
    | cons a rest =>
      cases a
      · obtain ⟨y, hy⟩ := Bus.afterTransmit_of_programmed
          (x := { (s.bus b).sendByte d .ack rest with txAmt := (s.bus b).txCnt }) hregs
        exact ⟨_, wireStep_lastAck rfl hb he hp h0 ha hd hy⟩
      · exact ⟨_, wireStep_byteNack rfl hb he (.inr ⟨hp, by omega⟩) ha hd⟩
  case rx =>
    obtain ⟨⟨-, hl⟩, hidx⟩ := hrx (by rw [hp]; rfl)
    cases hd : (s.bus b).rxData with
    | nil => exact ⟨s, wireStep_stalled (.inr (.inr (.inr ⟨hd, hp⟩)))⟩
    | cons d rest =>
      obtain hi | hi : (s.bus b).wire.idx + 1 = (s.bus b).rxCnt.toNat ∨ (s.bus b).wire.idx + 1 < (s.bus b).rxCnt.toNat := by
        omega
      · exact ⟨_, wireStep_receivedLast rfl hb he hp hi hd hl⟩
      · exact ⟨_, wireStep_received rfl hb he hp hi hd⟩

/-! ## The meaning of a command -/

variable {i : Instr} {s : State}

/-- A lifecycle operation stops at a second `INIT` and at the `RELEASE` of a held bus alone. -/
theorem exec_lifecycle_namedAnswer (ht : i.isTransfer = false) (hb : s.hasBus i.bus = true) : NamedAnswer (exec i s) := by
  cases i
  case write | writeReg | read | readReg => cases ht
  case init b =>
    by_cases hp : (s.bus b).seq.phase = .uninit
    · rw [exec_init_of_uninit (b := b) hb hp]
      trivial
    · rw [exec_init_of_not_uninit (b := b) hb hp]
      exact .inr (.inl rfl)
  case acquire b =>
    simp only [exec, execAcquire, entry_run (.acquire b) s _ rfl hb]
    cases (s.bus b).seq.phase
    case idle => dsimp only; split <;> trivial
    case pinLock => dsimp only; split <;> trivial
    all_goals trivial
  case release b =>
    simp only [exec, execRelease, entry_run (.release b) s _ rfl hb]
    cases (s.bus b).seq.phase
    case idle =>
      dsimp only
      split
      · exact .inr (.inr (.inl rfl))
      · trivial
    all_goals trivial

/-- What a transfer does in the phases that are not its own: the violation before `INIT`, else nothing but `FINISH`. -/
theorem exec_other_phases (ht : i.isTransfer = true) (hi : i.wf = true) (hb : s.hasBus i.bus = true) :
    ((s.bus i.bus).seq.phase = .uninit → exec i s = busyStep i s) ∧
    ((s.bus i.bus).seq.phase = .pinLock ∨ (s.bus i.bus).seq.phase = .faulted → exec i s = finishStep i.bus s) ∧
    (i.opcode = 6 ∨ i.opcode = 7 → (s.bus i.bus).seq.phase = .stageLock ∨ (s.bus i.bus).seq.phase = .stageCopy ∨
      (s.bus i.bus).seq.phase = .unstage → exec i s = finishStep i.bus s) := by
  cases i
  case init | acquire | release => cases ht
  case write | writeReg =>
    refine ⟨fun hp => ?_, fun hp => ?_, fun ho => by simp [Instr.opcode] at ho⟩ <;> dsimp only [Instr.bus] at hp ⊢
    · simp only [exec, execWrite, execWriteReg, entry_run _ s _ hi hb, hp]
    · rcases hp with hp | hp <;> simp only [exec, execWrite, execWriteReg, entry_run _ s _ hi hb, hp]
  case read | readReg =>
    refine ⟨fun hp => ?_, fun hp => ?_, fun _ hp => ?_⟩ <;> dsimp only [Instr.bus] at hp ⊢
    · simp only [exec, execRead, execReadReg, entry_run _ s _ hi hb, hp]
    · rcases hp with hp | hp <;> simp only [exec, execRead, execReadReg, entry_run _ s _ hi hb, hp]
    · rcases hp with hp | hp | hp <;> simp only [exec, execRead, execReadReg, entry_run _ s _ hi hb, hp]

/-- The four transfers are two writes and two reads. -/
theorem opcode_cases_of_isTransfer (ht : i.isTransfer = true) : (i.opcode = 4 ∨ i.opcode = 5) ∨ (i.opcode = 6 ∨ i.opcode = 7) := by
  cases i
  case init | acquire | release => cases ht
  case write | writeReg | read | readReg => simp [Instr.opcode]

/-- A transfer stops in `P_START`, where its task can be refused, and in `P_STAGE_COPY`, where a frame can be too long, alone. -/
theorem exec_transfer_exists (ht : i.isTransfer = true) (hi : i.wf = true) (hb : s.hasBus i.bus = true)
    (hstart : (s.bus i.bus).seq.phase = .start →
      ∃ x, (if i.opcode = 6 then startRx (s.bus i.bus) else startTx s.cfg (s.bus i.bus)) = .ok x)
    (hcopy : (s.bus i.bus).seq.phase = .stageCopy → i.opcode = 4 ∨ i.opcode = 5 → (i.frame s).length ≤ Config.stagingCap) :
    ∃ t, exec i s = .next t := by
  have hfin : exec i s = finishStep i.bus s → ∃ t, exec i s = .next t := fun h => by
    rw [h]
    exact finishStep_exists i.bus s
  obtain ⟨huninit, hlocked, hread⟩ := exec_other_phases ht hi hb
  obtain ⟨hidle, hstarted⟩ := exec_transfer_phases ht hi hb
  have staging : (s.bus i.bus).seq.phase = .stageLock ∨ (s.bus i.bus).seq.phase = .stageCopy ∨
      (s.bus i.bus).seq.phase = .unstage → (i.opcode = 4 ∨ i.opcode = 5 → ∃ t, exec i s = .next t) → ∃ t, exec i s = .next t :=
    fun hp h => (opcode_cases_of_isTransfer ht).elim h fun ho => hfin (hread ho hp)
  cases hp : (s.bus i.bus).seq.phase
  case uninit => exact ⟨_, huninit hp⟩
  case idle => exact ⟨_, hidle hp⟩
  case pinLock => exact hfin (hlocked (.inl hp))
  case faulted => exact hfin (hlocked (.inr hp))
  case unmask | wait | poll | ack | classify => exact hfin (exec_finish ht hi hb (by simp [hp]))
  case program => exact ⟨_, exec_program ht hi hb hp⟩
  case check =>
    rw [exec_check ht hi hb hp]
    obtain ⟨_, -, h⟩ | ⟨-, -, h⟩ | ⟨-, -, h⟩ := checkStep_cases i i.rejects i.flags (i.stages s.cfg) s
    all_goals exact ⟨_, h⟩
  case start =>
    obtain ⟨x, hx⟩ := hstart hp
    rw [hstarted hp, hx]
    exact ⟨_, rfl⟩
  case stageLock =>
    refine staging (.inl hp) fun ho => ?_
    rw [(exec_staging_phases ho hi hb).1 hp]
    obtain ⟨-, h⟩ | ⟨-, h⟩ := stageLockStep_cases i.bus s <;> exact ⟨_, h⟩
  case stageCopy =>
    exact staging (.inr (.inl hp)) fun ho =>
      ⟨_, (exec_stageCopy ho hi hb hp).trans (stageCopyStep_of_fits i.bus s (hcopy hp ho))⟩
  case unstage => exact staging (.inr (.inr hp)) fun ho => ⟨_, (exec_staging_phases ho hi hb).2 hp⟩

/-- On a wire at rest, with the registers of its direction programmed, the start task of an operation is not refused. -/
theorem startTask_exists (c : Config) {x : Bus} (hw : x.wire.atRest = true) (htx : i.opcode ≠ 6 → x.txProgrammed)
    (hrx : i.opcode = 6 → x.rxProgrammed) : ∃ y, (if i.opcode = 6 then startRx x else startTx c x) = .ok y := by
  by_cases he : x.enable = true
  · exact ⟨_, startTask_of_rest c he hw (fun ho => (htx ho).1) fun ho => (hrx ho).1⟩
  · have he : x.enable = false := by simpa using he
    rw [startRx_of_disabled he, startTx_of_disabled c he, ite_self]
    exact ⟨x, rfl⟩

/-! ## The agents -/

/-- The command that a sequencer with the invariant runs stops in the named cases alone. -/
theorem seqStep_namedAnswer (b : BusId) (h : s.inv) : NamedAnswer (seqStep b s) := by
  obtain ⟨-, -, hgate, hrest, hprog⟩ := h
  obtain ⟨-, -, -, hpassed, htx, hrx⟩ := hprog b
  unfold seqStep
  split
  case isFalse => trivial
  rename_i hon
  obtain ⟨hb, -⟩ := Bool.and_eq_true_iff.1 hon
  split
  case h_1 e _ => exact .inl ⟨e, rfl⟩
  rename_i i hl
  obtain rfl := s.latched_bus b i hl
  cases ht : i.isTransfer
  case false => exact exec_lifecycle_namedAnswer ht hb
  have hop := s.latched_op _ i hl
  rw [hop] at htx hrx
  refine .of_next (exec_transfer_exists ht (decodeCmd_wf _ _ hl) hb (fun hp => ?start) fun hp ho => ?copy)
  case start =>
    exact startTask_exists s.cfg (Bus.settled_of_phase (hgate _) (hrest _) hp (.inl rfl)).wire (htx hp) (hrx hp)
  case copy =>
    have hv := hpassed (.inr (.inl hp)) i hl
    obtain ⟨-, -, hlen⟩ := (programmed_counts ht hv (s.bus i.bus)).1 (by rcases ho with ho | ho <;> simp [ho])
    exact hlen

/-- A presented command stops in the named cases alone: it is answered only before its check. -/
theorem requesterStep_namedAnswer (k : Nat) (s : State) : NamedAnswer (requesterStep k s) := by
  by_cases hk : s.blocked k = true
  · exact .of_next ⟨s, requesterStep_blocked hk⟩
  cases hr : s.requests[k]? with
  | none => exact .of_next ⟨s, requesterStep_exhausted (.inl hr)⟩
  | some q =>
    cases q with
    | nil => exact .of_next ⟨s, requesterStep_exhausted (.inr hr)⟩
    | cons c rest =>
      have hk : s.blocked k = false := by simpa using hk
      cases hd : decode (c.onWires s.cfg.addrW) with
      | error e =>
        have href : requesterStep k s = .refused (.reservedEncoding e) := by simp [requesterStep, hk, hr, hd]
        rw [href]
        exact .inl ⟨e, rfl⟩
      | ok i =>
        rw [requesterStep_of_decode hk hr hd]
        cases ha : s.answers i
        case false =>
          rw [present_issue_of_not_answers _ _ _ ha]
          trivial
        have hi := decodeCmd_wf _ _ hd
        rw [present_issue_of_answers _ _ _ ha]
        cases hb : s.hasBus i.bus
        case false => exact .of_next ⟨_, exec_badBus hi hb⟩
        cases ht : i.isTransfer
        case false => exact exec_lifecycle_namedAnswer ht hb
        have hphase : (s.bus i.bus).seq.phase = .idle ∨ (s.bus i.bus).seq.phase = .uninit :=
          (((s.answers_eq_true_iff i).1 ha).resolve_left (by simp [hb])).resolve_left (opcode_of_isTransfer ht).1
        refine .of_next (exec_transfer_exists ht hi hb (fun hp => ?_) fun hp => ?_) <;>
          · rw [State.issue_bus_phase] at hp
            rcases hphase with h | h <;> rw [h] at hp <;> cases hp

/-- A turn from a state with the invariant stops in the named cases alone. -/
theorem takeTurn_namedAnswer (k : Turn) (h : s.inv) : NamedAnswer (takeTurn k s) := by
  obtain ⟨⟨-, -, hstaging, -⟩, -, -, -, hprog⟩ := id h
  cases k with
  | requester k => exact requesterStep_namedAnswer k s
  | seq b => exact seqStep_namedAnswer b h
  | wire b => exact .of_next (wireStep_exists hstaging ((State.programmedInv_iff s).1 hprog b).1)
  | isr b =>
    simp only [takeTurn, isrStep]
    split <;> trivial
  | otherConfigure b scl sda freq =>
    simp only [takeTurn, otherConfigure]
    split <;> trivial
  | otherPinLock b l => exact .inr (.inr (.inr rfl))
  | store k a v =>
    simp only [takeTurn, requesterStore]
    split
    · trivial
    · split
      · trivial
      · rfl

/-- A step takes the turn that the schedule or the model names. -/
theorem step_namedAnswer (h : s.inv) : NamedAnswer (step s) := by
  cases hs : s.sched with
  | cons k rest =>
    rw [step_of_sched hs]
    exact takeTurn_namedAnswer k (s := { s with sched := rest }) h
  | nil =>
    simp only [step, hs, unscheduledStep]
    split
    · trivial
    · exact takeTurn_namedAnswer _ h

end Sys2Proof.Machine

open Sys2Proof Sys2Proof.Machine

/-- Settles O51: each agent's turn stops in the named cases alone. -/
theorem invariantStateRefusesOnlyNamedCases : Obligations.InvariantStateRefusesOnlyNamedCases := by
  intro s h
  have hnamed := step_namedAnswer h
  refine ⟨fun r hr => ?_, fun f hf => ?_⟩
  · rwa [hr] at hnamed
  · rwa [hf] at hnamed
end

section
/-! PROOF. The completion handler masks the three sources and signals the gate; no move but `P_UNMASK` unmasks one again, so it
fires once (10 R29; 60 R186, R187, R189). -/

namespace Sys2Proof.Machine

/-! ## When the handler runs, and what it does -/

/-- `IRQ(b)`: a latched event whose source is unmasked (10 R29). -/
theorem Bus.irq_eq_true_iff (x : Bus) : x.irq = true ↔
    (x.ev.stopped = true ∧ x.inten.stopped = true) ∨ (x.ev.lastTx = true ∧ x.inten.lastTx = true) ∨
    (x.ev.error = true ∧ x.inten.error = true) := by
  simp [Bus.irq, or_assoc]

/-- The handler of an existing bus is enabled by its interrupt path and its interrupt condition (60 R186). -/
theorem State.isrEnabled_eq_true_iff {s : State} {b : BusId} (hb : s.hasBus b = true) :
    s.isrEnabled b = true ↔ (s.bus b).irqEn = true ∧ (s.bus b).irq = true := by
  simp [State.isrEnabled, hb]

/-- An enabled handler runs on its bus. -/
theorem isrStep_enabled {s : State} {b : BusId} (h : s.isrEnabled b = true) :
    isrStep b s = .next (s.setBus b (s.bus b).handler) := if_pos h

/-- With all its sources masked a bus has no interrupt condition. -/
theorem State.isrEnabled_of_masked {s : State} {b : BusId} (h : (s.bus b).inten = IntEn.none) : s.isrEnabled b = false := by
  rw [← Bool.not_eq_true]
  intro he
  obtain ⟨-, hirq⟩ := Bool.and_eq_true_iff.1 he
  exact Bus.inten_of_irq hirq h

/-! ## Who writes the mask -/

/-- Presenting a command leaves the mask alone. -/
@[simp] theorem State.issue_bus_inten (s : State) (k : Nat) (c : Cmd96) (rest : List Cmd96) (i : Instr) (b : BusId) :
    ((s.issue k c rest i).bus b).inten = (s.bus b).inten := by
  by_cases hb : b = i.bus
  · subst hb
    simp
  · simp [hb]

/-- A meaning leaves the mask alone, but for `INIT`, which masks all sources, and `P_UNMASK`. -/
theorem ExecMove.inten_cases {i : Instr} {s t : State} (m : ExecMove i s t) :
    (t.bus i.bus).inten = (s.bus i.bus).inten ∨ (t.bus i.bus).inten = IntEn.none ∨ (s.bus i.bus).seq.phase = .unmask := by
  cases m
  case unmask hp => exact .inr (.inr hp)
  case blocked => exact .inl rfl
  all_goals
    simp only [State.bus_updBus_self, State.bus_setBus_self, State.bus_mk, State.toPhase, State.takeSLock, State.dropSLock,
      State.ret]
  case init => exact .inr (.inl rfl)
  case startTx hx => exact .inl (startTx_mask hx).1
  case startRx hx => exact .inl (startRx_mask hx).1
  case classify => exact .inl (Bus.finishClassify_mask _).1
  case violated | acquireNow | acquireWaits | acquireTakes | release | accept | unsupported | checked | stageLock | stageCopy |
      programTx | programRx | programTxRx | wake | polled | ackStopped | unstage => exact .inl rfl

/-- A meaning keeps a masked bus masked, unless it is that bus's `P_UNMASK`. -/
theorem ExecMove.masked {i : Instr} {s t : State} (m : ExecMove i s t) {b : BusId} (h : (s.bus b).inten = IntEn.none)
    (hp : (s.bus b).seq.phase ≠ .unmask) : (t.bus b).inten = IntEn.none := by
  by_cases hb : b = i.bus
  · subst hb
    rcases m.inten_cases with hkept | hnone | hunmask
    · exact hkept.trans h
    · exact hnone
    · exact absurd hunmask hp
  · rw [m.bus_ne b hb, h]

/-- The wire engine writes no mask. -/
theorem WireMove.bus_inten {s t : State} {b : BusId} (m : WireMove s b t) (c : BusId) :
    (t.bus c).inten = (s.bus c).inten := by
  by_cases hc : c = b
  · subst hc
    obtain ⟨x, hx⟩ := m.bus_frame
    rw [hx]
  · rw [m.bus_ne c hc]

/-- A move of any agent keeps a masked bus masked, unless its sequencer is in `P_UNMASK`. -/
theorem AgentMove.masked {s t : State} (m : AgentMove s t) {b : BusId} (h : (s.bus b).inten = IntEn.none)
    (hp : (s.bus b).seq.phase ≠ .unmask) : (t.bus b).inten = IntEn.none := by
  cases m
  case stay | store => exact h
  case badBus => simpa using h
  case present hm => exact hm.masked (by simpa using h) (by simpa using hp)
  case busy k c rest i v _ _ _ _ _ => by_cases hb : b = i.bus <;> simpa [hb] using h
  case seq hm => exact hm.masked h hp
  case wire hm => exact (hm.bus_inten b).trans h
  case isr c _ =>
    by_cases hb : b = c
    · subst hb
      rw [State.bus_updBus_self]
      rfl
    · simpa [hb] using h
  case otherConfigure c _ _ _ _ => by_cases hb : b = c <;> simpa [hb] using h

end Sys2Proof.Machine

open Sys2Proof Sys2Proof.Machine

/-- Settles O28: a step is one agent's move, and only `P_UNMASK` unmasks a source. -/
theorem handlerFiresOnce : Obligations.HandlerFiresOnce := fun s t _ hm h hp =>
  have hmasked := (step_move s t h).masked hm hp
  ⟨hmasked, State.isrEnabled_of_masked hmasked⟩

/-- Settles O27: the handler's turn, by whether the handler is enabled. -/
theorem handlerMasksAndSignals : Obligations.HandlerMasksAndSignals := by
  intro s b hb x pending
  have henabled : s.isrEnabled b = true ↔ x.irqEn = true ∧ pending :=
    (State.isrEnabled_eq_true_iff hb).trans (and_congr_right' x.irq_eq_true_iff)
  exact ⟨fun hirq hpend => isrStep_enabled (henabled.2 ⟨hirq, hpend⟩),
    fun hno => isrStep_disabled (Bool.eq_false_iff.2 fun he => hno (henabled.1 he))⟩
end

section
/-! PROOF. The contract violation: where a command raises it, and what it leaves of the state (41 R101; 60 R184; 70 R212). -/

namespace Sys2Proof.Machine

/-- On a bus that does not exist the violation sets the latch alone. -/
theorem State.raise_of_not_hasBus {s : State} {b : BusId} (c : ContractCheck) (hb : s.hasBus b = false) :
    s.raise c b = { s with fault := some ⟨c, b⟩ } := by
  simp [State.raise, hb]

/-- The check phase raises the failing row of the table. -/
theorem checkStep_of_violation {i : Instr} {s : State} {v : ContractCheck} (mask f : Byte) (stages : Bool)
    (h : violation s.cfg i = some v) : checkStep i mask f stages s = .next (s.raise v i.bus) := by
  simp only [checkStep, h]

/-- Before `INIT` every other command is the violation of a sequencer that cannot accept it (70 R212). -/
theorem exec_uninit {i : Instr} {s : State} (hi : i.wf = true) (h0 : i.opcode ≠ 0) (hb : s.hasBus i.bus = true)
    (hp : (s.bus i.bus).seq.phase = .uninit) : exec i s = busyStep i s := by
  cases i
  case init => exact absurd rfl h0
  case acquire | release =>
    dsimp only [Instr.bus] at hp
    simp only [exec, execAcquire, execRelease, entry_run _ s _ hi hb, hp]
  case write | writeReg | read | readReg => exact (exec_other_phases rfl hi hb).1 hp

end Sys2Proof.Machine

open Sys2Proof Sys2Proof.Machine

/-- Settles O16: each of the three is a `State.raise`, on a bus that exists or on one that does not. -/
theorem contractViolationStopsSequencer : Obligations.ContractViolationStopsSequencer := by
  refine ⟨fun i s v ht hi hb hp hv => ?check, fun i s hi hb => ?badBus, fun i s hi h0 hb hp => ?uninit⟩
  case check =>
    rw [exec_check ht hi hb hp, checkStep_of_violation _ _ _ hv, State.raise_hasBus _ _ _ hb]
    rfl
  case badBus => rw [exec_badBus hi hb, State.raise_of_not_hasBus _ hb]
  case uninit =>
    rw [exec_uninit hi h0 hb hp, busyStep, State.raise_hasBus _ _ _ hb]
    rfl
end

section
/-! PROOF. The state after power-on reset (70 R210): sixteen buses alike, each with a sequencer in `P_UNINIT`, a wire at rest, its
sources masked and its gate locked, of which every clause of the invariant on one bus follows. -/

namespace Sys2Proof.Machine

/-- Reset makes no difference between bus slots. -/
@[simp] theorem State.bus_reset (b : BusId) : State.reset.bus b = Bus.reset := by
  simp [State.bus, State.reset]

/-- The pointers at reset are 0 (log entry 1), an address of any width. -/
theorem Bus.pointersFit_reset (w : Nat) : Bus.reset.pointersFit w := by
  have hzero : 0 < 2 ^ w := Nat.two_pow_pos w
  refine ⟨hzero, hzero, fun p hp => ?_⟩
  cases hp
  exact hzero

theorem State.memoryInv_reset : State.reset.memoryInv := by
  refine ⟨rfl, nofun, List.length_replicate, fun b => ?_⟩
  rw [State.bus_reset]
  exact Bus.pointersFit_reset _

/-- No sequencer holds the lock, and none is in a phase that asks for it. -/
theorem State.lockInv_reset : State.reset.lockInv := fun b => by
  rw [State.bus_reset]
  exact ⟨⟨nofun, nofun⟩, fun _ => rfl, nofun⟩

theorem State.gateInv_reset : State.reset.gateInv := fun b => by
  rw [State.bus_reset]
  exact Bus.gateInv_of_masked ⟨rfl, rfl⟩

theorem State.restInv_reset : State.reset.restInv := fun b => by
  rw [State.bus_reset]
  exact Bus.restInv_of_inert (.inl rfl)

/-- Nothing runs and no command is in flight. -/
theorem State.programmedInv_reset : State.reset.programmedInv := by
  refine (State.programmedInv_iff _).2 fun b => ?_
  rw [State.bus_reset]
  exact ⟨Bus.wireProgrammed_of_atRest rfl, Bus.commandProgrammed_of_not_inFlight rfl⟩

end Sys2Proof.Machine

open Sys2Proof Sys2Proof.Machine

/-- Settles O8: every bus of the reset state is `Bus.reset`. -/
theorem resetLeavesUninitialised : Obligations.ResetLeavesUninitialised := by
  refine ⟨rfl, rfl, fun b => ?_⟩
  rw [State.bus_reset]
  exact ⟨rfl, rfl, rfl, rfl⟩

/-- Settles O9: the five parts of the invariant, each at reset. -/
theorem invariantHoldsAtReset : Obligations.InvariantHoldsAtReset :=
  ⟨State.memoryInv_reset, State.lockInv_reset, State.gateInv_reset, State.restInv_reset, State.programmedInv_reset⟩
end
